-- ==== Sys2Proof/Word.lean ====
section
/-! DEFINITION. The word types of the block (00_scope.md R7): 8-bit buffer bytes and 32-bit registers. -/

namespace Sys2Proof

/-- One byte of buffer RAM, of a key, of a nonce (00_scope.md R9). -/
abbrev Byte := BitVec 8

/-- One register, one MMIO offset, one command word (00_scope.md R7). -/
abbrev Word := BitVec 32

end Sys2Proof
end

