-- ==== Sys2Proof/Syntax.lean ====
section
/-! DEFINITION. The commands: one constructor per row of spec/opcode_table.json (30_encoding.md R114). -/

namespace Sys2Proof

/-- NMODE field (30_encoding.md R111, 10_state.md R47): code 0 is Sequential, code 1 is Zero. -/
inductive NonceMode where
  | sequential
  | zero
deriving DecidableEq, Repr, Inhabited

/-- DIGEST field (30_encoding.md R111): code 0 is SHA-256, code 1 is SHA-1. -/
inductive Digest where
  | sha256
  | sha1
deriving DecidableEq, Repr, Inhabited

/-- A command of format C with the fields it uses (30_encoding.md R114). SLOT and MK are indexes, CIPHER is the
raw 3-bit code: codes 5..7 are legal words whose execution raises E_UNKNOWN_CIPHER (R116). -/
inductive Instr where
  | parse
  | nameOf (cipher : Nat)
  | specOf (cipher : Nat)
  | mkPbkdf2 (mk cipher : Nat)
  | mkLegacy (mk cipher : Nat)
  | mkClear (mk : Nat)
  | subkey (slot mk cipher : Nat) (digest : Digest)
  | loadKey (slot : Nat)
  | create (slot cipher : Nat) (nmode : NonceMode)
  | release (slot : Nat)
  | encrypt (slot : Nat)
  | decrypt (slot : Nat)
  | expectedLen (slot : Nat)
deriving DecidableEq, Repr

end Sys2Proof
end

