-- ==== Sys2Proof/WellFormed.lean ====
section
/-! DEFINITION. Which terms of `Instr` a command word can hold: every index fits its field (30_encoding.md R111). -/

namespace Sys2Proof

/-- The SLOT field has 4 bits. -/
def slotFits (slot : Nat) : Bool := decide (slot < 16)

/-- The MK field has 4 bits. -/
def mkFits (mk : Nat) : Bool := decide (mk < 16)

/-- The CIPHER field has 3 bits. -/
def cipherFits (cipher : Nat) : Bool := decide (cipher < 8)

/-- Every field of the command fits the bits that 30_encoding.md R111 gives it. -/
def Instr.wellFormed : Instr → Bool
  | .parse => true
  | .nameOf cipher => cipherFits cipher
  | .specOf cipher => cipherFits cipher
  | .mkPbkdf2 mk cipher => mkFits mk && cipherFits cipher
  | .mkLegacy mk cipher => mkFits mk && cipherFits cipher
  | .mkClear mk => mkFits mk
  | .subkey slot mk cipher _ => slotFits slot && mkFits mk && cipherFits cipher
  | .loadKey slot => slotFits slot
  | .create slot cipher _ => slotFits slot && cipherFits cipher
  | .release slot => slotFits slot
  | .encrypt slot => slotFits slot
  | .decrypt slot => slotFits slot
  | .expectedLen slot => slotFits slot

/-- The command is one a word can hold. -/
abbrev Instr.WellFormed (i : Instr) : Prop := i.wellFormed = true

end Sys2Proof
end

