-- ==== Sys2Proof/Decode.lean ====
section
/-! DEFINITION. Decoding a command word (30_encoding.md R110-R118), total and rejecting by name, and after it the
encoder written from the same tables. -/

namespace Sys2Proof

/-- Why a word is no command; either reason is E_ILLEGAL when executed (30_encoding.md R118). -/
inductive DecodeError where
  /-- OP is none of the 13 assigned opcodes (R114). Architectural, safe. -/
  | unassignedOpcode
  /-- A field the opcode does not use, or RSV, is nonzero (R115). Architectural, safe. -/
  | nonzeroUnusedField
deriving DecidableEq, Repr

/-- The mnemonics of the opcode map (30_encoding.md R114). -/
inductive Mnemonic where
  | parse
  | nameOf
  | specOf
  | mkPbkdf2
  | mkLegacy
  | mkClear
  | subkey
  | loadKey
  | create
  | release
  | encrypt
  | decrypt
  | expectedLen
deriving DecidableEq, Repr

/-- OP of a mnemonic (30_encoding.md R114). -/
def opcodeOf : Mnemonic → Nat
  | .parse => 0x01
  | .nameOf => 0x02
  | .specOf => 0x03
  | .mkPbkdf2 => 0x10
  | .mkLegacy => 0x11
  | .mkClear => 0x12
  | .subkey => 0x18
  | .loadKey => 0x19
  | .create => 0x20
  | .release => 0x21
  | .encrypt => 0x30
  | .decrypt => 0x31
  | .expectedLen => 0x32

/-- The thirteen assigned mnemonics (30_encoding.md R114). -/
def allMnemonics : List Mnemonic :=
  [.parse, .nameOf, .specOf, .mkPbkdf2, .mkLegacy, .mkClear, .subkey, .loadKey, .create, .release, .encrypt, .decrypt,
   .expectedLen]

/-- The mnemonic of an opcode; every other value of OP is unassigned (30_encoding.md R118). -/
def mnemonicOf (op : Nat) : Option Mnemonic := allMnemonics.find? fun k => opcodeOf k == op

/-- The fields of format C as numbers (30_encoding.md R111, R112). -/
structure Fields where
  op : Nat
  slot : Nat
  cipher : Nat
  nmode : Nat
  master : Nat
  digest : Nat
  rsv : Nat
deriving DecidableEq, Repr

/-- `v[lo+width-1 : lo]` of a word as an unsigned number (00_scope.md R8). -/
def bitField (w : Word) (lo width : Nat) : Nat := w.toNat >>> lo % 2 ^ width

/-- Cut a command word into the fields of format C (30_encoding.md R111). -/
def Fields.ofWord (w : Word) : Fields where
  op := bitField w 0 8
  slot := bitField w 8 4
  cipher := bitField w 12 3
  nmode := bitField w 15 1
  master := bitField w 16 4
  digest := bitField w 20 1
  rsv := bitField w 21 11

/-- Put the fields of format C into a command word (30_encoding.md R111). -/
def Fields.toWord (f : Fields) : Word :=
  BitVec.ofNat 32 (f.op + f.slot * 2 ^ 8 + f.cipher * 2 ^ 12 + f.nmode * 2 ^ 15 + f.master * 2 ^ 16
    + f.digest * 2 ^ 20 + f.rsv * 2 ^ 21)

/-- NMODE code to mode (10_state.md R47). -/
def nonceModeOf (n : Nat) : NonceMode := if n = 0 then .sequential else .zero

/-- Mode to NMODE code (10_state.md R47). -/
def NonceMode.code : NonceMode → Nat
  | .sequential => 0
  | .zero => 1

/-- DIGEST code to digest (30_encoding.md R111). -/
def digestOf (n : Nat) : Digest := if n = 0 then .sha256 else .sha1

/-- Digest to DIGEST code (30_encoding.md R111). -/
def Digest.code : Digest → Nat
  | .sha256 => 0
  | .sha1 => 1

/-- The command, if every unused field and RSV is 0 (30_encoding.md R115). -/
def ifUnusedZero (unused : List Nat) (i : Instr) : Except DecodeError Instr :=
  if unused.all (· == 0) then .ok i else .error .nonzeroUnusedField

/-- The command the fields name: OP selects the row of 30_encoding.md R114, every field that row does not list
must be 0. -/
def Fields.decode (f : Fields) : Except DecodeError Instr :=
  match mnemonicOf f.op with
  | none => .error .unassignedOpcode
  | some .parse => ifUnusedZero [f.slot, f.cipher, f.nmode, f.master, f.digest, f.rsv] .parse
  | some .nameOf => ifUnusedZero [f.slot, f.nmode, f.master, f.digest, f.rsv] (.nameOf f.cipher)
  | some .specOf => ifUnusedZero [f.slot, f.nmode, f.master, f.digest, f.rsv] (.specOf f.cipher)
  | some .mkPbkdf2 => ifUnusedZero [f.slot, f.nmode, f.digest, f.rsv] (.mkPbkdf2 f.master f.cipher)
  | some .mkLegacy => ifUnusedZero [f.slot, f.nmode, f.digest, f.rsv] (.mkLegacy f.master f.cipher)
  | some .mkClear => ifUnusedZero [f.slot, f.cipher, f.nmode, f.digest, f.rsv] (.mkClear f.master)
  | some .subkey => ifUnusedZero [f.nmode, f.rsv] (.subkey f.slot f.master f.cipher (digestOf f.digest))
  | some .loadKey => ifUnusedZero [f.cipher, f.nmode, f.master, f.digest, f.rsv] (.loadKey f.slot)
  | some .create => ifUnusedZero [f.master, f.digest, f.rsv] (.create f.slot f.cipher (nonceModeOf f.nmode))
  | some .release => ifUnusedZero [f.cipher, f.nmode, f.master, f.digest, f.rsv] (.release f.slot)
  | some .encrypt => ifUnusedZero [f.cipher, f.nmode, f.master, f.digest, f.rsv] (.encrypt f.slot)
  | some .decrypt => ifUnusedZero [f.cipher, f.nmode, f.master, f.digest, f.rsv] (.decrypt f.slot)
  | some .expectedLen => ifUnusedZero [f.cipher, f.nmode, f.master, f.digest, f.rsv] (.expectedLen f.slot)

/-- Decode a command word (30_encoding.md R118). -/
def decode (w : Word) : Except DecodeError Instr := (Fields.ofWord w).decode

/-- The instruction whose bits are `w`, the row having `nbits` bits in spec/opcode_table.json: the higher bits
are 0, and a command is one word (30_encoding.md R110). -/
def decodeTableWord (nbits w : Nat) : Option Instr :=
  match decode (BitVec.ofNat 32 (w % 2 ^ nbits)) with
  | .ok i => some i
  | .error _ => none

/-- The mnemonic of a command. -/
def Instr.mnemonic : Instr → Mnemonic
  | .parse => .parse
  | .nameOf _ => .nameOf
  | .specOf _ => .specOf
  | .mkPbkdf2 _ _ => .mkPbkdf2
  | .mkLegacy _ _ => .mkLegacy
  | .mkClear _ => .mkClear
  | .subkey _ _ _ _ => .subkey
  | .loadKey _ => .loadKey
  | .create _ _ _ => .create
  | .release _ => .release
  | .encrypt _ => .encrypt
  | .decrypt _ => .decrypt
  | .expectedLen _ => .expectedLen

/-- OP of a command (30_encoding.md R114). -/
def Instr.opcode (i : Instr) : Nat := opcodeOf i.mnemonic

/-- The mask of a mnemonic's row (30_encoding.md R115, the table): its fixed bits. -/
def maskOf : Mnemonic → Word
  | .parse => 0xFFFFFFFF#32
  | .nameOf => 0xFFFF8FFF#32
  | .specOf => 0xFFFF8FFF#32
  | .mkPbkdf2 => 0xFFF08FFF#32
  | .mkLegacy => 0xFFF08FFF#32
  | .mkClear => 0xFFF0FFFF#32
  | .subkey => 0xFFE080FF#32
  | .loadKey => 0xFFFFF0FF#32
  | .create => 0xFFFF00FF#32
  | .release => 0xFFFFF0FF#32
  | .encrypt => 0xFFFFF0FF#32
  | .decrypt => 0xFFFFF0FF#32
  | .expectedLen => 0xFFFFF0FF#32

/-- The fields of a command, unused ones 0 (30_encoding.md R114, R115). -/
def Instr.fields (i : Instr) : Fields :=
  match i with
  | .parse => ⟨i.opcode, 0, 0, 0, 0, 0, 0⟩
  | .nameOf cipher => ⟨i.opcode, 0, cipher, 0, 0, 0, 0⟩
  | .specOf cipher => ⟨i.opcode, 0, cipher, 0, 0, 0, 0⟩
  | .mkPbkdf2 mk cipher => ⟨i.opcode, 0, cipher, 0, mk, 0, 0⟩
  | .mkLegacy mk cipher => ⟨i.opcode, 0, cipher, 0, mk, 0, 0⟩
  | .mkClear mk => ⟨i.opcode, 0, 0, 0, mk, 0, 0⟩
  | .subkey slot mk cipher digest => ⟨i.opcode, slot, cipher, 0, mk, digest.code, 0⟩
  | .loadKey slot => ⟨i.opcode, slot, 0, 0, 0, 0, 0⟩
  | .create slot cipher nmode => ⟨i.opcode, slot, cipher, nmode.code, 0, 0, 0⟩
  | .release slot => ⟨i.opcode, slot, 0, 0, 0, 0, 0⟩
  | .encrypt slot => ⟨i.opcode, slot, 0, 0, 0, 0, 0⟩
  | .decrypt slot => ⟨i.opcode, slot, 0, 0, 0, 0, 0⟩
  | .expectedLen slot => ⟨i.opcode, slot, 0, 0, 0, 0, 0⟩

/-- The command word of a well-formed command (30_encoding.md R111, R114, R115). -/
def encode (i : Instr) : Word := i.fields.toWord

end Sys2Proof
end

