-- ==== Sys2Proof/Machine/Bytes.lean ====
section
/-! DEFINITION. Byte strings and byte orders (00_scope.md R9, 20_memory.md R81-R83). -/

namespace Sys2Proof.Machine

/-- `LE(s)`: the little-endian unsigned integer (00_scope.md R9). -/
def le : List Byte → Nat
  | [] => 0
  | b :: bs => b.toNat + 256 * le bs

/-- `LEbytes(v, n)`: the n-byte little-endian string of v mod 256^n (00_scope.md R9). -/
def leBytes (v : Nat) : Nat → List Byte
  | 0 => []
  | n + 1 => BitVec.ofNat 8 v :: leBytes (v / 256) n

/-- The big-endian unsigned integer of a byte string. -/
def be (s : List Byte) : Nat := le s.reverse

/-- The n-byte big-endian string of v mod 256^n (INT(i) of 41_key_derivation.md R181). -/
def beBytes (v n : Nat) : List Byte := (leBytes v n).reverse

/-- The first n bytes of `s || 0 0 0 ...`: a byte string in a register of n bytes, zero above
(10_state.md R40, R44). -/
def fit (n : Nat) (s : List Byte) : Vector Byte n :=
  ⟨((s ++ List.replicate n 0#8).take n).toArray, by simp⟩

/-- `s xor t`, as long as `s`; a shorter `t` counts as followed by zero bytes. -/
def xorBytes : List Byte → List Byte → List Byte
  | [], _ => []
  | s, [] => s
  | a :: s, b :: t => (a ^^^ b) :: xorBytes s t

/-- The first `k` groups of `n` bytes of a byte string. -/
def groups (n : Nat) : Nat → List Byte → List (List Byte)
  | 0, _ => []
  | k + 1, s => s.take n :: groups n k (s.drop n)

/-- The byte string cut into groups of n bytes, the last one perhaps shorter. -/
def blocks (n : Nat) (s : List Byte) : List (List Byte) := groups n ((s.length + n - 1) / n) s

/-- The ASCII codes of a text (00_scope.md R9). -/
def ascii (text : String) : List Byte := text.toList.map fun c => BitVec.ofNat 8 c.toNat

end Sys2Proof.Machine
end

