-- ==== Sys2Proof/Config.lean ====
section
/-! DEFINITION. What an implementation fixes: the parameters of 00_scope.md R6, held by State as plain data
(log 1), and the uninterpreted capability providers (log 2). -/

namespace Sys2Proof

/-- The closed enumeration of ciphers (00_scope.md R2, 10_state.md R31), in the order of their codes 0..4. -/
inductive Cipher where
  | aes128Gcm
  | aes192Gcm
  | aes256Gcm
  | chacha20Poly1305
  | xchacha20Poly1305
deriving DecidableEq, Repr, Inhabited

/-- The functions that are parameters of the model (00_scope.md R6): the hash functions with their output
lengths (41_key_derivation.md R180) and the AEAD transforms. Their output lengths are properties T1 and T4 of
43_crypter.md R262, carried by the types: `|p| + 16` and `|t| - 16`. FAIL is `none`. Being functions of their
arguments alone is T2. Nothing else is assumed of them. -/
structure Primitives where
  md5 : List Byte → Vector Byte 16
  sha1 : List Byte → Vector Byte 20
  sha256 : List Byte → Vector Byte 32
  aeadSeal : Cipher → (key nonce ad : List Byte) → (pt : List Byte) → Vector Byte (pt.length + 16)
  aeadOpen : Cipher → (key nonce ad : List Byte) → (ct : List Byte) → Option (Vector Byte (ct.length - 16))
deriving Inhabited

/-- Which functions a build has, as plain data: the standard ones, the value of 00_scope.md R6's examples, or
any others, numbered. -/
inductive Provider where
  | standard
  | other (n : Nat)
deriving DecidableEq, Repr, Inhabited

/-- The functions of provider `other n`: free values (log 2). No body, so no proof can see what they are, and a
statement about every state holds whatever they are. -/
opaque Config.otherPrimitives : Nat → Primitives

/-- The parameters of 00_scope.md R6 as plain data: counts, the buffer's size, and the backend table of
42_selector.md R231, indexed by cipher code. -/
structure Build where
  numSlots : Nat
  numMk : Nat
  bufSize : Nat
  bkKeyLen : Vector Nat 5
  bkNonceLen : Vector Nat 5
  provider : Provider
deriving DecidableEq, Repr

/-- The ranges of 00_scope.md R6. -/
abbrev Build.Legal (b : Build) : Prop :=
  (1 ≤ b.numSlots ∧ b.numSlots ≤ 16) ∧ (1 ≤ b.numMk ∧ b.numMk ≤ 16) ∧
    (64 ≤ b.bufSize ∧ b.bufSize ≤ 1048576 ∧ b.bufSize % 4 = 0)

/-- The build of the spec's examples (00_scope.md R6, last column; 95_test_vectors.md, conventions): 4 slots,
2 master keys, 4096 buffer bytes, backend table equal to the registry, standard functions. -/
def Build.specExample : Build where
  numSlots := 4
  numMk := 2
  bufSize := 4096
  bkKeyLen := #v[16, 24, 32, 32, 32]
  bkNonceLen := #v[12, 12, 12, 12, 24]
  provider := .standard

end Sys2Proof
end

