-- ==== Sys2Proof/Machine/State.lean ====
section
/-! DEFINITION. The block's state as plain data (10_state.md), the reasons a step can stop, and the reset state
(70_reset_and_hazards.md R340). -/

namespace Sys2Proof.Machine

/-- Model faults (60_exceptions.md R308): places where the spec gives the hardware no behaviour. Each is safe:
the model stops where a chip might go on. -/
inductive Fault where
  /-- Raised by a host access: register access that is not an aligned 32-bit one (20_memory.md R84). Safe. -/
  | busWidth
  /-- Raised by a host access: misaligned buffer access (20_memory.md R84). Safe. -/
  | busAlign
  /-- Raised by a host access: an offset no register or buffer byte occupies (20_memory.md R84, R85). Safe. -/
  | busUnmapped
  /-- Raised by a host read of a buffer byte that holds no value (20_memory.md R86). Safe. -/
  | uninitRead
  /-- Raised by a command that reads a buffer byte that holds no value (20_memory.md R88). Safe. -/
  | uninitInput
  /-- Raised by a host access other than a read of STATUS, ID or BUFSZ while BUSY = 1
  (70_reset_and_hazards.md R350). Safe. -/
  | hazardBusy
deriving DecidableEq, Repr

/-- Refusals. The spec has no refused forms (00_scope.md R11), and no arm of `exec` answers with one. -/
inductive Refusal where
  /-- Raised by an arm of `exec` whose instruction has no meaning yet (none is left). Safe. -/
  | notModelled (mnemonic : String)
deriving DecidableEq, Repr

/-- Error codes (60_exceptions.md R301), by name; the reserved codes are never reported and have no name. -/
inductive ErrCode where
  | ok
  | illegal
  | unknownCipher
  | range
  | len
  | slotState
  | mkState
  | keyLen
  | direction
  | auth
  | nonceExhausted
  | kdf
  | invariant
  | fatal
deriving DecidableEq, Repr

/-- STATUS (10_state.md R37). -/
structure Status where
  busy : Bool
  err : Bool
  fatal : Bool
  errcode : ErrCode
deriving DecidableEq, Repr

/-- MK[m].ALG (10_state.md R40): 0 is MK_PBKDF2, 1 is MK_LEGACY. -/
inductive KeyAlg where
  | pbkdf2
  | legacy
deriving DecidableEq, Repr

/-- One master-key register (10_state.md R40). -/
structure MasterKey where
  valid : Bool
  alg : KeyAlg
  len : BitVec 6
  key : Vector Byte 32
deriving DecidableEq, Repr

/-- SLOT[s].ST (10_state.md R45); codes 5..7 never occur. -/
inductive SlotState where
  | free
  | keyed
  | active
  | failed
  | exhausted
deriving DecidableEq, Repr

/-- SLOT[s].DIR (10_state.md R46); code 3 never occurs. -/
inductive Direction where
  | none
  | enc
  | dec
deriving DecidableEq, Repr

/-- SLOT[s].BACKEND (10_state.md R44, 42_selector.md R230): 0 is the GCM adapter, 1 the ChaCha adapter. -/
inductive Backend where
  | gcm
  | chacha
deriving DecidableEq, Repr

/-- One crypter slot (10_state.md R44). -/
structure Slot where
  st : SlotState
  cipher : Cipher
  backend : Backend
  nmode : NonceMode
  dir : Direction
  keyLen : BitVec 6
  key : Vector Byte 32
  nonce : Vector Byte 24
  nlen : BitVec 5
deriving DecidableEq, Repr

/-- Buffer RAM (20_memory.md R86): the bytes that hold a value, by buffer offset, offsets strictly rising; a byte
that is not listed holds no value. -/
abbrev Memory := List Host.Cell

/-- One host access on the MMIO window, by width (30_encoding.md R121). -/
inductive Access where
  | r8 (off : Word)
  | r16 (off : Word)
  | r32 (off : Word)
  | w8 (off : Word) (v : BitVec 8)
  | w16 (off : Word) (v : BitVec 16)
  | w32 (off : Word) (v : BitVec 32)
deriving DecidableEq, Repr

/-- One event of a run (70_reset_and_hazards.md R366): a host access, the BLOCK's turn to complete its pending
command, or RESET. -/
inductive Event where
  | host (a : Access)
  | turn
  | reset
deriving DecidableEq, Repr

/-- The state of the block and, in the last two fields, of its environment (log 3, log 10). Both banks have 16
places, of which the first `build.numMk` and `build.numSlots` exist (log 8). -/
structure State where
  /-- The parameters of 00_scope.md R6; no step changes them. -/
  build : Build
  /-- CMD (R36). -/
  cmd : Word
  /-- STATUS (R37). -/
  status : Status
  /-- RESULT (R38). -/
  result : Word
  /-- SRC_OFF (R35). -/
  srcOff : Word
  /-- SRC_LEN (R35). -/
  srcLen : Word
  /-- DST_OFF (R35). -/
  dstOff : Word
  /-- AUX_OFF (R35). -/
  auxOff : Word
  /-- AUX_LEN (R35). -/
  auxLen : Word
  /-- The master-key bank (R40). -/
  mks : Vector MasterKey 16
  /-- The crypter slot bank (R44). -/
  slots : Vector Slot 16
  /-- Buffer RAM (20_memory.md R86). -/
  buf : Memory
  /-- The model fault mark (70_reset_and_hazards.md R340, 60_exceptions.md R308). -/
  faultMark : Option Fault
  /-- The environment's events still to come, the next one first (log 3). -/
  script : List Event
  /-- What the last host access read back, if it was a read (log 10). -/
  answer : Option Word
deriving DecidableEq, Repr

/-- STATUS after reset (70_reset_and_hazards.md R340). -/
def Status.cleared : Status := ⟨false, false, false, .ok⟩

/-- A master-key register after reset or MK_CLEAR (10_state.md R40). -/
def MasterKey.cleared : MasterKey := ⟨false, .pbkdf2, 0, Vector.replicate 32 0⟩

/-- A slot after reset or RELEASE: FREE with every field 0 (10_state.md R44). -/
def Slot.cleared : Slot :=
  ⟨.free, .aes128Gcm, .gcm, .sequential, .none, 0, Vector.replicate 32 0, Vector.replicate 24 0, 0⟩

/-- The state at power-on of a build (70_reset_and_hazards.md R340), with no event to come. -/
def State.powerOn (b : Build) : State where
  build := b
  cmd := 0
  status := Status.cleared
  result := 0
  srcOff := 0
  srcLen := 0
  dstOff := 0
  auxOff := 0
  auxLen := 0
  mks := Vector.replicate 16 MasterKey.cleared
  slots := Vector.replicate 16 Slot.cleared
  buf := []
  faultMark := none
  script := []
  answer := none

/-- The machine right after reset, in the build of the spec's examples (log 1, log 2). -/
def State.reset : State := State.powerOn Build.specExample

end Sys2Proof.Machine
end

