-- ==== Sys2Proof/Machine/Registry.lean ====
section
/-! DEFINITION. The cipher registry (10_state.md R31-R33), the family branch (42_selector.md R230) and the backend
table's lookup (42_selector.md R231). -/

namespace Sys2Proof.Machine

/-- The cipher code c (10_state.md R31). -/
def cipherCode : Cipher → Fin 5
  | .aes128Gcm => 0
  | .aes192Gcm => 1
  | .aes256Gcm => 2
  | .chacha20Poly1305 => 3
  | .xchacha20Poly1305 => 4

/-- The five ciphers in the order of their codes, which is `list_supported_names`' order (40_registry.md R153). -/
def allCiphers : List Cipher :=
  [.aes128Gcm, .aes192Gcm, .aes256Gcm, .chacha20Poly1305, .xchacha20Poly1305]

/-- The cipher of a code; codes 5, 6 and 7 are unassigned (10_state.md R31, 30_encoding.md R116). -/
def cipherOfCode (code : Nat) : Option Cipher := allCiphers[code]?

/-- key_size(c) in bytes (10_state.md R31). -/
def keySize : Cipher → Nat
  | .aes128Gcm => 16
  | .aes192Gcm => 24
  | .aes256Gcm => 32
  | .chacha20Poly1305 => 32
  | .xchacha20Poly1305 => 32

/-- salt_size(c) in bytes (10_state.md R31). -/
def saltSize : Cipher → Nat
  | .aes128Gcm => 16
  | .aes192Gcm => 24
  | .aes256Gcm => 32
  | .chacha20Poly1305 => 32
  | .xchacha20Poly1305 => 32

/-- nonce_size(c) in bytes (10_state.md R31). -/
def nonceSize : Cipher → Nat
  | .aes128Gcm => 12
  | .aes192Gcm => 12
  | .aes256Gcm => 12
  | .chacha20Poly1305 => 12
  | .xchacha20Poly1305 => 24

/-- tag_size(c) in bytes (10_state.md R31). -/
def tagSize : Cipher → Nat
  | .aes128Gcm => 16
  | .aes192Gcm => 16
  | .aes256Gcm => 16
  | .chacha20Poly1305 => 16
  | .xchacha20Poly1305 => 16

/-- name(c): the canonical configuration name as ASCII bytes (10_state.md R31, R33). -/
def cipherName : Cipher → List Byte
  | .aes128Gcm => ascii "aes-128-gcm"
  | .aes192Gcm => ascii "aes-192-gcm"
  | .aes256Gcm => ascii "aes-256-gcm"
  | .chacha20Poly1305 => ascii "chacha20-ietf-poly1305"
  | .xchacha20Poly1305 => ascii "xchacha20-ietf-poly1305"

/-- family(c): the backend that serves a cipher (10_state.md R33, 42_selector.md R230). -/
def cipherFamily : Cipher → Backend
  | .aes128Gcm => .gcm
  | .aes192Gcm => .gcm
  | .aes256Gcm => .gcm
  | .chacha20Poly1305 => .chacha
  | .xchacha20Poly1305 => .chacha

/-- The packed spec of SPEC_OF, least significant byte first (40_registry.md R152, 20_memory.md R83). -/
def packedSpec (c : Cipher) : Word :=
  BitVec.ofNat 32 (keySize c ||| saltSize c <<< 8 ||| nonceSize c <<< 16 ||| tagSize c <<< 24)

/-- The cipher with this canonical name, compared exactly (40_registry.md R150). -/
def parseName (nm : List Byte) : Option Cipher := allCiphers.find? fun c => cipherName c = nm

/-- BK_KEY_LEN(c): the key length the wired backend accepts (42_selector.md R231). -/
def backendKeyLen (b : Build) (c : Cipher) : Nat := b.bkKeyLen[cipherCode c]

/-- BK_NONCE_LEN(c): the nonce length the wired backend accepts (42_selector.md R231). -/
def backendNonceLen (b : Build) (c : Cipher) : Nat := b.bkNonceLen[cipherCode c]

/-- The backend's lengths equal the registry's for this cipher (42_selector.md R232). -/
abbrev BackendAgrees (b : Build) (c : Cipher) : Prop :=
  backendKeyLen b c = keySize c ∧ backendNonceLen b c = nonceSize c

end Sys2Proof.Machine
end

