-- ==== Sys2Proof/Machine/Flags.lean ====
section
/-! DEFINITION. The condition flags and the read-only register views: STATUS (10_state.md R37), ID and BUFSZ (R39),
MK_STATUS (R41), SLOT_STATUS (R48), SLOT_NONCE (R49), and the code values of every field. -/

namespace Sys2Proof.Machine

/-- The value of STATUS.ERRCODE (60_exceptions.md R301). -/
def errCodeValue : ErrCode → BitVec 8
  | .ok => 0x00
  | .illegal => 0x01
  | .unknownCipher => 0x02
  | .range => 0x03
  | .len => 0x04
  | .slotState => 0x05
  | .mkState => 0x06
  | .keyLen => 0x07
  | .direction => 0x08
  | .auth => 0x09
  | .nonceExhausted => 0x0A
  | .kdf => 0x0B
  | .invariant => 0x0D
  | .fatal => 0x0E

/-- The value of ST (10_state.md R45). -/
def slotStateCode : SlotState → BitVec 3
  | .free => 0
  | .keyed => 1
  | .active => 2
  | .failed => 3
  | .exhausted => 4

/-- The value of DIR (10_state.md R46). -/
def directionCode : Direction → BitVec 2
  | .none => 0
  | .enc => 1
  | .dec => 2

/-- The value of NMODE (10_state.md R47). -/
def nonceModeCode : NonceMode → BitVec 1
  | .sequential => 0
  | .zero => 1

/-- The value of ALG (10_state.md R40). -/
def keyAlgCode : KeyAlg → BitVec 1
  | .pbkdf2 => 0
  | .legacy => 1

/-- STATUS as the host reads it (10_state.md R37). -/
def statusWord (st : Status) : Word :=
  0#16 ++ errCodeValue st.errcode ++ 0#5 ++ BitVec.ofBool st.fatal ++ BitVec.ofBool st.err ++ BitVec.ofBool st.busy

/-- ID (10_state.md R39): IF_REV = 1, NUM_MK, NUM_SLOTS, NUM_CIPHERS = 5. -/
def idWord (b : Build) : Word :=
  0x01#8 ++ BitVec.ofNat 8 b.numMk ++ BitVec.ofNat 8 b.numSlots ++ 5#8

/-- BUFSZ (10_state.md R39). -/
def bufszWord (b : Build) : Word := BitVec.ofNat 32 b.bufSize

/-- MK_STATUS of a master-key register (10_state.md R41). -/
def mkStatusWord (k : MasterKey) : Word :=
  0#18 ++ k.len ++ 0#6 ++ keyAlgCode k.alg ++ BitVec.ofBool k.valid

/-- SLOT_STATUS of a slot (10_state.md R48). -/
def slotStatusWord (sl : Slot) : Word :=
  0#11 ++ sl.nlen ++ sl.keyLen ++ directionCode sl.dir ++ nonceModeCode sl.nmode
    ++ BitVec.ofNat 3 (cipherCode sl.cipher) ++ 0#1 ++ slotStateCode sl.st

/-- SLOT_NONCE[s][w] (10_state.md R49): word w of NONCE[0:NLEN] followed by zero bytes. -/
def slotNonceWord (sl : Slot) (w : Nat) : Word :=
  BitVec.ofNat 32 (le (((sl.nonce.toList.take sl.nlen.toNat).drop (4 * w)).take 4))

/-- STATUS's condition flags after a command that ends with code e (60_exceptions.md R306, R307): BUSY <- 0,
ERR <- (e is no OK), ERRCODE <- e; FATAL is kept. -/
def Status.ended (e : ErrCode) (st : Status) : Status :=
  { st with busy := false, err := decide (e ≠ .ok), errcode := e }

end Sys2Proof.Machine
end

