-- ==== Sys2Proof/Machine/Ops.lean ====
section
/-! DEFINITION. The named operations over buffer RAM, the banks and the registers, and the ways a command ends:
`raise` (60_exceptions.md R306), which is all there is of taking an exception on this block (R311, R312), and
`done` (R307). -/

namespace Sys2Proof.Machine

/-- What a command or an event gives. -/
abbrev Result := Host.Outcome State Fault Refusal

/-! ## Buffer RAM -/

/-- The value a buffer byte holds, if it holds one (20_memory.md R86). -/
def Memory.get (a : Nat) : Memory → Option Byte
  | [] => none
  | (x, b) :: m => if a = x then some b else Memory.get a m

/-- Store a byte, keeping the offsets strictly rising (20_memory.md R86). -/
def Memory.put (a : Nat) (b : Byte) : Memory → Memory
  | [] => [(a, b)]
  | (x, c) :: m =>
    if a < x then (a, b) :: (x, c) :: m
    else if a = x then (a, b) :: m
    else (x, c) :: Memory.put a b m

/-- The byte string of n bytes from offset a, if each holds a value: MemRead (20_memory.md R88). -/
def Memory.read (m : Memory) (a : Nat) : Nat → Option (List Byte)
  | 0 => some []
  | n + 1 =>
    match Memory.get a m with
    | none => none
    | some b => (Memory.read m (a + 1) n).map (b :: ·)

/-- Store a byte string from offset a: MemWrite (20_memory.md R88). -/
def Memory.write (m : Memory) (a : Nat) : List Byte → Memory
  | [] => m
  | b :: bs => Memory.write (Memory.put a b m) (a + 1) bs

/-- Make n bytes from offset a hold no value: MemKill (20_memory.md R89). -/
def Memory.kill (m : Memory) (a n : Nat) : Memory := m.filter fun cell => cell.1 < a ∨ a + n ≤ cell.1

/-- The canonical form: offsets strictly rising. No entry can equal what an unlisted byte reads as, which is no
value. -/
def Memory.wf : Memory → Bool
  | [] => true
  | [_] => true
  | (x, _) :: (y, c) :: m => decide (x < y) && Memory.wf ((y, c) :: m)

/-! ## Banks and registers -/

/-- Master-key register m (10_state.md R40). -/
def State.master (s : State) (m : Nat) : MasterKey := s.mks[m]?.getD MasterKey.cleared

/-- Write master-key register m (10_state.md R40). -/
def State.setMaster (s : State) (m : Nat) (k : MasterKey) : State := { s with mks := s.mks.setIfInBounds m k }

/-- Crypter slot i (10_state.md R44). -/
def State.slot (s : State) (i : Nat) : Slot := s.slots[i]?.getD Slot.cleared

/-- Write crypter slot i (10_state.md R44). -/
def State.setSlot (s : State) (i : Nat) (sl : Slot) : State := { s with slots := s.slots.setIfInBounds i sl }

/-- Replace buffer RAM. -/
def State.setBuf (s : State) (m : Memory) : State := { s with buf := m }

/-- Write RESULT (10_state.md R38). -/
def State.setResult (s : State) (w : Word) : State := { s with result := w }

/-- STATUS.FATAL <- 1 (60_exceptions.md R303). -/
def State.setFatal (s : State) : State := { s with status := { s.status with fatal := true } }

/-! ## How a command ends -/

/-- The completion step's writes to STATUS (60_exceptions.md R306, R307). -/
def State.ended (s : State) (e : ErrCode) : State := { s with status := s.status.ended e }

/-- `raise E` (60_exceptions.md R306): ERR <- 1, ERRCODE <- E, BUSY <- 0, all else as it stands in `s`, which
holds the effects that survive the raise. -/
def State.raise (s : State) (e : ErrCode) : Result := .next (s.ended e)

/-- The command completes with OK (60_exceptions.md R307), its own effects being in `s`. -/
def State.done (s : State) : Result := .next (s.ended .ok)

/-- `raise E_INVARIANT`, which sets the sticky FATAL (60_exceptions.md R303, 90_conflicts.md C7). -/
def State.raiseInvariant (s : State) : Result := s.setFatal.raise .invariant

/-! ## The common checks (60_exceptions.md R305, steps 1 to 4) -/

/-- Step 1: a FATAL block raises E_FATAL (R303). -/
def State.unlessFatal (s : State) (k : Result) : Result := if s.status.fatal then s.raise .fatal else k

/-- Step 3: SLOT ≥ NUM_SLOTS raises E_RANGE (30_encoding.md R116). -/
def State.withSlot (s : State) (slot : Nat) (k : Result) : Result :=
  if slot < s.build.numSlots then k else s.raise .range

/-- Step 3: MK ≥ NUM_MK raises E_RANGE (30_encoding.md R116). -/
def State.withMk (s : State) (mk : Nat) (k : Result) : Result :=
  if mk < s.build.numMk then k else s.raise .range

/-- Step 4: CIPHER in 5..7 raises E_UNKNOWN_CIPHER (30_encoding.md R116). -/
def State.withCipher (s : State) (code : Nat) (k : Cipher → Result) : Result :=
  match cipherOfCode code with
  | none => s.raise .unknownCipher
  | some c => k c

/-- Steps 1 and 2 for a word that is no command: E_FATAL, else E_ILLEGAL (30_encoding.md R118, R119). -/
def State.rejectWord (s : State) : Result := s.unlessFatal (s.raise .illegal)

/-! ## Reset and the model fault mark -/

/-- RESET (70_reset_and_hazards.md R340, R341): every piece of the block's state takes its reset value, a pending
command is discarded, the constants and the model fault mark stay. The environment's two fields stay too (log 3,
log 10). -/
def State.applyReset (s : State) : State :=
  { State.powerOn s.build with faultMark := s.faultMark, script := s.script, answer := s.answer }

/-- Record a model fault (60_exceptions.md R308): nothing else changes. -/
def State.markFault (s : State) (f : Fault) : State := { s with faultMark := some f }

end Sys2Proof.Machine
end

