-- ==== Sys2Proof/Machine/Bus.lean ====
section
/-! DEFINITION. The MMIO window: the register map (10_state.md R34), the access rules (20_memory.md R82-R86,
70_reset_and_hazards.md R350) and what a host access does (R92). -/

namespace Sys2Proof.Machine

/-- The registers of the map (10_state.md R34). -/
inductive Reg where
  | id
  | cmd
  | status
  | result
  | srcOff
  | srcLen
  | dstOff
  | auxOff
  | auxLen
  | bufsz
  | slotStatus (slot : Nat)
  | mkStatus (mk : Nat)
  | slotNonce (slot word : Nat)
deriving DecidableEq, Repr

/-- The register at a 4-byte-aligned offset below 0x1000, if one is there (10_state.md R34, 20_memory.md R85). -/
def regAt (b : Build) (off : Nat) : Option Reg :=
  if off = 0x000 then some .id
  else if off = 0x004 then some .cmd
  else if off = 0x008 then some .status
  else if off = 0x00C then some .result
  else if off = 0x010 then some .srcOff
  else if off = 0x014 then some .srcLen
  else if off = 0x018 then some .dstOff
  else if off = 0x01C then some .auxOff
  else if off = 0x020 then some .auxLen
  else if off = 0x024 then some .bufsz
  else if off < 0x040 then none
  else if off < 0x080 then
    if (off - 0x040) / 4 < b.numSlots then some (.slotStatus ((off - 0x040) / 4)) else none
  else if off < 0x0C0 then
    if (off - 0x080) / 4 < b.numMk then some (.mkStatus ((off - 0x080) / 4)) else none
  else if off < 0x100 then none
  else if off < 0x300 then
    if (off - 0x100) / 0x20 < b.numSlots then
      some (.slotNonce ((off - 0x100) / 0x20) (off % 0x20 / 4))
    else none
  else none

/-- What a register reads (10_state.md R35-R41, R48, R49). -/
def readReg (s : State) : Reg → Word
  | .id => idWord s.build
  | .cmd => s.cmd
  | .status => statusWord s.status
  | .result => s.result
  | .srcOff => s.srcOff
  | .srcLen => s.srcLen
  | .dstOff => s.dstOff
  | .auxOff => s.auxOff
  | .auxLen => s.auxLen
  | .bufsz => bufszWord s.build
  | .slotStatus slot => slotStatusWord (s.slot slot)
  | .mkStatus mk => mkStatusWord (s.master mk)
  | .slotNonce slot word => slotNonceWord (s.slot slot) word

/-- A write to CMD while BUSY = 0: latch the word and issue it (10_state.md R36, 60_exceptions.md R300 (a)). -/
def State.issue (s : State) (w : Word) : State :=
  { s with cmd := w, status := { s.status with busy := true } }

/-- What a write to a register does; a write to a read-only register has no effect (20_memory.md R85). -/
def writeReg (s : State) (v : Word) : Reg → State
  | .id => s
  | .cmd => s.issue v
  | .status => s
  | .result => s
  | .srcOff => { s with srcOff := v }
  | .srcLen => { s with srcLen := v }
  | .dstOff => { s with dstOff := v }
  | .auxOff => { s with auxOff := v }
  | .auxLen => { s with auxLen := v }
  | .bufsz => s
  | .slotStatus _ => s
  | .mkStatus _ => s
  | .slotNonce _ _ => s

/-- The offset of an access. -/
def Access.offset : Access → Nat
  | .r8 off => off.toNat
  | .r16 off => off.toNat
  | .r32 off => off.toNat
  | .w8 off _ => off.toNat
  | .w16 off _ => off.toNat
  | .w32 off _ => off.toNat

/-- The width of an access in bytes. -/
def Access.width : Access → Nat
  | .r8 _ => 1
  | .r16 _ => 2
  | .r32 _ => 4
  | .w8 _ _ => 1
  | .w16 _ _ => 2
  | .w32 _ _ => 4

/-- The value an access writes; none for a read. -/
def Access.data : Access → Option Nat
  | .r8 _ => none
  | .r16 _ => none
  | .r32 _ => none
  | .w8 _ v => some v.toNat
  | .w16 _ v => some v.toNat
  | .w32 _ v => some v.toNat

/-- The accesses a host may make while BUSY = 1: 32-bit reads of STATUS, ID and BUFSZ
(70_reset_and_hazards.md R350; log 5). -/
def Access.allowedWhileBusy : Access → Bool
  | .r32 off => decide (off.toNat = 0x008 ∨ off.toNat = 0x000 ∨ off.toNat = 0x024)
  | .r8 _ => false
  | .r16 _ => false
  | .w8 _ _ => false
  | .w16 _ _ => false
  | .w32 _ _ => false

/-- The window offset of buffer byte 0 (20_memory.md R80). -/
def bufferBase : Nat := 0x1000

/-- A read returns its value and changes nothing else (20_memory.md R92). -/
def State.answered (s : State) (v : Word) : Result := .next { s with answer := some v }

/-- A write returns no value. -/
def State.written (s : State) : Result := .next { s with answer := none }

/-- An access to a register that is there (20_memory.md R84, R85). -/
def accessReg (a : Access) (r : Reg) (s : State) : Result :=
  match a.data with
  | none => s.answered (readReg s r)
  | some v => (writeReg s (BitVec.ofNat 32 v) r).written

/-- An access to buffer bytes from buffer offset `pos` on that are there: little-endian (20_memory.md R82); a read
of a byte that holds no value is a fault (R86). -/
def accessBuffer (a : Access) (pos : Nat) (s : State) : Result :=
  match a.data with
  | none =>
    match s.buf.read pos a.width with
    | none => .fault .uninitRead
    | some bytes => s.answered (BitVec.ofNat 32 (le bytes))
  | some v => (s.setBuf (s.buf.write pos (leBytes v a.width))).written

/-- One host access (20_memory.md R84-R86, 70_reset_and_hazards.md R350). When several faults apply the order is
HAZARD_BUSY; then in the register region BUS_WIDTH before BUS_UNMAPPED; from 0x1000 on BUS_UNMAPPED for a start
outside the buffer, BUS_ALIGN, then BUS_UNMAPPED for the access's end (log 5, 6, 7). -/
def hostAccess (a : Access) (s : State) : Result :=
  if s.status.busy ∧ ¬ a.allowedWhileBusy then .fault .hazardBusy
  else if a.offset < bufferBase then
    if a.width ≠ 4 ∨ a.offset % 4 ≠ 0 then .fault .busWidth
    else
      match regAt s.build a.offset with
      | none => .fault .busUnmapped
      | some r => accessReg a r s
  else if s.build.bufSize ≤ a.offset - bufferBase then .fault .busUnmapped
  else if a.offset % a.width ≠ 0 then .fault .busAlign
  else if s.build.bufSize < a.offset - bufferBase + a.width then .fault .busUnmapped
  else accessBuffer a (a.offset - bufferBase) s

end Sys2Proof.Machine
end

