-- ==== Sys2Proof/Machine/Operands.lean ====
section
/-! DEFINITION. The operand forms (30_encoding.md R112, R117): buffer operands named by the operand registers, with
their range checks (20_memory.md R87) and MemRead (R88). -/

namespace Sys2Proof.Machine

/-- The operand (off, len) is in range (20_memory.md R87), on natural numbers with no wrap. -/
abbrev State.InRange (s : State) (off len : Nat) : Prop := off + len ≤ s.build.bufSize

/-- A buffer operand that is out of range raises E_RANGE (20_memory.md R87). -/
def State.checkRange (s : State) (off len : Nat) (k : Result) : Result :=
  if s.InRange off len then k else s.raise .range

/-- The input (SRC_OFF, SRC_LEN) is in range. -/
def State.checkSrc (s : State) (k : Result) : Result := s.checkRange s.srcOff.toNat s.srcLen.toNat k

/-- The second input (AUX_OFF, AUX_LEN) is in range. -/
def State.checkAux (s : State) (k : Result) : Result := s.checkRange s.auxOff.toNat s.auxLen.toNat k

/-- The output of `len` bytes at DST_OFF is in range. -/
def State.checkDst (s : State) (len : Nat) (k : Result) : Result := s.checkRange s.dstOff.toNat len k

/-- The input's bytes, MemRead(SRC_OFF, SRC_LEN) (20_memory.md R88). -/
def State.src (s : State) : Option (List Byte) := s.buf.read s.srcOff.toNat s.srcLen.toNat

/-- The second input's bytes, MemRead(AUX_OFF, AUX_LEN). -/
def State.aux (s : State) : Option (List Byte) := s.buf.read s.auxOff.toNat s.auxLen.toNat

/-- Go on with an input's bytes; an input byte that holds no value is `fault UNINIT_INPUT` (20_memory.md R88). -/
def withInput (input : Option (List Byte)) (k : List Byte → Result) : Result :=
  match input with
  | none => .fault .uninitInput
  | some p => k p

/-- MemWrite(DST_OFF, |v|, v) (20_memory.md R88). -/
def State.writeDst (s : State) (v : List Byte) : State := s.setBuf (s.buf.write s.dstOff.toNat v)

/-- MemKill(DST_OFF, n) (20_memory.md R89). -/
def State.killDst (s : State) (n : Nat) : State := s.setBuf (s.buf.kill s.dstOff.toNat n)

/-- RESULT <- n, as a 32-bit value. -/
def State.setResultNat (s : State) (n : Nat) : State := s.setResult (BitVec.ofNat 32 n)

end Sys2Proof.Machine
end

