-- ==== Sys2Proof/Machine/AesGcm.lean ====
section
/-! DEFINITION. The standard AES-GCM (FIPS 197, NIST SP 800-38D) with 12-byte nonces and 16-byte tags, from general
knowledge (00_scope.md R6, 93_implementation_defined.md I2): PRESUMED, log 15. It is the value of AEAD_SEAL and
AEAD_OPEN for cipher codes 0, 1, 2 in the standard provider only. -/

namespace Sys2Proof.Machine

/-! ## AES -/

/-- The S-box, one row of sixteen bytes a number, the byte of column 0 most significant. -/
def aesSboxRows : List Nat :=
  [0x637c777bf26b6fc53001672bfed7ab76, 0xca82c97dfa5947f0add4a2af9ca472c0,
   0xb7fd9326363ff7cc34a5e5f171d83115, 0x04c723c31896059a071280e2eb27b275,
   0x09832c1a1b6e5aa0523bd6b329e32f84, 0x53d100ed20fcb15b6acbbe394a4c58cf,
   0xd0efaafb434d338545f9027f503c9fa8, 0x51a3408f929d38f5bcb6da2110fff3d2] ++
  [0xcd0c13ec5f974417c4a77e3d645d1973, 0x60814fdc222a908846eeb814de5e0bdb,
   0xe0323a0a4906245cc2d3ac629195e479, 0xe7c8376d8dd54ea96c56f4ea657aae08,
   0xba78252e1ca6b4c6e8dd741f4bbd8b8a, 0x703eb5664803f60e613557b986c11d9e,
   0xe1f8981169d98e949b1e87e9ce5528df, 0x8ca1890dbfe6426841992d0fb054bb16]

/-- The S-box value of a byte. -/
def aesSbox (x : Byte) : Byte :=
  BitVec.ofNat 8 (aesSboxRows.getD (x.toNat / 16) 0 >>> (8 * (15 - x.toNat % 16)))

/-- Multiplication by x in GF(2^8). -/
def aesXtime (x : Byte) : Byte := (x <<< 1) ^^^ (if x.msb then 0x1b#8 else 0#8)

/-- One column through MixColumns. -/
def aesMixColumn (col : List Byte) : List Byte :=
  let a := col.getD 0 0
  let b := col.getD 1 0
  let c := col.getD 2 0
  let d := col.getD 3 0
  let t := a ^^^ b ^^^ c ^^^ d
  [a ^^^ t ^^^ aesXtime (a ^^^ b), b ^^^ t ^^^ aesXtime (b ^^^ c),
   c ^^^ t ^^^ aesXtime (c ^^^ d), d ^^^ t ^^^ aesXtime (d ^^^ a)]

/-- ShiftRows on the state's 16 bytes, column by column: row r moves left by r columns. -/
def aesShiftRows (s : List Byte) : List Byte :=
  (List.range 16).map fun i => s.getD ((i + 4 * (i % 4)) % 16) 0

/-- The key schedule's words, newest first: `n` more words for a key of `nk` words. `i` is the next word's
index and `rcon` the next round constant. -/
def aesExpand (nk : Nat) : Nat → Nat → Byte → List (List Byte) → List (List Byte)
  | 0, _, _, ws => ws
  | n + 1, i, rcon, ws =>
    let prev := ws.getD 0 []
    let old := ws.getD (nk - 1) []
    if i % nk = 0 then
      let t := (prev.tail ++ prev.take 1).map aesSbox
      aesExpand nk n (i + 1) (aesXtime rcon) (xorBytes old (xorBytes t [rcon]) :: ws)
    else if nk = 8 ∧ i % nk = 4 then
      aesExpand nk n (i + 1) rcon (xorBytes old (prev.map aesSbox) :: ws)
    else
      aesExpand nk n (i + 1) rcon (xorBytes old prev :: ws)

/-- The round keys of a key of 16, 24 or 32 bytes, in order. -/
def aesRoundKeys (key : List Byte) : List (List Byte) :=
  let nk := key.length / 4
  let words := (aesExpand nk (4 * (nk + 7) - nk) nk 1 (groups 4 nk key).reverse).reverse
  groups 16 (nk + 7) words.flatten

/-- The rounds after the first key addition; the last one has no MixColumns. -/
def aesRounds : List (List Byte) → List Byte → List Byte
  | [], s => s
  | [k], s => xorBytes (aesShiftRows (s.map aesSbox)) k
  | k :: ks, s => aesRounds ks (xorBytes ((groups 4 4 (aesShiftRows (s.map aesSbox))).flatMap aesMixColumn) k)

/-- AES encryption of one 16-byte block under given round keys. -/
def aesBlock (roundKeys : List (List Byte)) (block : List Byte) : List Byte :=
  aesRounds roundKeys.tail (xorBytes block (roundKeys.getD 0 []))

/-! ## GCM -/

/-- One step of the product in GF(2^128): `z` gathers, `v` is the shifted factor, bit `i` from the left of `x`
selects. -/
def gcmMulStep (x : BitVec 128) (zv : BitVec 128 × BitVec 128) (i : Nat) : BitVec 128 × BitVec 128 :=
  (if x.getMsbD i then zv.1 ^^^ zv.2 else zv.1,
   if zv.2.getLsbD 0 then (zv.2 >>> 1) ^^^ 0xe1000000000000000000000000000000#128 else zv.2 >>> 1)

/-- The product in GF(2^128). -/
def gcmMul (x y : BitVec 128) : BitVec 128 := ((List.range 128).foldl (gcmMulStep x) (0#128, y)).1

/-- Zero bytes up to whole 16-byte blocks. -/
def padBlock (s : List Byte) : List Byte := s ++ List.replicate ((16 - s.length % 16) % 16) 0#8

/-- GHASH of whole blocks under subkey `h`. -/
def gcmHash (h : BitVec 128) (s : List Byte) : BitVec 128 :=
  (blocks 16 s).foldl (fun y b => gcmMul (y ^^^ BitVec.ofNat 128 (be b)) h) 0#128

/-- The counter block of a 12-byte nonce. -/
def gcmCounter (nonce : List Byte) (i : Nat) : List Byte := nonce ++ beBytes i 4

/-- The first `n` key-stream bytes, counters from 2. -/
def gcmStream (roundKeys : List (List Byte)) (nonce : List Byte) (n : Nat) : List Byte :=
  (List.range ((n + 15) / 16)).flatMap fun i => aesBlock roundKeys (gcmCounter nonce (i + 2))

/-- The tag of a ciphertext body. -/
def gcmTag (roundKeys : List (List Byte)) (nonce ad body : List Byte) : List Byte :=
  let h : BitVec 128 := BitVec.ofNat 128 (be (aesBlock roundKeys (List.replicate 16 0#8)))
  let s := gcmHash h (padBlock ad ++ padBlock body ++ beBytes (8 * ad.length) 8 ++ beBytes (8 * body.length) 8)
  xorBytes (beBytes s.toNat 16) (aesBlock roundKeys (gcmCounter nonce 1))

end Sys2Proof.Machine
end

