-- ==== Sys2Proof/Machine/ChaChaPoly.lean ====
section
/-! DEFINITION. The standard ChaCha20-Poly1305 (RFC 8439) and XChaCha20-Poly1305 (HChaCha20 subkey, 43_crypter.md
R262), from general knowledge (00_scope.md R6, 93_implementation_defined.md I2): PRESUMED, log 15. They are the
values of AEAD_SEAL and AEAD_OPEN for cipher codes 3 and 4 in the standard provider only. -/

namespace Sys2Proof.Machine

/-- One row of the 4 by 4 state of words. -/
structure ChaChaRow where
  w0 : Word
  w1 : Word
  w2 : Word
  w3 : Word

/-- The four rows. -/
structure ChaChaState where
  a : ChaChaRow
  b : ChaChaRow
  c : ChaChaRow
  d : ChaChaRow

/-- Word by word. -/
def chachaZip (f : Word → Word → Word) (x y : ChaChaRow) : ChaChaRow :=
  ⟨f x.w0 y.w0, f x.w1 y.w1, f x.w2 y.w2, f x.w3 y.w3⟩

/-- A row moved left by one column. -/
def chachaLeft (x : ChaChaRow) : ChaChaRow := ⟨x.w1, x.w2, x.w3, x.w0⟩

/-- Quarter rounds on all four columns. -/
def chachaColumns (s : ChaChaState) : ChaChaState :=
  let a := chachaZip (· + ·) s.a s.b
  let d := chachaZip (fun x y => (x ^^^ y).rotateLeft 16) s.d a
  let c := chachaZip (· + ·) s.c d
  let b := chachaZip (fun x y => (x ^^^ y).rotateLeft 12) s.b c
  let a := chachaZip (· + ·) a b
  let d := chachaZip (fun x y => (x ^^^ y).rotateLeft 8) d a
  let c := chachaZip (· + ·) c d
  let b := chachaZip (fun x y => (x ^^^ y).rotateLeft 7) b c
  ⟨a, b, c, d⟩

/-- A column round and a diagonal round. -/
def chachaDoubleRound (s : ChaChaState) : ChaChaState :=
  let s := chachaColumns s
  let t := chachaColumns
    ⟨s.a, chachaLeft s.b, chachaLeft (chachaLeft s.c), chachaLeft (chachaLeft (chachaLeft s.d))⟩
  ⟨t.a, chachaLeft (chachaLeft (chachaLeft t.b)), chachaLeft (chachaLeft t.c), chachaLeft t.d⟩

/-- `n` double rounds. -/
def chachaRounds : Nat → ChaChaState → ChaChaState
  | 0, s => s
  | n + 1, s => chachaRounds n (chachaDoubleRound s)

/-- A row from 16 bytes, each word little-endian. -/
def chachaRow (s : List Byte) : ChaChaRow :=
  ⟨BitVec.ofNat 32 (le (s.take 4)), BitVec.ofNat 32 (le ((s.drop 4).take 4)),
   BitVec.ofNat 32 (le ((s.drop 8).take 4)), BitVec.ofNat 32 (le ((s.drop 12).take 4))⟩

/-- The 16 bytes of a row. -/
def chachaRowBytes (x : ChaChaRow) : List Byte :=
  leBytes x.w0.toNat 4 ++ leBytes x.w1.toNat 4 ++ leBytes x.w2.toNat 4 ++ leBytes x.w3.toNat 4

/-- The initial state of a 32-byte key and 16 bytes of counter and nonce. -/
def chachaInit (key tail : List Byte) : ChaChaState :=
  ⟨⟨0x61707865, 0x3320646e, 0x79622d32, 0x6b206574⟩, chachaRow (key.take 16), chachaRow (key.drop 16), chachaRow tail⟩

/-- One 64-byte key-stream block. -/
def chachaBlock (key nonce : List Byte) (counter : Nat) : List Byte :=
  let s := chachaInit key (leBytes counter 4 ++ nonce)
  let t := chachaRounds 10 s
  let add := chachaZip (· + ·)
  chachaRowBytes (add s.a t.a) ++ chachaRowBytes (add s.b t.b) ++ chachaRowBytes (add s.c t.c)
    ++ chachaRowBytes (add s.d t.d)

/-- HChaCha20: the 32-byte subkey of a key and 16 nonce bytes. -/
def hchacha (key nonce16 : List Byte) : List Byte :=
  let t := chachaRounds 10 (chachaInit key nonce16)
  chachaRowBytes t.a ++ chachaRowBytes t.d

/-- The first `n` key-stream bytes, counters from 1. -/
def chachaStream (key nonce : List Byte) (n : Nat) : List Byte :=
  (List.range ((n + 63) / 64)).flatMap fun i => chachaBlock key nonce (i + 1)

/-- Poly1305 of a byte string under a 32-byte one-time key. -/
def poly1305 (otk s : List Byte) : List Byte :=
  let r := le (otk.take 16) &&& 0x0ffffffc0ffffffc0ffffffc0fffffff
  let acc := (blocks 16 s).foldl (fun acc b => (acc + le (b ++ [1#8])) * r % (2 ^ 130 - 5)) 0
  leBytes (acc + le (otk.drop 16)) 16

/-- The tag of a ciphertext body. -/
def chachaTag (key nonce ad body : List Byte) : List Byte :=
  poly1305 ((chachaBlock key nonce 0).take 32)
    (padBlock ad ++ padBlock body ++ leBytes ad.length 8 ++ leBytes body.length 8)

/-- The key that XChaCha20 gives ChaCha20. -/
def xchachaKey (key nonce : List Byte) : List Byte := hchacha key (nonce.take 16)

/-- The nonce that XChaCha20 gives ChaCha20: `0^4 || n[16:24]` (43_crypter.md R262). -/
def xchachaNonce (nonce : List Byte) : List Byte := List.replicate 4 0#8 ++ nonce.drop 16

end Sys2Proof.Machine
end

