-- ==== Sys2Proof/Machine/Md5.lean ====
section
/-! DEFINITION. The standard MD5 (RFC 1321), from general knowledge (00_scope.md R6, 93_implementation_defined.md I7):
PRESUMED, log 15. It is the value of the parameter MD5 in the standard provider only. -/

namespace Sys2Proof.Machine

/-- The message padded to whole 64-byte blocks: 0x80, zero bytes, and 8 bytes of its length in bits. -/
def md5Pad (m : List Byte) : List Byte :=
  m ++ 0x80#8 :: List.replicate ((119 - m.length % 64) % 64) 0#8 ++ leBytes (8 * m.length) 8

/-- The additive constants of the 64 operations. -/
def md5Constants : List Word :=
  [0xd76aa478, 0xe8c7b756, 0x242070db, 0xc1bdceee, 0xf57c0faf, 0x4787c62a, 0xa8304613, 0xfd469501,
   0x698098d8, 0x8b44f7af, 0xffff5bb1, 0x895cd7be, 0x6b901122, 0xfd987193, 0xa679438e, 0x49b40821] ++
  [0xf61e2562, 0xc040b340, 0x265e5a51, 0xe9b6c7aa, 0xd62f105d, 0x02441453, 0xd8a1e681, 0xe7d3fbc8,
   0x21e1cde6, 0xc33707d6, 0xf4d50d87, 0x455a14ed, 0xa9e3e905, 0xfcefa3f8, 0x676f02d9, 0x8d2a4c8a] ++
  [0xfffa3942, 0x8771f681, 0x6d9d6122, 0xfde5380c, 0xa4beea44, 0x4bdecfa9, 0xf6bb4b60, 0xbebfbc70,
   0x289b7ec6, 0xeaa127fa, 0xd4ef3085, 0x04881d05, 0xd9d4d039, 0xe6db99e5, 0x1fa27cf8, 0xc4ac5665] ++
  [0xf4292244, 0x432aff97, 0xab9423a7, 0xfc93a039, 0x655b59c3, 0x8f0ccc92, 0xffeff47d, 0x85845dd1,
   0x6fa87e4f, 0xfe2ce6e0, 0xa3014314, 0x4e0811a1, 0xf7537e82, 0xbd3af235, 0x2ad7d2bb, 0xeb86d391]

/-- The rotation of operation i, a function of its round and of i mod 4. -/
def md5Rotation (i : Nat) : Nat :=
  match i / 16, i % 4 with
  | 0, 0 => 7
  | 0, 1 => 12
  | 0, 2 => 17
  | 0, _ => 22
  | 1, 0 => 5
  | 1, 1 => 9
  | 1, 2 => 14
  | 1, _ => 20
  | 2, 0 => 4
  | 2, 1 => 11
  | 2, 2 => 16
  | 2, _ => 23
  | _, 0 => 6
  | _, 1 => 10
  | _, 2 => 15
  | _, _ => 21

/-- The four chaining words. -/
structure Md5State where
  a : Word
  b : Word
  c : Word
  d : Word

/-- Operation i on message words `x` with its constant. -/
def md5Operation (x : List Word) (s : Md5State) (i : Nat) : Md5State :=
  let f : Word × Nat :=
    match i / 16 with
    | 0 => ((s.b &&& s.c) ||| (~~~s.b &&& s.d), i)
    | 1 => ((s.d &&& s.b) ||| (~~~s.d &&& s.c), (5 * i + 1) % 16)
    | 2 => (s.b ^^^ s.c ^^^ s.d, (3 * i + 5) % 16)
    | _ => (s.c ^^^ (s.b ||| ~~~s.d), (7 * i) % 16)
  let sum := s.a + f.1 + md5Constants.getD i 0 + x.getD f.2 0
  ⟨s.d, s.b + sum.rotateLeft (md5Rotation i), s.b, s.c⟩

/-- One 64-byte block. -/
def md5Block (s : Md5State) (block : List Byte) : Md5State :=
  let x := (groups 4 16 block).map fun b => (BitVec.ofNat 32 (le b) : Word)
  let t := (List.range 64).foldl (md5Operation x) s
  ⟨s.a + t.a, s.b + t.b, s.c + t.c, s.d + t.d⟩

/-- MD5 of a byte string. -/
def md5 (m : List Byte) : Vector Byte 16 :=
  let t := (blocks 64 (md5Pad m)).foldl md5Block ⟨0x67452301, 0xefcdab89, 0x98badcfe, 0x10325476⟩
  fit 16 ([t.a, t.b, t.c, t.d].flatMap fun w => leBytes w.toNat 4)

end Sys2Proof.Machine
end

