-- ==== Sys2Proof/Machine/Sha.lean ====
section
/-! DEFINITION. The standard SHA-1 and SHA-256 (FIPS 180-4), from general knowledge (00_scope.md R6,
93_implementation_defined.md I7): PRESUMED, log 15. They are the values of the parameters SHA1 and SHA256 in the
standard provider only. -/

namespace Sys2Proof.Machine

/-- The message padded to whole 64-byte blocks: 0x80, zero bytes, and 8 bytes of its length in bits. -/
def shaPad (m : List Byte) : List Byte :=
  m ++ 0x80#8 :: List.replicate ((119 - m.length % 64) % 64) 0#8 ++ beBytes (8 * m.length) 8

/-- The sixteen big-endian words of a block. -/
def shaWords (block : List Byte) : List Word := (groups 4 16 block).map fun b => (BitVec.ofNat 32 (be b) : Word)

/-- The four bytes of a word, most significant first. -/
def wordBytes (w : Word) : List Byte := beBytes w.toNat 4

/-! ## SHA-1 -/

/-- The message schedule from a window of 16 words: `n` more words after them. -/
def sha1Schedule : Nat → List Word → List Word
  | 0, w => w
  | n + 1, w =>
    let next := (w.getD 13 0 ^^^ w.getD 8 0 ^^^ w.getD 2 0 ^^^ w.getD 0 0).rotateLeft 1
    w.getD 0 0 :: sha1Schedule n (w.tail ++ [next])

/-- The five chaining words. -/
structure Sha1State where
  a : Word
  b : Word
  c : Word
  d : Word
  e : Word

/-- Operation t with schedule word w. -/
def sha1Operation (s : Sha1State) (tw : Nat × Word) : Sha1State :=
  let fk : Word × Word :=
    match tw.1 / 20 with
    | 0 => ((s.b &&& s.c) ^^^ (~~~s.b &&& s.d), 0x5a827999)
    | 1 => (s.b ^^^ s.c ^^^ s.d, 0x6ed9eba1)
    | 2 => ((s.b &&& s.c) ^^^ (s.b &&& s.d) ^^^ (s.c &&& s.d), 0x8f1bbcdc)
    | _ => (s.b ^^^ s.c ^^^ s.d, 0xca62c1d6)
  ⟨s.a.rotateLeft 5 + fk.1 + s.e + fk.2 + tw.2, s.a, s.b.rotateLeft 30, s.c, s.d⟩

/-- One 64-byte block. -/
def sha1Block (s : Sha1State) (block : List Byte) : Sha1State :=
  let t := ((List.range 80).zip (sha1Schedule 64 (shaWords block))).foldl sha1Operation s
  ⟨s.a + t.a, s.b + t.b, s.c + t.c, s.d + t.d, s.e + t.e⟩

/-- SHA-1 of a byte string. -/
def sha1 (m : List Byte) : Vector Byte 20 :=
  let t := (blocks 64 (shaPad m)).foldl sha1Block
    ⟨0x67452301, 0xefcdab89, 0x98badcfe, 0x10325476, 0xc3d2e1f0⟩
  fit 20 ([t.a, t.b, t.c, t.d, t.e].flatMap wordBytes)

/-! ## SHA-256 -/

/-- The first 64 primes, from which SHA-256 takes its constants. -/
def firstPrimes : List Nat :=
  [2, 3, 5, 7, 11, 13, 17, 19, 23, 29, 31, 37, 41, 43, 47, 53] ++
  [59, 61, 67, 71, 73, 79, 83, 89, 97, 101, 103, 107, 109, 113, 127, 131] ++
  [137, 139, 149, 151, 157, 163, 167, 173, 179, 181, 191, 193, 197, 199, 211, 223] ++
  [227, 229, 233, 239, 241, 251, 257, 263, 269, 271, 277, 281, 283, 293, 307, 311]

/-- The largest r + x with x below 2^n and (r + x)^k at most `bound`, the bits of x tried from the highest down. -/
def rootFrom (k bound : Nat) : Nat → Nat → Nat
  | 0, r => r
  | n + 1, r => if (r + 2 ^ n) ^ k ≤ bound then rootFrom k bound n (r + 2 ^ n) else rootFrom k bound n r

/-- The first 32 bits of the fraction of the k-th root of p, for a root below 32: the root of p · 2^(32k) without its
whole part. -/
def rootFraction (k p : Nat) : Word := BitVec.ofNat 32 (rootFrom k (p * 2 ^ (32 * k)) 37 0)

/-- The additive constants of the 64 operations: the fractions of the cube roots of the first 64 primes. -/
def sha256Constants : List Word := firstPrimes.map (rootFraction 3)

/-- The message schedule from a window of 16 words: `n` more words after them. -/
def sha256Schedule : Nat → List Word → List Word
  | 0, w => w
  | n + 1, w =>
    let x := w.getD 1 0
    let y := w.getD 14 0
    let next := (y.rotateRight 17 ^^^ y.rotateRight 19 ^^^ y >>> 10) + w.getD 9 0
      + (x.rotateRight 7 ^^^ x.rotateRight 18 ^^^ x >>> 3) + w.getD 0 0
    w.getD 0 0 :: sha256Schedule n (w.tail ++ [next])

/-- The eight chaining words. -/
structure Sha256State where
  a : Word
  b : Word
  c : Word
  d : Word
  e : Word
  f : Word
  g : Word
  h : Word

/-- One operation with its constant and schedule word. -/
def sha256Operation (s : Sha256State) (kw : Word × Word) : Sha256State :=
  let t1 := s.h + (s.e.rotateRight 6 ^^^ s.e.rotateRight 11 ^^^ s.e.rotateRight 25)
    + ((s.e &&& s.f) ^^^ (~~~s.e &&& s.g)) + kw.1 + kw.2
  let t2 := (s.a.rotateRight 2 ^^^ s.a.rotateRight 13 ^^^ s.a.rotateRight 22)
    + ((s.a &&& s.b) ^^^ (s.a &&& s.c) ^^^ (s.b &&& s.c))
  ⟨t1 + t2, s.a, s.b, s.c, s.d + t1, s.e, s.f, s.g⟩

/-- One 64-byte block. -/
def sha256Block (s : Sha256State) (block : List Byte) : Sha256State :=
  let t := (sha256Constants.zip (sha256Schedule 48 (shaWords block))).foldl sha256Operation s
  ⟨s.a + t.a, s.b + t.b, s.c + t.c, s.d + t.d, s.e + t.e, s.f + t.f, s.g + t.g, s.h + t.h⟩

/-- The chaining words at the start: the fractions of the square roots of the first eight primes. -/
def sha256Start : Sha256State :=
  ⟨rootFraction 2 2, rootFraction 2 3, rootFraction 2 5, rootFraction 2 7, rootFraction 2 11, rootFraction 2 13,
    rootFraction 2 17, rootFraction 2 19⟩

/-- SHA-256 of a byte string. -/
def sha256 (m : List Byte) : Vector Byte 32 :=
  let t := (blocks 64 (shaPad m)).foldl sha256Block sha256Start
  fit 32 ([t.a, t.b, t.c, t.d, t.e, t.f, t.g, t.h].flatMap wordBytes)

end Sys2Proof.Machine
end

