-- ==== Sys2Proof/Machine/Primitives.lean ====
section
/-! DEFINITION. The functions a build has (00_scope.md R6): the standard provider, the value of the spec's examples
(PRESUMED, log 15), or an uninterpreted one (log 2). -/

namespace Sys2Proof.Machine

/-- The key stream of the standard transform of a cipher, at least `n` bytes. -/
def standardStream (c : Cipher) (key nonce : List Byte) (n : Nat) : List Byte :=
  match c with
  | .aes128Gcm => gcmStream (aesRoundKeys key) nonce n
  | .aes192Gcm => gcmStream (aesRoundKeys key) nonce n
  | .aes256Gcm => gcmStream (aesRoundKeys key) nonce n
  | .chacha20Poly1305 => chachaStream key nonce n
  | .xchacha20Poly1305 => chachaStream (xchachaKey key nonce) (xchachaNonce nonce) n

/-- The tag of the standard transform of a cipher over a ciphertext body. -/
def standardTag (c : Cipher) (key nonce ad body : List Byte) : Vector Byte 16 :=
  match c with
  | .aes128Gcm => fit 16 (gcmTag (aesRoundKeys key) nonce ad body)
  | .aes192Gcm => fit 16 (gcmTag (aesRoundKeys key) nonce ad body)
  | .aes256Gcm => fit 16 (gcmTag (aesRoundKeys key) nonce ad body)
  | .chacha20Poly1305 => fit 16 (chachaTag key nonce ad body)
  | .xchacha20Poly1305 => fit 16 (chachaTag (xchachaKey key nonce) (xchachaNonce nonce) ad body)

/-- The standard AEAD_SEAL: the plaintext xor the key stream, then the tag. -/
def standardSeal (c : Cipher) (key nonce ad pt : List Byte) : Vector Byte (pt.length + 16) :=
  let body := xorBytes pt (standardStream c key nonce pt.length)
  fit _ (body ++ (standardTag c key nonce ad body).toList)

/-- The standard AEAD_OPEN: FAIL unless the trailing 16 bytes are the body's tag. -/
def standardOpen (c : Cipher) (key nonce ad ct : List Byte) : Option (Vector Byte (ct.length - 16)) :=
  let body := ct.take (ct.length - 16)
  if ct.drop (ct.length - 16) = (standardTag c key nonce ad body).toList then
    some (fit _ (xorBytes body (standardStream c key nonce body.length)))
  else none

/-- The standard functions. -/
def standardPrimitives : Primitives where
  md5 := md5
  sha1 := sha1
  sha256 := sha256
  aeadSeal := standardSeal
  aeadOpen := standardOpen

/-- The functions of a provider. -/
def primitivesOf : Provider → Primitives
  | .standard => standardPrimitives
  | .other n => Config.otherPrimitives n

/-- The functions the block's build has. -/
def State.prims (s : State) : Primitives := primitivesOf s.build.provider

end Sys2Proof.Machine
end

