-- ==== Sys2Proof/Machine/Crypter.lean ====
section
/-! DEFINITION. The crypter commands (43_crypter.md): ENCRYPT, DECRYPT, EXPECTED_LEN, and the nonce and direction
state machine of a slot. -/

namespace Sys2Proof.Machine

/-- SLOT[s].KEY[0:KEYLEN] (10_state.md R44). -/
def Slot.keyBytes (sl : Slot) : List Byte := sl.key.toList.take sl.keyLen.toNat

/-- SLOT[s].NONCE[0:NLEN], byte 0 first (43_crypter.md R263). -/
def Slot.nonceBytes (sl : Slot) : List Byte := sl.nonce.toList.take sl.nlen.toNat

/-- The nonce's integer value (20_memory.md R81). -/
def Slot.nonceValue (sl : Slot) : Nat := le sl.nonceBytes

/-- NonceAdvance (43_crypter.md R266): nothing in Zero mode; at the largest value EXHAUSTED with the nonce kept;
else the nonce plus one. -/
def Slot.nonceAdvance (sl : Slot) : Slot :=
  match sl.nmode with
  | .zero => sl
  | .sequential =>
    if sl.nonceValue = 256 ^ sl.nlen.toNat - 1 then { sl with st := .exhausted }
    else
      { sl with
        nonce := fit 24 (leBytes (sl.nonceValue + 1) sl.nlen.toNat ++ sl.nonce.toList.drop sl.nlen.toNat) }

/-- DIR <- d (43_crypter.md R265). -/
def Slot.bound (sl : Slot) (d : Direction) : Slot := { sl with dir := d }

/-- DIR <- DEC and ST <- FAILED (43_crypter.md R275, R276). -/
def Slot.failed (sl : Slot) : Slot := { sl with dir := .dec, st := .failed }

/-- AEAD_SEAL with the slot's cipher, key and nonce and empty associated data (43_crypter.md R261, R270). -/
def Slot.sealed (sl : Slot) (P : Primitives) (p : List Byte) : List Byte :=
  (P.aeadSeal sl.cipher sl.keyBytes sl.nonceBytes [] p).toList

/-- AEAD_OPEN with the slot's cipher, key and nonce and empty associated data (43_crypter.md R261, R275). -/
def Slot.opened (sl : Slot) (P : Primitives) (t : List Byte) : Option (List Byte) :=
  (P.aeadOpen sl.cipher sl.keyBytes sl.nonceBytes [] t).map (·.toList)

/-- The slot checks of ENCRYPT and DECRYPT (43_crypter.md R270, R275): E_SLOT_STATE, E_NONCE_EXHAUSTED, then
E_DIRECTION when the slot is bound to `forbidden`. -/
def State.checkCrypter (s : State) (sl : Slot) (forbidden : Direction) (k : Result) : Result :=
  match sl.st with
  | .free => s.raise .slotState
  | .keyed => s.raise .slotState
  | .failed => s.raise .slotState
  | .exhausted => s.raise .nonceExhausted
  | .active => if sl.dir = forbidden then s.raise .direction else k

/-- ENCRYPT (43_crypter.md R270). -/
def execEncrypt (slot : Nat) (s : State) : Result :=
  s.unlessFatal <| s.withSlot slot <|
    let sl := s.slot slot
    s.checkCrypter sl .dec <| s.checkSrc <| s.checkDst (s.srcLen.toNat + tagSize sl.cipher) <|
      withInput s.src fun p =>
        let out := sl.sealed s.prims p
        (((s.writeDst out).setResultNat out.length).setSlot slot (sl.bound .enc).nonceAdvance).done

/-- AuthFail (43_crypter.md R276): DIR <- DEC, ST <- FAILED and the output region's bytes hold no value; all of it
survives the raise. -/
def State.authFail (s : State) (slot : Nat) : Result :=
  let sl := s.slot slot
  ((s.killDst (s.srcLen.toNat - tagSize sl.cipher)).setSlot slot sl.failed).raise .auth

/-- DECRYPT (43_crypter.md R275); the short-input E_AUTH kills no byte (90_conflicts.md C8). -/
def execDecrypt (slot : Nat) (s : State) : Result :=
  s.unlessFatal <| s.withSlot slot <|
    let sl := s.slot slot
    s.checkCrypter sl .enc <|
      if s.srcLen.toNat < tagSize sl.cipher then (s.setSlot slot sl.failed).raise .auth
      else s.checkSrc <| s.checkDst (s.srcLen.toNat - tagSize sl.cipher) <| withInput s.src fun t =>
        match sl.opened s.prims t with
        | none => s.authFail slot
        | some r => (((s.writeDst r).setResultNat r.length).setSlot slot (sl.bound .dec).nonceAdvance).done

/-- EXPECTED_LEN (43_crypter.md R280). -/
def execExpectedLen (slot : Nat) (s : State) : Result :=
  s.unlessFatal <| s.withSlot slot <|
    let sl := s.slot slot
    if sl.st = .free ∨ sl.st = .keyed then s.raise .slotState
    else if s.srcLen.toNat > 0xFFFFFFFF - tagSize sl.cipher then s.raise .len
    else (s.setResultNat (s.srcLen.toNat + tagSize sl.cipher)).done

end Sys2Proof.Machine
end

