-- ==== Sys2Proof/Machine/Kdf.lean ====
section
/-! DEFINITION. The derivations of 41_key_derivation.md over the hash parameters: HMAC (R180), PBKDF2 (R181),
LEGACY_MD5 (R189) and HKDF (R198). -/

namespace Sys2Proof.Machine

/-- A hash function on byte strings. -/
abbrev Hash := List Byte → List Byte

/-- SHA256 of a provider. -/
def hashSha256 (P : Primitives) : Hash := fun m => (P.sha256 m).toList

/-- SHA1 of a provider. -/
def hashSha1 (P : Primitives) : Hash := fun m => (P.sha1 m).toList

/-- MD5 of a provider. -/
def hashMd5 (P : Primitives) : Hash := fun m => (P.md5 m).toList

/-- K0 (41_key_derivation.md R180): the key, hashed if longer than 64 bytes, with zero bytes up to 64. -/
def hmacKey (H : Hash) (K : List Byte) : List Byte :=
  let k := if K.length > 64 then H K else K
  k ++ List.replicate (64 - k.length) 0#8

/-- HMAC_H(K, msg) (41_key_derivation.md R180). -/
def hmac (H : Hash) (K msg : List Byte) : List Byte :=
  let k0 := hmacKey H K
  H (k0.map (· ^^^ 0x5C#8) ++ H (k0.map (· ^^^ 0x36#8) ++ msg))

/-- `U_1 xor ... xor U_iter` from the next U and the xor so far (41_key_derivation.md R181), `n` more of them. -/
def pbkdf2Chain (H : Hash) (P : List Byte) : Nat → List Byte → List Byte → List Byte
  | 0, _, acc => acc
  | n + 1, u, acc =>
    let u' := hmac H P u
    pbkdf2Chain H P n u' (xorBytes acc u')

/-- T_i (41_key_derivation.md R181). -/
def pbkdf2Block (H : Hash) (P S : List Byte) (iter i : Nat) : List Byte :=
  let u1 := hmac H P (S ++ beBytes i 4)
  pbkdf2Chain H P (iter - 1) u1 u1

/-- PBKDF2_HMAC_SHA256(P, S, iter, dkLen) (41_key_derivation.md R181), over SHA256 `H`. -/
def pbkdf2 (H : Hash) (P S : List Byte) (iter dkLen : Nat) : List Byte :=
  ((List.range ((dkLen + 31) / 32)).flatMap fun i => pbkdf2Block H P S iter (i + 1)).take dkLen

/-- LEGACY_MD5(P, L) (41_key_derivation.md R189), over MD5 `H`. -/
def legacyMd5 (H : Hash) (P : List Byte) (L : Nat) : List Byte :=
  let d1 := H P
  let d2 := H (d1 ++ P)
  (d1 ++ d2).take L

/-- T(i) || T(i+1) || ... , `n` of them, after T(i-1) = `t` (41_key_derivation.md R198). -/
def hkdfExpand (H : Hash) (prk info : List Byte) : Nat → Nat → List Byte → List Byte
  | 0, _, _ => []
  | n + 1, i, t =>
    let t' := hmac H prk (t ++ info ++ [BitVec.ofNat 8 i])
    t' ++ hkdfExpand H prk info n (i + 1) t'

/-- HKDF_H(salt, IKM, info, L) for a hash of `hLen` bytes (41_key_derivation.md R198). -/
def hkdf (H : Hash) (hLen : Nat) (salt ikm info : List Byte) (L : Nat) : List Byte :=
  (hkdfExpand H (hmac H salt ikm) info ((L + hLen - 1) / hLen) 1 []).take L

/-- The info label ASCII("ss-subkey") (41_key_derivation.md R198). -/
def subkeyInfo : List Byte := ascii "ss-subkey"

/-- The subkey of a master key and a salt (41_key_derivation.md R200). -/
def deriveSubkey (P : Primitives) (d : Digest) (salt masterKey : List Byte) (L : Nat) : List Byte :=
  match d with
  | .sha256 => hkdf (hashSha256 P) 32 salt masterKey subkeyInfo L
  | .sha1 => hkdf (hashSha1 P) 20 salt masterKey subkeyInfo L

end Sys2Proof.Machine
end

