-- ==== Sys2Proof/Machine/KeyDerivation.lean ====
section
/-! DEFINITION. The key-derivation commands (41_key_derivation.md): MK_PBKDF2, MK_LEGACY, MK_CLEAR, SUBKEY,
LOAD_KEY. -/

namespace Sys2Proof.Machine

/-- A derived master key (41_key_derivation.md R182, R190): VALID, its length, the key in the low bytes and zero
bytes above. -/
def MasterKey.derived (alg : KeyAlg) (key : List Byte) (len : Nat) : MasterKey :=
  ⟨true, alg, BitVec.ofNat 6 len, fit 32 key⟩

/-- A slot that a key has been loaded into (41_key_derivation.md R200, R210): KEY, KEYLEN and ST <- KEYED. -/
def Slot.load (sl : Slot) (key : List Byte) (len : Nat) : Slot :=
  { sl with st := .keyed, keyLen := BitVec.ofNat 6 len, key := fit 32 key }

/-- The iteration count of MK_PBKDF2, the literal 1000 (41_key_derivation.md R182). -/
def pbkdf2Iterations : Nat := 1000

/-- MK_PBKDF2 (41_key_derivation.md R182). -/
def execMkPbkdf2 (mk cipher : Nat) (s : State) : Result :=
  s.unlessFatal <| s.withMk mk <| s.withCipher cipher fun c =>
    if (s.master mk).valid then s.raise .mkState
    else s.checkSrc <| s.checkAux <| withInput s.src fun password => withInput s.aux fun salt =>
      let key := pbkdf2 (hashSha256 s.prims) password salt pbkdf2Iterations (keySize c)
      (s.setMaster mk (MasterKey.derived .pbkdf2 key (keySize c))).done

/-- MK_LEGACY (41_key_derivation.md R190); the oversize case cannot arise (R192). -/
def execMkLegacy (mk cipher : Nat) (s : State) : Result :=
  s.unlessFatal <| s.withMk mk <| s.withCipher cipher fun c =>
    if (s.master mk).valid then s.raise .mkState
    else s.checkSrc <| withInput s.src fun password =>
      if keySize c > 32 then s.raiseInvariant
      else
        let key := legacyMd5 (hashMd5 s.prims) password (keySize c)
        (s.setMaster mk (MasterKey.derived .legacy key (keySize c))).done

/-- MK_CLEAR (41_key_derivation.md R194). -/
def execMkClear (mk : Nat) (s : State) : Result :=
  s.unlessFatal <| s.withMk mk <| (s.setMaster mk MasterKey.cleared).done

/-- SUBKEY (41_key_derivation.md R200). -/
def execSubkey (slot mk cipher : Nat) (digest : Digest) (s : State) : Result :=
  s.unlessFatal <| s.withSlot slot <| s.withMk mk <| s.withCipher cipher fun c =>
    if (s.slot slot).st ≠ .free then s.raise .slotState
    else if ¬ (s.master mk).valid then s.raise .mkState
    else if s.srcLen.toNat ≠ saltSize c then s.raise .len
    else s.checkSrc <|
      if (s.master mk).len.toNat ≠ keySize c then s.raise .keyLen
      else withInput s.src fun salt =>
        let key := deriveSubkey s.prims digest salt ((s.master mk).key.toList.take (keySize c)) (keySize c)
        (s.setSlot slot ((s.slot slot).load key (keySize c))).done

/-- LOAD_KEY (41_key_derivation.md R210). -/
def execLoadKey (slot : Nat) (s : State) : Result :=
  s.unlessFatal <| s.withSlot slot <|
    if (s.slot slot).st ≠ .free then s.raise .slotState
    else if s.srcLen.toNat > 32 then s.raise .len
    else s.checkSrc <| withInput s.src fun key =>
      (s.setSlot slot ((s.slot slot).load key key.length)).done

end Sys2Proof.Machine
end

