-- ==== Sys2Proof/Machine/RegistryCommands.lean ====
section
/-! DEFINITION. The registry commands (40_registry.md): PARSE, NAME_OF, SPEC_OF. -/

namespace Sys2Proof.Machine

/-- PARSE (40_registry.md R150). -/
def execParse (s : State) : Result :=
  s.unlessFatal <| s.checkSrc <| withInput s.src fun nm =>
    match parseName nm with
    | some c => (s.setResultNat (cipherCode c)).done
    | none => s.raise .unknownCipher

/-- NAME_OF (40_registry.md R151). -/
def execNameOf (cipher : Nat) (s : State) : Result :=
  s.unlessFatal <| s.withCipher cipher fun c =>
    let nm := cipherName c
    s.checkDst nm.length <| ((s.writeDst nm).setResultNat nm.length).done

/-- SPEC_OF (40_registry.md R152). -/
def execSpecOf (cipher : Nat) (s : State) : Result :=
  s.unlessFatal <| s.withCipher cipher fun c => (s.setResult (packedSpec c)).done

end Sys2Proof.Machine
end

