-- ==== Sys2Proof/Machine/Selector.lean ====
section
/-! DEFINITION. The backend selector's commands (42_selector.md): CREATE and RELEASE. -/

namespace Sys2Proof.Machine

/-- A keyed slot bound to a cipher, its backend and a nonce mode (42_selector.md R234): the key stays as loaded. -/
def Slot.created (sl : Slot) (c : Cipher) (n : NonceMode) : Slot :=
  { sl with
    st := .active, cipher := c, backend := cipherFamily c, nmode := n, dir := .none,
    nonce := Vector.replicate 24 0, nlen := BitVec.ofNat 5 (nonceSize c) }

/-- CREATE (42_selector.md R234). -/
def execCreate (slot cipher : Nat) (nmode : NonceMode) (s : State) : Result :=
  s.unlessFatal <| s.withSlot slot <| s.withCipher cipher fun c =>
    if (s.slot slot).st ≠ .keyed then s.raise .slotState
    else if ¬ BackendAgrees s.build c then s.raiseInvariant
    else if (s.slot slot).keyLen.toNat ≠ keySize c then s.raise .keyLen
    else (s.setSlot slot ((s.slot slot).created c nmode)).done

/-- RELEASE (42_selector.md R240). -/
def execRelease (slot : Nat) (s : State) : Result :=
  s.unlessFatal <| s.withSlot slot <| (s.setSlot slot Slot.cleared).done

end Sys2Proof.Machine
end

