-- ==== Sys2Proof/Machine/Dispatch.lean ====
section
/-! DEFINITION. The completion step of a decoded command (60_exceptions.md R300 (b)): one arm per constructor. -/

namespace Sys2Proof.Machine

def exec (i : Instr) (s : State) : Host.Outcome State Fault Refusal :=
  match i with
  -- registry (40_registry.md)
  | .parse => Sys2Proof.Machine.execParse s
  | .nameOf cipher => Sys2Proof.Machine.execNameOf cipher s
  | .specOf cipher => Sys2Proof.Machine.execSpecOf cipher s
  -- key derivation (41_key_derivation.md)
  | .mkPbkdf2 mk cipher => Sys2Proof.Machine.execMkPbkdf2 mk cipher s
  | .mkLegacy mk cipher => Sys2Proof.Machine.execMkLegacy mk cipher s
  | .mkClear mk => Sys2Proof.Machine.execMkClear mk s
  | .subkey slot mk cipher digest => Sys2Proof.Machine.execSubkey slot mk cipher digest s
  | .loadKey slot => Sys2Proof.Machine.execLoadKey slot s
  -- selector (42_selector.md)
  | .create slot cipher nmode => Sys2Proof.Machine.execCreate slot cipher nmode s
  | .release slot => Sys2Proof.Machine.execRelease slot s
  -- crypter (43_crypter.md)
  | .encrypt slot => Sys2Proof.Machine.execEncrypt slot s
  | .decrypt slot => Sys2Proof.Machine.execDecrypt slot s
  | .expectedLen slot => Sys2Proof.Machine.execExpectedLen slot s

end Sys2Proof.Machine
end

