-- ==== Sys2Proof/Machine/Block.lean ====
section
/-! DEFINITION. The two agents' steps (00_scope.md R5, 60_exceptions.md R300): the BLOCK's completion step, and one
event of the run. -/

namespace Sys2Proof.Machine

/-- The completion step (60_exceptions.md R300 (b)): the latched word executed as one transition; a word that is no
command raises (30_encoding.md R118). -/
def State.complete (s : State) : Result :=
  match decode s.cmd with
  | .ok i => exec i s
  | .error _ => s.rejectWord

/-- The BLOCK's turn: enabled exactly when BUSY = 1 (60_exceptions.md R300); an idle block holds all its state
(R319). -/
def State.blockTurn (s : State) : Result := if s.status.busy then s.complete else .next s

/-- One event (70_reset_and_hazards.md R366). -/
def State.onEvent (s : State) (e : Event) : Result :=
  match e with
  | .host a => hostAccess a s
  | .turn => s.blockTurn
  | .reset => .next s.applyReset

/-- The next event of the script, or, when none is left, the BLOCK's turn: the pending command is eventually
completed (70_reset_and_hazards.md R360; log 3). -/
def State.nextEvent (s : State) : Result :=
  match s.script with
  | [] => s.blockTurn
  | e :: es => State.onEvent { s with script := es } e

/-- A command word latched and pending, the BLOCK's turn being next (60_exceptions.md R300; log 9). -/
def State.placeCommand (s : State) (w : Word) : State := { s.issue w with script := .turn :: s.script }

end Sys2Proof.Machine
end

