-- ==== Sys2Proof/Machine/Step.lean ====
section
/-! DEFINITION. One step of the machine: the next event, unless a model fault has been recorded. -/

namespace Sys2Proof.Machine

/-- One step. A state with a recorded model fault takes no step any more (00_scope.md R11, 60_exceptions.md R308;
log 4). -/
def step (s : State) : Host.Outcome State Fault Refusal :=
  match s.faultMark with
  | some f => .fault f
  | none => s.nextEvent

/-- `s` with the command whose bits are `w` latched and pending and the BLOCK's turn next, so that the next step
runs exactly it (log 9). A command is one 32-bit word (30_encoding.md R110). -/
def State.withFetchWord (s : State) (nbits w : Nat) : State := s.placeCommand (BitVec.ofNat 32 (w % 2 ^ nbits))

end Sys2Proof.Machine
end

