-- ==== Sys2Proof/Safety.lean ====
section
/-! DEFINITION. What counts as a run and its end (70_reset_and_hazards.md R366), the named assumptions on parameters
that a claim may take as a premise (42_selector.md R231, 43_crypter.md R262), the state's invariant, and what the
host can tell apart (R367). -/

namespace Sys2Proof.Machine

/-! ## Runs -/

/-- One step of a run that keeps a model fault (60_exceptions.md R308): the state in which a step faults is kept
with the fault recorded. -/
def State.advance (s : State) : State :=
  match step s with
  | .next t => t
  | .fault f => s.markFault f
  | .refused _ => s

/-- `n` steps of a run. -/
def State.advanceBy : Nat → State → State
  | 0, s => s
  | n + 1, s => State.advanceBy n s.advance

/-- A normal end of a run (70_reset_and_hazards.md R366 (a)): BUSY = 0, no model fault, the host takes no further
step. -/
abbrev State.EndsNormally (s : State) : Prop := s.status.busy = false ∧ s.faultMark = none ∧ s.script = []

/-! ## Named assumptions on the parameters -/

/-- The conforming build's backend table equals the registry (42_selector.md R231). -/
abbrev ConformingBuild (b : Build) : Prop := ∀ c ∈ allCiphers, BackendAgrees b c

/-- T3 of 43_crypter.md R262 for one cipher, key and nonce: opening a sealing gives the plaintext back. -/
def RoundTrips (P : Primitives) (c : Cipher) (key nonce : List Byte) : Prop :=
  ∀ p : List Byte, (P.aeadOpen c key nonce [] (P.aeadSeal c key nonce [] p).toList).map (·.toList) = some p

/-- The byte string with bit `i` of byte `n` flipped. -/
def flipBit (n : Nat) (i : Nat) (t : List Byte) : List Byte := t.modify n (· ^^^ BitVec.twoPow 8 i)

/-- T5 of 43_crypter.md R262 for one cipher, key, nonce and nonempty plaintext: a sealing with any one bit flipped
does not open. -/
def DetectsTampering (P : Primitives) (c : Cipher) (key nonce p : List Byte) : Prop :=
  ∀ n i, n < p.length + 16 → i < 8 →
    (P.aeadOpen c key nonce [] (flipBit n i (P.aeadSeal c key nonce [] p).toList)).isNone

/-! ## The invariant -/

/-- The bytes of a string from place n on are 0. -/
abbrev zeroFrom (n : Nat) (bytes : List Byte) : Prop := ∀ b ∈ bytes.drop n, b = 0#8

/-- STATUS: ERR is 1 exactly when ERRCODE is not 0 (10_state.md R37); FATAL is 1 only after E_INVARIANT or E_FATAL
(60_exceptions.md R303); E_KDF is never reported (41_key_derivation.md R184). -/
abbrev Status.Inv (st : Status) : Prop :=
  (st.err = true ↔ st.errcode ≠ .ok) ∧ (st.fatal = true → st.errcode = .invariant ∨ st.errcode = .fatal) ∧
    st.errcode ≠ .kdf

/-- A master-key register (10_state.md R40): LEN in 0, 16, 24, 32, zero bytes from LEN on, all zero while VALID = 0. -/
abbrev MasterKey.Inv (k : MasterKey) : Prop :=
  (k.valid = false → k = MasterKey.cleared) ∧
    (k.len = 0 ∨ k.len = 16 ∨ k.len = 24 ∨ k.len = 32) ∧ zeroFrom k.len.toNat k.key.toList

/-- The fields CREATE binds are still 0 (10_state.md R44). -/
abbrev Slot.Unbound (sl : Slot) : Prop :=
  sl.cipher = .aes128Gcm ∧ sl.backend = .gcm ∧ sl.nmode = .sequential ∧ sl.dir = .none ∧
    sl.nonce = Vector.replicate 24 0 ∧ sl.nlen = 0

/-- The fields CREATE binds agree with the cipher (10_state.md R44): the backend is the family, the key and nonce
lengths are the cipher's, the nonce is zero from NLEN on and all zero in Zero mode (R47). -/
abbrev Slot.Bound (sl : Slot) : Prop :=
  sl.backend = cipherFamily sl.cipher ∧ sl.keyLen.toNat = keySize sl.cipher ∧
    sl.nlen.toNat = nonceSize sl.cipher ∧ zeroFrom sl.nlen.toNat sl.nonce.toList ∧
    (sl.nmode = .zero → sl.nonce = Vector.replicate 24 0)

/-- A slot's fields fit its state (10_state.md R44-R47, R50): a FREE slot is all zero; only a Sequential slot whose
nonce is the largest is EXHAUSTED, and it has a direction (43_crypter.md R266); a FAILED slot has DIR = DEC (R276). -/
abbrev Slot.Inv (sl : Slot) : Prop :=
  sl.keyLen.toNat ≤ 32 ∧ zeroFrom sl.keyLen.toNat sl.key.toList ∧
    match sl.st with
    | .free => sl = Slot.cleared
    | .keyed => sl.Unbound
    | .active => sl.Bound
    | .failed => sl.Bound ∧ sl.dir = .dec
    | .exhausted =>
      sl.Bound ∧ sl.dir ≠ .none ∧ sl.nmode = .sequential ∧ sl.nonceValue = 256 ^ sl.nlen.toNat - 1

/-- Every listed byte lies inside buffer RAM (20_memory.md R80). -/
abbrev Memory.Below (n : Nat) (m : Memory) : Prop := ∀ cell ∈ m, cell.1 < n

/-- The invariant of the block's state. -/
structure State.Inv (s : State) : Prop where
  status : s.status.Inv
  masters : ∀ m, (s.master m).Inv
  slots : ∀ i, (s.slot i).Inv
  bufWf : s.buf.wf = true
  bufBelow : s.buf.Below s.build.bufSize

/-! ## Commands and their fields -/

/-- The match and mask columns of 30_encoding.md R115, in the order of its rows. -/
def specRows : List (Word × Word) :=
  [(0x00000001, 0xFFFFFFFF), (0x00000002, 0xFFFF8FFF), (0x00000003, 0xFFFF8FFF), (0x00000010, 0xFFF08FFF),
   (0x00000011, 0xFFF08FFF), (0x00000012, 0xFFF0FFFF), (0x00000018, 0xFFE080FF), (0x00000019, 0xFFFFF0FF),
   (0x00000020, 0xFFFF00FF), (0x00000021, 0xFFFFF0FF), (0x00000030, 0xFFFFF0FF), (0x00000031, 0xFFFFF0FF),
   (0x00000032, 0xFFFFF0FF)]

/-- One row of 30_encoding.md R115 with the fields of R114: the words that decode to a command of this opcode are
those with `w & mask = pattern`, and `f` gives the command of each. -/
def Encoding (pattern mask : Word) (f : Word → Instr) : Prop :=
  ∀ (w : Word) (i : Instr), (decode w = .ok i ∧ i.opcode = pattern.toNat) ↔ (w &&& mask = pattern ∧ i = f w)

/-- The SLOT field of a word (30_encoding.md R111). -/
def slotField (w : Word) : Nat := (w.extractLsb' 8 4).toNat

/-- The CIPHER field of a word (30_encoding.md R111). -/
def cipherField (w : Word) : Nat := (w.extractLsb' 12 3).toNat

/-- The MK field of a word (30_encoding.md R111). -/
def mkField (w : Word) : Nat := (w.extractLsb' 16 4).toNat

/-- The SLOT field of a command that uses it (30_encoding.md R114). -/
def slotOf : Instr → Option Nat
  | .parse => none
  | .nameOf _ => none
  | .specOf _ => none
  | .mkPbkdf2 _ _ => none
  | .mkLegacy _ _ => none
  | .mkClear _ => none
  | .subkey slot _ _ _ => some slot
  | .loadKey slot => some slot
  | .create slot _ _ => some slot
  | .release slot => some slot
  | .encrypt slot => some slot
  | .decrypt slot => some slot
  | .expectedLen slot => some slot

/-- The MK field of a command that uses it (30_encoding.md R114). -/
def masterOf : Instr → Option Nat
  | .parse => none
  | .nameOf _ => none
  | .specOf _ => none
  | .mkPbkdf2 mk _ => some mk
  | .mkLegacy mk _ => some mk
  | .mkClear mk => some mk
  | .subkey _ mk _ _ => some mk
  | .loadKey _ => none
  | .create _ _ _ => none
  | .release _ => none
  | .encrypt _ => none
  | .decrypt _ => none
  | .expectedLen _ => none

/-- The CIPHER field of a command that uses it (30_encoding.md R114). -/
def cipherOf : Instr → Option Nat
  | .parse => none
  | .nameOf cipher => some cipher
  | .specOf cipher => some cipher
  | .mkPbkdf2 _ cipher => some cipher
  | .mkLegacy _ cipher => some cipher
  | .mkClear _ => none
  | .subkey _ _ cipher _ => some cipher
  | .loadKey _ => none
  | .create _ cipher _ => some cipher
  | .release _ => none
  | .encrypt _ => none
  | .decrypt _ => none
  | .expectedLen _ => none

/-- ENCRYPT and DECRYPT, whose outputs depend on a key (70_reset_and_hazards.md R367). -/
def usesTransform : Instr → Bool
  | .parse => false
  | .nameOf _ => false
  | .specOf _ => false
  | .mkPbkdf2 _ _ => false
  | .mkLegacy _ _ => false
  | .mkClear _ => false
  | .subkey _ _ _ _ => false
  | .loadKey _ => false
  | .create _ _ _ => false
  | .release _ => false
  | .encrypt _ => true
  | .decrypt _ => true
  | .expectedLen _ => false

/-- An outcome whose next state, if there is one, is changed by `f`. -/
def mapNext (f : State → State) : Result → Result
  | .next t => .next (f t)
  | .fault r => .fault r
  | .refused r => .refused r

/-- The state after `raise E` (60_exceptions.md R306): STATUS written, all else as in `s`. -/
def raised (s : State) (e : ErrCode) : State := { s with status := ⟨false, true, s.status.fatal, e⟩ }

/-- The state after OK (60_exceptions.md R307): STATUS written, all else as in `s`. -/
def completed (s : State) : State := { s with status := ⟨false, false, s.status.fatal, .ok⟩ }

/-! ## Chunks passed from a sender to a receiver (43_crypter.md R282) -/

/-- Two slots hold the same cipher, key, nonce and nonce mode. -/
abbrev SameCrypter (a b : Slot) : Prop :=
  a.cipher = b.cipher ∧ a.keyLen = b.keyLen ∧ a.key = b.key ∧ a.nmode = b.nmode ∧ a.nonce = b.nonce ∧ a.nlen = b.nlen

/-- One chunk on its way: the sending block before and after its ENCRYPT, and the receiving block before its DECRYPT.
The two may be one block at two moments. -/
structure Exchange where
  sender : State
  sent : State
  receiver : State
deriving DecidableEq, Repr

/-- The host passes the output of a successful ENCRYPT on slot `a`, unmodified, to a DECRYPT on slot `b` (R282): the
ENCRYPT ends with OK, the receiving block is not FATAL and has the slot, the DECRYPT's operands are in range, and its
input holds the bytes that the ENCRYPT wrote. Both builds have the functions of `provider`. -/
structure Exchange.Delivers (provider : Provider) (a b : Nat) (x : Exchange) : Prop where
  senderBuild : x.sender.build.provider = provider
  receiverBuild : x.receiver.build.provider = provider
  encrypted : exec (.encrypt a) x.sender = .next x.sent
  ok : x.sent.status.errcode = .ok
  receiverRuns : x.receiver.status.fatal = false ∧ b < x.receiver.build.numSlots
  length : x.receiver.srcLen.toNat = x.sender.srcLen.toNat + 16
  source : x.receiver.srcOff.toNat + x.receiver.srcLen.toNat ≤ x.receiver.build.bufSize
  room : x.receiver.dstOff.toNat + x.sender.srcLen.toNat ≤ x.receiver.build.bufSize
  unmodified : x.receiver.buf.read x.receiver.srcOff.toNat x.receiver.srcLen.toNat =
    x.sent.buf.read x.sender.dstOff.toNat (x.sender.srcLen.toNat + 16)

/-- Chunks delivered in order from slot `a`, which holds `sl` before the first, to slot `b`, which holds `sl'`: each
ENCRYPT finds its slot as the one before left it, each DECRYPT likewise, so no other ENCRYPT or DECRYPT runs on either
slot between (R282). Everything else in the two blocks may change between. -/
def Connection (provider : Provider) (a b : Nat) : Slot → Slot → List Exchange → Prop
  | _, _, [] => True
  | sl, sl', x :: xs =>
    x.sender.slot a = sl ∧ x.receiver.slot b = sl' ∧ x.Delivers provider a b ∧
      ∀ u, exec (.decrypt b) x.receiver = .next u → Connection provider a b (x.sent.slot a) (u.slot b) xs

/-! ## What the host can tell apart -/

/-- A master-key register with its KEY blotted out. -/
def MasterKey.masked (k : MasterKey) : MasterKey := { k with key := MasterKey.cleared.key }

/-- A slot with its KEY and BACKEND blotted out. -/
def Slot.masked (sl : Slot) : Slot := { sl with key := Slot.cleared.key, backend := .gcm }

/-- The state with every MK[m].KEY, SLOT[s].KEY and SLOT[s].BACKEND blotted out: two states that agree on it differ
only in what R367 calls never observable. -/
def State.masked (s : State) : State :=
  { s with mks := s.mks.map MasterKey.masked, slots := s.slots.map Slot.masked }

/-- An outcome seen through `masked`. -/
def maskedResult (r : Result) : Result := mapNext State.masked r

end Sys2Proof.Machine
end

