-- ==== Sys2Proof/Certificates/Slice0/Obligations.lean ====
section
/-! DEFINITION. The statements for the provers, from the spec's numbered rules. "Not FATAL" is
`s.status.fatal = false`; `raised` and `completed` (Sys2Proof/Safety.lean) are the states after an error and after
OK, all fields but STATUS as in their argument. -/

open Sys2Proof Sys2Proof.Machine

/-! ## Encoding -/

/-- 30_encoding.md R123: the worked encodings; the last one is no command. -/
def Obligations.WorkedEncodingsDecode : Prop :=
  decode 0x00000001#32 = .ok .parse ∧
  decode 0x00003003#32 = .ok (.specOf 3) ∧
  decode 0x00004002#32 = .ok (.nameOf 4) ∧
  decode 0x00002011#32 = .ok (.mkLegacy 0 2) ∧
  decode 0x00010010#32 = .ok (.mkPbkdf2 1 0) ∧
  decode 0x00102018#32 = .ok (.subkey 0 0 2 .sha1) ∧
  decode 0x00000219#32 = .ok (.loadKey 2) ∧
  decode 0x0000B220#32 = .ok (.create 2 3 .zero) ∧
  decode 0x00000130#32 = .ok (.encrypt 1) ∧
  decode 0x00000131#32 = .ok (.decrypt 1) ∧
  decode 0x00000121#32 = .ok (.release 1) ∧
  decode 0x00200230#32 = .error .nonzeroUnusedField ∧
  ∀ s : State, s.status.fatal = false → s.cmd = 0x00200230#32 → s.complete = .next (raised s .illegal)

/-- 30_encoding.md R111, R114, R115: decoding the encoding of a well-formed command gives the command, for every
value of every field. -/
def Obligations.DecodeInvertsEncode : Prop :=
  ∀ i : Instr, i.WellFormed → decode (encode i) = .ok i

/-- 30_encoding.md R110, R111, R118: a word that decodes is the encoding of the well-formed command it decodes to,
so no two words are one command. -/
def Obligations.EncodeInvertsDecode : Prop :=
  ∀ (w : Word) (i : Instr), decode w = .ok i → i.WellFormed ∧ encode i = w

/-- 30_encoding.md R115: each opcode's legal words are those with `(w & mask) = match`; a word with an assigned
opcode and a nonzero unused field or RSV raises E_ILLEGAL with no effect. -/
def Obligations.LegalWordsMatchMask : Prop :=
  (∀ (w : Word), ∀ row ∈ specRows,
    (w &&& row.2 = row.1 ↔ ∃ i, decode w = .ok i ∧ i.opcode = row.1.toNat)) ∧
  (∀ (s : State), ∀ row ∈ specRows, s.status.fatal = false → s.cmd &&& 0xFF#32 = row.1 → s.cmd &&& row.2 ≠ row.1 →
    s.complete = .next (raised s .illegal))

/-- 30_encoding.md R118: decoding is total. A word that matches a row is that row's command and is executed as it;
every other word raises E_ILLEGAL with no effect. -/
def Obligations.EveryWordHasOneOutcome : Prop :=
  (∀ (s : State), ∀ row ∈ specRows, s.cmd &&& row.2 = row.1 →
    ∃ i, decode s.cmd = .ok i ∧ i.opcode = row.1.toNat ∧ s.complete = exec i s) ∧
  (∀ (s : State), s.status.fatal = false → (∀ row ∈ specRows, s.cmd &&& row.2 ≠ row.1) →
    s.complete = .next (raised s .illegal))

/-- 30_encoding.md R116, R119, 60_exceptions.md R305 steps 1 to 4: E_FATAL before E_ILLEGAL before E_RANGE on SLOT or
MK before E_UNKNOWN_CIPHER on CIPHER, each with no effect. -/
def Obligations.DecodingErrorPrecedence : Prop :=
  (∀ s : State, s.status.fatal = true → s.complete = .next (raised s .fatal)) ∧
  (∀ (s : State) (e : DecodeError), s.status.fatal = false → decode s.cmd = .error e →
    s.complete = .next (raised s .illegal)) ∧
  (∀ (s : State) (i : Instr) (n : Nat), s.status.fatal = false → decode s.cmd = .ok i → slotOf i = some n →
    s.build.numSlots ≤ n → s.complete = .next (raised s .range)) ∧
  (∀ (s : State) (i : Instr) (m : Nat), s.status.fatal = false → decode s.cmd = .ok i → masterOf i = some m →
    s.build.numMk ≤ m → s.complete = .next (raised s .range)) ∧
  (∀ (s : State) (i : Instr) (c : Nat), s.status.fatal = false → decode s.cmd = .ok i →
    (∀ n, slotOf i = some n → n < s.build.numSlots) → (∀ m, masterOf i = some m → m < s.build.numMk) →
    cipherOf i = some c → 5 ≤ c → s.complete = .next (raised s .unknownCipher))

/-! ## Steps -/

/-- 60_exceptions.md R300 (b), 20_memory.md R95: while a command is pending and the BLOCK has its turn (the script's
next event, or no event left: the model's scheduling, log 3), a step is exactly the decoded command, the event being
consumed; `withFetchWord` places a command that the very next step runs. -/
def Obligations.StepRunsDecodedCommand : Prop :=
  (∀ (s : State) (es : List Event) (i : Instr), s.faultMark = none → s.status.busy = true → s.script = .turn :: es →
    decode s.cmd = .ok i → step s = exec i { s with script := es }) ∧
  (∀ (s : State) (i : Instr), s.faultMark = none → s.status.busy = true → s.script = [] →
    decode s.cmd = .ok i → step s = exec i s) ∧
  (∀ (s : State) (w : Nat) (i : Instr), s.faultMark = none → w < 2 ^ 32 → decode (BitVec.ofNat 32 w) = .ok i →
    step (s.withFetchWord 32 w) =
      exec i { s with cmd := BitVec.ofNat 32 w, status := { s.status with busy := true } })

/-- 70_reset_and_hazards.md R366, 60_exceptions.md R300, R319: a step takes the script's next event (log 3); a turn
of an idle block and a step with no event left and BUSY = 0 change no state of the block; RESET leaves the
environment's script and answer, which are no state of the block (the model's choice, log 3, log 10, log 17). -/
def Obligations.StepTakesNextEvent : Prop :=
  (∀ (s : State) (e : Event) (es : List Event), s.faultMark = none → s.script = e :: es →
    step s = State.onEvent { s with script := es } e) ∧
  (∀ (s : State), s.status.busy = false → State.onEvent s .turn = .next s) ∧
  (∀ (s : State), s.faultMark = none → s.status.busy = false → s.script = [] → step s = .next s) ∧
  (∀ (s : State), ∃ t, State.onEvent s .reset = .next t ∧ t.script = s.script ∧ t.answer = s.answer)

/-- 60_exceptions.md R300, 70_reset_and_hazards.md R360, R365: the completion step of any word, legal or not, ends
with BUSY = 0, or it is the model fault UNINIT_INPUT, which cannot happen when every buffer byte holds a value. -/
def Obligations.EveryCommandCompletes : Prop :=
  (∀ s : State, (∃ t, s.complete = .next t ∧ t.status.busy = false) ∨ s.complete = .fault .uninitInput) ∧
  (∀ s : State, (∀ a < s.build.bufSize, (Memory.get a s.buf).isSome = true) →
    ∃ t, s.complete = .next t ∧ t.status.busy = false)

/-- 60_exceptions.md R303: E_INVARIANT sets FATAL; while FATAL = 1 every command, legal or not, completes with
E_FATAL and no other effect; only reset clears FATAL. -/
def Obligations.FatalIsSticky : Prop :=
  (∀ (i : Instr) (s t : State), exec i s = .next t → t.status.errcode = .invariant → t.status.fatal = true) ∧
  (∀ (i : Instr) (s : State), s.status.fatal = true → exec i s = .next (raised s .fatal)) ∧
  (∀ (s : State), s.status.fatal = true → s.complete = .next (raised s .fatal)) ∧
  (∀ (s t : State) (e : Event), s.status.fatal = true → State.onEvent s e = .next t →
    if e = .reset then t.status.fatal = false else t.status.fatal = true)

/-- 60_exceptions.md R306: what the completion step of a word, legal or not, leaves when it ends with an error. ERR = 1,
BUSY = 0 and ERRCODE is the error; only E_INVARIANT sets FATAL; only E_AUTH changes anything else, and then DIR and ST
of the slot of the DECRYPT, and the bytes of the output region, which hold no value, but none for an input shorter
than the tag. Everything else, RESULT included, is as before. -/
def Obligations.ErrorsArePrecise : Prop :=
  ∀ s t : State, s.complete = .next t → t.status.errcode ≠ .ok →
    t = { s with
      status := ⟨false, true, s.status.fatal || decide (t.status.errcode = .invariant), t.status.errcode⟩
      slots := t.slots
      buf := t.buf } ∧
    (t.status.errcode ≠ .auth → t.slots = s.slots ∧ t.buf = s.buf) ∧
    (t.status.errcode = .auth → ∃ n, decode s.cmd = .ok (.decrypt n) ∧
      t.slots = s.slots.setIfInBounds n { s.slot n with dir := .dec, st := .failed } ∧
      t.buf = if s.srcLen.toNat < 16 then s.buf else s.buf.kill s.dstOff.toNat (s.srcLen.toNat - 16))

/-- 60_exceptions.md R307: a command that completes leaves ERR = 0, ERRCODE = 0 and BUSY = 0, and FATAL as it was. -/
def Obligations.SuccessClearsError : Prop :=
  ∀ (i : Instr) (s t : State), exec i s = .next t → t.status.errcode = .ok →
    t.status = ⟨false, false, s.status.fatal, .ok⟩

/-! ## Frames -/

/-- 10_state.md R35, R36, R39, 60_exceptions.md R301: no command writes an operand register, CMD, the parameters,
the model fault mark, or the environment's script and answer. -/
def Obligations.NoCommandWritesOperands : Prop :=
  ∀ (i : Instr) (s t : State), exec i s = .next t →
    t.build = s.build ∧ t.cmd = s.cmd ∧ t.srcOff = s.srcOff ∧ t.srcLen = s.srcLen ∧ t.dstOff = s.dstOff ∧
    t.auxOff = s.auxOff ∧ t.auxLen = s.auxLen ∧ t.faultMark = s.faultMark ∧ t.script = s.script ∧
    t.answer = s.answer

/-- Frame of PARSE, SPEC_OF, EXPECTED_LEN (40_registry.md R150, R152, 43_crypter.md R280): of the block's state only
STATUS and RESULT may change, no byte of buffer RAM does; and of NAME_OF (R151): only STATUS, RESULT and the |name(c)|
bytes at DST_OFF may change. -/
def Obligations.LookupFrame : Prop :=
  (∀ (i : Instr) (s t : State), (i = .parse ∨ (∃ c, i = .specOf c) ∨ ∃ n, i = .expectedLen n) → exec i s = .next t →
    t.mks = s.mks ∧ t.slots = s.slots ∧ t.status.fatal = s.status.fatal ∧
    ∀ a, Memory.get a t.buf = Memory.get a s.buf) ∧
  (∀ (code : Nat) (s t : State), exec (.nameOf code) s = .next t →
    t.mks = s.mks ∧ t.slots = s.slots ∧ t.status.fatal = s.status.fatal ∧
    (5 ≤ code → ∀ a, Memory.get a t.buf = Memory.get a s.buf) ∧
    ∀ c, cipherOfCode code = some c → ∀ a,
      a < s.dstOff.toNat ∨ s.dstOff.toNat + (cipherName c).length ≤ a → Memory.get a t.buf = Memory.get a s.buf)

/-- Frame of MK_PBKDF2, MK_LEGACY, MK_CLEAR (41_key_derivation.md R182, R190, R194): only STATUS and the command's
master-key register may change. -/
def Obligations.MasterKeyFrame : Prop :=
  ∀ (i : Instr) (m : Nat) (s t : State), ((∃ c, i = .mkPbkdf2 m c) ∨ (∃ c, i = .mkLegacy m c) ∨ i = .mkClear m) →
    exec i s = .next t →
    (∀ k, k ≠ m → t.master k = s.master k) ∧ t.slots = s.slots ∧ t.result = s.result ∧
    t.status.fatal = s.status.fatal ∧ ∀ a, Memory.get a t.buf = Memory.get a s.buf

/-- Frame of SUBKEY, LOAD_KEY, CREATE, RELEASE (41_key_derivation.md R200, R210, 42_selector.md R234, R240): only
STATUS and the command's slot may change. -/
def Obligations.SlotKeyFrame : Prop :=
  ∀ (i : Instr) (n : Nat) (s t : State),
    ((∃ m c d, i = .subkey n m c d) ∨ i = .loadKey n ∨ (∃ c mode, i = .create n c mode) ∨ i = .release n) →
    exec i s = .next t →
    t.mks = s.mks ∧ (∀ k, k ≠ n → t.slot k = s.slot k) ∧ t.result = s.result ∧
    ∀ a, Memory.get a t.buf = Memory.get a s.buf

/-- Frame of ENCRYPT and DECRYPT (43_crypter.md R270, R275, R276): only STATUS, RESULT, the command's slot but not
its key, cipher, backend or nonce mode, and the output region at DST_OFF may change; the region has SRC_LEN + 16
bytes for ENCRYPT and SRC_LEN - 16 for DECRYPT. -/
def Obligations.CrypterFrame : Prop :=
  ∀ (i : Instr) (n out : Nat) (s t : State),
    ((i = .encrypt n ∧ out = s.srcLen.toNat + 16) ∨ (i = .decrypt n ∧ out = s.srcLen.toNat - 16)) →
    exec i s = .next t →
    t.mks = s.mks ∧ (∀ k, k ≠ n → t.slot k = s.slot k) ∧ t.status.fatal = s.status.fatal ∧
    ((t.slot n).key = (s.slot n).key ∧ (t.slot n).keyLen = (s.slot n).keyLen ∧
      (t.slot n).cipher = (s.slot n).cipher ∧ (t.slot n).backend = (s.slot n).backend ∧
      (t.slot n).nmode = (s.slot n).nmode ∧ (t.slot n).nlen = (s.slot n).nlen) ∧
    ∀ a, a < s.dstOff.toNat ∨ s.dstOff.toNat + out ≤ a → Memory.get a t.buf = Memory.get a s.buf

/-- 43_crypter.md R283: no command on one slot reads or writes another slot's state. Replacing another slot's
contents before the command is the same as replacing them after it. -/
def Obligations.SlotsAreIndependent : Prop :=
  ∀ (i : Instr) (s : State) (j : Nat) (sl : Slot), slotOf i ≠ some j →
    exec i (s.setSlot j sl) = mapNext (fun t => t.setSlot j sl) (exec i s)

/-! ## Registry -/

/-- 10_state.md R31, R32: the registry's five rows, no entry for codes 5, 6, 7, and the registry's invariants. -/
def Obligations.RegistryTable : Prop :=
  (allCiphers.map fun c => ((cipherCode c : Nat), cipherName c, keySize c, saltSize c, nonceSize c, tagSize c,
      cipherFamily c)) =
    [(0, ascii "aes-128-gcm", 16, 16, 12, 16, .gcm),
     (1, ascii "aes-192-gcm", 24, 24, 12, 16, .gcm),
     (2, ascii "aes-256-gcm", 32, 32, 12, 16, .gcm),
     (3, ascii "chacha20-ietf-poly1305", 32, 32, 12, 16, .chacha),
     (4, ascii "xchacha20-ietf-poly1305", 32, 32, 24, 16, .chacha)] ∧
  (∀ c, cipherOfCode (cipherCode c) = some c) ∧ cipherOfCode 5 = none ∧ cipherOfCode 6 = none ∧
  cipherOfCode 7 = none ∧
  (∀ c : Cipher, keySize c = saltSize c ∧ tagSize c = 16 ∧ (nonceSize c = 12 ∨ nonceSize c = 24) ∧
    (nonceSize c = 24 ↔ (cipherCode c : Nat) = 4))

/-- 40_registry.md R150: PARSE on a block that is not FATAL, in every case: the exact name of cipher c gives c's
code in RESULT. -/
def Obligations.ParseByExactName : Prop :=
  Encoding 0x00000001 0xFFFFFFFF (fun _ => .parse) ∧
  ∀ s : State, s.status.fatal = false →
    (s.build.bufSize < s.srcOff.toNat + s.srcLen.toNat → exec .parse s = .next (raised s .range)) ∧
    (∀ c, s.srcOff.toNat + s.srcLen.toNat ≤ s.build.bufSize →
      s.buf.read s.srcOff.toNat s.srcLen.toNat = some (cipherName c) →
      exec .parse s = .next (completed { s with result := BitVec.ofNat 32 (cipherCode c) })) ∧
    (∀ nm, s.srcOff.toNat + s.srcLen.toNat ≤ s.build.bufSize →
      s.buf.read s.srcOff.toNat s.srcLen.toNat = some nm → (∀ c, nm ≠ cipherName c) →
      exec .parse s = .next (raised s .unknownCipher)) ∧
    (s.srcOff.toNat + s.srcLen.toNat ≤ s.build.bufSize → s.buf.read s.srcOff.toNat s.srcLen.toNat = none →
      exec .parse s = .fault .uninitInput)

/-- 40_registry.md R151: NAME_OF on a block that is not FATAL, in every case. -/
def Obligations.NameOfWritesName : Prop :=
  Encoding 0x00000002 0xFFFF8FFF (fun w => .nameOf (cipherField w)) ∧
  ∀ (s : State) (code : Nat), s.status.fatal = false →
    (5 ≤ code → exec (.nameOf code) s = .next (raised s .unknownCipher)) ∧
    (∀ c, cipherOfCode code = some c → s.build.bufSize < s.dstOff.toNat + (cipherName c).length →
      exec (.nameOf code) s = .next (raised s .range)) ∧
    (∀ c, cipherOfCode code = some c → s.dstOff.toNat + (cipherName c).length ≤ s.build.bufSize →
      exec (.nameOf code) s = .next (completed
        { s with
          buf := s.buf.write s.dstOff.toNat (cipherName c)
          result := BitVec.ofNat 32 (cipherName c).length }))

/-- 40_registry.md R152: SPEC_OF packs key, salt, nonce and tag size into bytes 0 to 3 of RESULT; codes 5 and above
raise E_UNKNOWN_CIPHER; it reads no buffer and no operand register, so no other condition enters. -/
def Obligations.SpecOfPacksSpec : Prop :=
  Encoding 0x00000003 0xFFFF8FFF (fun w => .specOf (cipherField w)) ∧
  ∀ (s : State) (code : Nat), s.status.fatal = false →
    (5 ≤ code → exec (.specOf code) s = .next (raised s .unknownCipher)) ∧
    (∀ c, cipherOfCode code = some c → ∃ w : Word,
      exec (.specOf code) s = .next (completed { s with result := w }) ∧
      w.extractLsb' 0 8 = BitVec.ofNat 8 (keySize c) ∧ w.extractLsb' 8 8 = BitVec.ofNat 8 (saltSize c) ∧
      w.extractLsb' 16 8 = BitVec.ofNat 8 (nonceSize c) ∧ w.extractLsb' 24 8 = BitVec.ofNat 8 (tagSize c))

/-- 40_registry.md R154: PARSE is a left inverse of NAME_OF. NAME_OF writes name(c) at DST_OFF; with SRC_OFF then set
to DST_OFF and SRC_LEN to RESULT, PARSE completes with OK and RESULT = c. -/
def Obligations.ParseInvertsNameOf : Prop :=
  ∀ (s : State) (c : Cipher), s.status.fatal = false → s.dstOff.toNat + (cipherName c).length ≤ s.build.bufSize →
    ∃ t, exec (.nameOf (cipherCode c)) s = .next t ∧
      exec .parse { t with srcOff := s.dstOff, srcLen := t.result } =
        .next (completed { t with srcOff := s.dstOff, srcLen := t.result, result := BitVec.ofNat 32 (cipherCode c) })

/-! ## Key derivation -/

/-- 41_key_derivation.md R182: MK_PBKDF2 on a block that is not FATAL, with MK and CIPHER in range, in every case:
PBKDF2 with 1000 iterations over SHA256 of the build, key_size(c) bytes. -/
def Obligations.MkPbkdf2DerivesKey : Prop :=
  Encoding 0x00000010 0xFFF08FFF (fun w => .mkPbkdf2 (mkField w) (cipherField w)) ∧
  ∀ (s : State) (m code : Nat) (c : Cipher), s.status.fatal = false → m < s.build.numMk → cipherOfCode code = some c →
    ((s.master m).valid = true → exec (.mkPbkdf2 m code) s = .next (raised s .mkState)) ∧
    ((s.master m).valid = false →
      (s.build.bufSize < s.srcOff.toNat + s.srcLen.toNat ∨ s.build.bufSize < s.auxOff.toNat + s.auxLen.toNat) →
      exec (.mkPbkdf2 m code) s = .next (raised s .range)) ∧
    ((s.master m).valid = false → s.srcOff.toNat + s.srcLen.toNat ≤ s.build.bufSize →
      s.auxOff.toNat + s.auxLen.toNat ≤ s.build.bufSize →
      (s.buf.read s.srcOff.toNat s.srcLen.toNat = none ∨ s.buf.read s.auxOff.toNat s.auxLen.toNat = none) →
      exec (.mkPbkdf2 m code) s = .fault .uninitInput) ∧
    (∀ password salt, (s.master m).valid = false → s.srcOff.toNat + s.srcLen.toNat ≤ s.build.bufSize →
      s.auxOff.toNat + s.auxLen.toNat ≤ s.build.bufSize →
      s.buf.read s.srcOff.toNat s.srcLen.toNat = some password →
      s.buf.read s.auxOff.toNat s.auxLen.toNat = some salt →
      exec (.mkPbkdf2 m code) s = .next (completed
        { s with
          mks := s.mks.setIfInBounds m
            ⟨true, .pbkdf2, BitVec.ofNat 6 (keySize c),
              fit 32 (pbkdf2 (hashSha256 s.prims) password salt 1000 (keySize c))⟩ }))

/-- 41_key_derivation.md R190: MK_LEGACY on a block that is not FATAL, with MK and CIPHER in range, in every case; the
key is the first key_size(c) bytes of D1 || D2 (R189). -/
def Obligations.MkLegacyDerivesKey : Prop :=
  Encoding 0x00000011 0xFFF08FFF (fun w => .mkLegacy (mkField w) (cipherField w)) ∧
  ∀ (s : State) (m code : Nat) (c : Cipher), s.status.fatal = false → m < s.build.numMk → cipherOfCode code = some c →
    ((s.master m).valid = true → exec (.mkLegacy m code) s = .next (raised s .mkState)) ∧
    ((s.master m).valid = false → s.build.bufSize < s.srcOff.toNat + s.srcLen.toNat →
      exec (.mkLegacy m code) s = .next (raised s .range)) ∧
    ((s.master m).valid = false → s.srcOff.toNat + s.srcLen.toNat ≤ s.build.bufSize →
      s.buf.read s.srcOff.toNat s.srcLen.toNat = none → exec (.mkLegacy m code) s = .fault .uninitInput) ∧
    (∀ password, (s.master m).valid = false → s.srcOff.toNat + s.srcLen.toNat ≤ s.build.bufSize →
      s.buf.read s.srcOff.toNat s.srcLen.toNat = some password →
      exec (.mkLegacy m code) s = .next (completed
        { s with
          mks := s.mks.setIfInBounds m
            ⟨true, .legacy, BitVec.ofNat 6 (keySize c),
              fit 32 (((s.prims.md5 password).toList ++
                (s.prims.md5 ((s.prims.md5 password).toList ++ password)).toList).take (keySize c))⟩ }))

/-- 41_key_derivation.md R191: the prefix property of LEGACY_MD5, for every hash of 16 bytes. -/
def Obligations.LegacyPrefixProperty : Prop :=
  ∀ (H : Hash) (P : List Byte) (L L' : Nat), (∀ m, (H m).length = 16) → L ≤ L' → L' ≤ 32 →
    legacyMd5 H P L = (legacyMd5 H P L').take L ∧ (legacyMd5 H P L).length = L

/-- 41_key_derivation.md R194: MK_CLEAR on a block that is not FATAL, in every case. -/
def Obligations.MkClearZeroes : Prop :=
  Encoding 0x00000012 0xFFF0FFFF (fun w => .mkClear (mkField w)) ∧
  ∀ (s : State) (m : Nat), s.status.fatal = false →
    (s.build.numMk ≤ m → exec (.mkClear m) s = .next (raised s .range)) ∧
    (m < s.build.numMk → exec (.mkClear m) s = .next (completed
      { s with mks := s.mks.setIfInBounds m ⟨false, .pbkdf2, 0, Vector.replicate 32 0⟩ }))

/-- 10_state.md R40, 41_key_derivation.md R182, R190: a valid master key changes only by MK_CLEAR of its register, and
a command other than MK_PBKDF2, MK_LEGACY and MK_CLEAR changes no master-key register. -/
def Obligations.MasterKeyIsWriteOnce : Prop :=
  (∀ (i : Instr) (s t : State) (m : Nat), exec i s = .next t → (s.master m).valid = true → i ≠ .mkClear m →
    t.master m = s.master m) ∧
  (∀ (i : Instr) (s t : State), exec i s = .next t → (∀ m c, i ≠ .mkPbkdf2 m c) → (∀ m c, i ≠ .mkLegacy m c) →
    (∀ m, i ≠ .mkClear m) → t.mks = s.mks)

/-- 41_key_derivation.md R200: SUBKEY on a block that is not FATAL, with SLOT, MK and CIPHER in range, in every case,
the errors in the rule's order. -/
def Obligations.SubkeyDerivesSlotKey : Prop :=
  Encoding 0x00000018 0xFFE080FF (fun w =>
    .subkey (slotField w) (mkField w) (cipherField w) (if w.getLsbD 20 then .sha1 else .sha256)) ∧
  ∀ (s : State) (n m code : Nat) (c : Cipher) (d : Digest), s.status.fatal = false → n < s.build.numSlots →
    m < s.build.numMk → cipherOfCode code = some c →
    ((s.slot n).st ≠ .free → exec (.subkey n m code d) s = .next (raised s .slotState)) ∧
    ((s.slot n).st = .free → (s.master m).valid = false →
      exec (.subkey n m code d) s = .next (raised s .mkState)) ∧
    ((s.slot n).st = .free → (s.master m).valid = true → s.srcLen.toNat ≠ saltSize c →
      exec (.subkey n m code d) s = .next (raised s .len)) ∧
    ((s.slot n).st = .free → (s.master m).valid = true → s.srcLen.toNat = saltSize c →
      s.build.bufSize < s.srcOff.toNat + s.srcLen.toNat →
      exec (.subkey n m code d) s = .next (raised s .range)) ∧
    ((s.slot n).st = .free → (s.master m).valid = true → s.srcLen.toNat = saltSize c →
      s.srcOff.toNat + s.srcLen.toNat ≤ s.build.bufSize → (s.master m).len.toNat ≠ keySize c →
      exec (.subkey n m code d) s = .next (raised s .keyLen)) ∧
    ((s.slot n).st = .free → (s.master m).valid = true → s.srcLen.toNat = saltSize c →
      s.srcOff.toNat + s.srcLen.toNat ≤ s.build.bufSize → (s.master m).len.toNat = keySize c →
      s.buf.read s.srcOff.toNat s.srcLen.toNat = none →
      exec (.subkey n m code d) s = .fault .uninitInput) ∧
    (∀ salt, (s.slot n).st = .free → (s.master m).valid = true → s.srcLen.toNat = saltSize c →
      s.srcOff.toNat + s.srcLen.toNat ≤ s.build.bufSize → (s.master m).len.toNat = keySize c →
      s.buf.read s.srcOff.toNat s.srcLen.toNat = some salt →
      exec (.subkey n m code d) s = .next (completed
        { s with
          slots := s.slots.setIfInBounds n
            { s.slot n with
              st := .keyed
              keyLen := BitVec.ofNat 6 (keySize c)
              key := fit 32 (match d with
                | .sha256 => hkdf (hashSha256 s.prims) 32 salt ((s.master m).key.toList.take (keySize c))
                    (ascii "ss-subkey") (keySize c)
                | .sha1 => hkdf (hashSha1 s.prims) 20 salt ((s.master m).key.toList.take (keySize c))
                    (ascii "ss-subkey") (keySize c)) } }))

/-- 41_key_derivation.md R201: HKDF determinism. In builds with the same functions, two completed SUBKEYs with the
same master key, salt, cipher and digest load the same key and key length, whatever else the two states, registers
and slots hold. -/
def Obligations.SubkeyIsDeterministic : Prop :=
  ∀ (s s' t t' : State) (n n' m m' code : Nat) (d : Digest), n < 16 → n' < 16 →
    s.build.provider = s'.build.provider → (s.master m).key = (s'.master m').key → s.src = s'.src →
    exec (.subkey n m code d) s = .next t → t.status.errcode = .ok →
    exec (.subkey n' m' code d) s' = .next t' → t'.status.errcode = .ok →
    (t.slot n).key = (t'.slot n').key ∧ (t.slot n).keyLen = (t'.slot n').keyLen

/-- 41_key_derivation.md R210: LOAD_KEY on a block that is not FATAL, with SLOT in range, in every case. -/
def Obligations.LoadKeyLoadsBytes : Prop :=
  Encoding 0x00000019 0xFFFFF0FF (fun w => .loadKey (slotField w)) ∧
  ∀ (s : State) (n : Nat), s.status.fatal = false → n < s.build.numSlots →
    ((s.slot n).st ≠ .free → exec (.loadKey n) s = .next (raised s .slotState)) ∧
    ((s.slot n).st = .free → 32 < s.srcLen.toNat → exec (.loadKey n) s = .next (raised s .len)) ∧
    ((s.slot n).st = .free → s.srcLen.toNat ≤ 32 → s.build.bufSize < s.srcOff.toNat + s.srcLen.toNat →
      exec (.loadKey n) s = .next (raised s .range)) ∧
    ((s.slot n).st = .free → s.srcLen.toNat ≤ 32 → s.srcOff.toNat + s.srcLen.toNat ≤ s.build.bufSize →
      s.buf.read s.srcOff.toNat s.srcLen.toNat = none → exec (.loadKey n) s = .fault .uninitInput) ∧
    (∀ key, (s.slot n).st = .free → s.srcLen.toNat ≤ 32 → s.srcOff.toNat + s.srcLen.toNat ≤ s.build.bufSize →
      s.buf.read s.srcOff.toNat s.srcLen.toNat = some key →
      exec (.loadKey n) s = .next (completed
        { s with
          slots := s.slots.setIfInBounds n
            { s.slot n with st := .keyed, keyLen := BitVec.ofNat 6 s.srcLen.toNat, key := fit 32 key } }))

/-! ## Selector -/

/-- 42_selector.md R234: CREATE on a block that is not FATAL, with SLOT and CIPHER in range, in every case, the errors
in the rule's order. -/
def Obligations.CreateBindsSlot : Prop :=
  Encoding 0x00000020 0xFFFF00FF (fun w =>
    .create (slotField w) (cipherField w) (if w.getLsbD 15 then .zero else .sequential)) ∧
  ∀ (s : State) (n code : Nat) (c : Cipher) (mode : NonceMode), s.status.fatal = false → n < s.build.numSlots →
    cipherOfCode code = some c →
    ((s.slot n).st ≠ .keyed → exec (.create n code mode) s = .next (raised s .slotState)) ∧
    ((s.slot n).st = .keyed → (backendKeyLen s.build c ≠ keySize c ∨ backendNonceLen s.build c ≠ nonceSize c) →
      exec (.create n code mode) s = .next { s with status := ⟨false, true, true, .invariant⟩ }) ∧
    ((s.slot n).st = .keyed → backendKeyLen s.build c = keySize c → backendNonceLen s.build c = nonceSize c →
      (s.slot n).keyLen.toNat ≠ keySize c → exec (.create n code mode) s = .next (raised s .keyLen)) ∧
    ((s.slot n).st = .keyed → backendKeyLen s.build c = keySize c → backendNonceLen s.build c = nonceSize c →
      (s.slot n).keyLen.toNat = keySize c →
      exec (.create n code mode) s = .next (completed
        { s with
          slots := s.slots.setIfInBounds n
            { s.slot n with
              st := .active, cipher := c, backend := cipherFamily c, nmode := mode, dir := .none,
              nonce := Vector.replicate 24 0, nlen := BitVec.ofNat 5 (nonceSize c) } }))

/-- 42_selector.md R240: RELEASE in every case and every slot state; a FATAL block raises E_FATAL and keeps the key. -/
def Obligations.ReleaseZeroes : Prop :=
  Encoding 0x00000021 0xFFFFF0FF (fun w => .release (slotField w)) ∧
  ∀ (s : State) (n : Nat),
    (s.status.fatal = true → exec (.release n) s = .next (raised s .fatal)) ∧
    (s.status.fatal = false → s.build.numSlots ≤ n → exec (.release n) s = .next (raised s .range)) ∧
    (s.status.fatal = false → n < s.build.numSlots → exec (.release n) s = .next (completed
      { s with
        slots := s.slots.setIfInBounds n
          ⟨.free, .aes128Gcm, .gcm, .sequential, .none, 0, Vector.replicate 32 0, Vector.replicate 24 0, 0⟩ }))

/-- 42_selector.md R231, R232, 60_exceptions.md R303: in a conforming build no step ever sets FATAL. -/
def Obligations.ConformingBuildNeverFatal : Prop :=
  ∀ s t : State, ConformingBuild s.build → s.status.fatal = false → step s = .next t → t.status.fatal = false

/-! ## Crypter -/

/-- 43_crypter.md R270: ENCRYPT on a block that is not FATAL, with SLOT in range, in every case, the errors in the
rule's order. The output is computed from the buffer as it was (20_memory.md R90). -/
def Obligations.EncryptSealsChunk : Prop :=
  Encoding 0x00000030 0xFFFFF0FF (fun w => .encrypt (slotField w)) ∧
  ∀ (s : State) (n : Nat), s.status.fatal = false → n < s.build.numSlots →
    ((s.slot n).st = .free ∨ (s.slot n).st = .keyed ∨ (s.slot n).st = .failed →
      exec (.encrypt n) s = .next (raised s .slotState)) ∧
    ((s.slot n).st = .exhausted → exec (.encrypt n) s = .next (raised s .nonceExhausted)) ∧
    ((s.slot n).st = .active → (s.slot n).dir = .dec → exec (.encrypt n) s = .next (raised s .direction)) ∧
    ((s.slot n).st = .active → (s.slot n).dir ≠ .dec →
      (s.build.bufSize < s.srcOff.toNat + s.srcLen.toNat ∨
        s.build.bufSize < s.dstOff.toNat + (s.srcLen.toNat + 16)) →
      exec (.encrypt n) s = .next (raised s .range)) ∧
    ((s.slot n).st = .active → (s.slot n).dir ≠ .dec → s.srcOff.toNat + s.srcLen.toNat ≤ s.build.bufSize →
      s.dstOff.toNat + (s.srcLen.toNat + 16) ≤ s.build.bufSize →
      s.buf.read s.srcOff.toNat s.srcLen.toNat = none → exec (.encrypt n) s = .fault .uninitInput) ∧
    (∀ p, (s.slot n).st = .active → (s.slot n).dir ≠ .dec → s.srcOff.toNat + s.srcLen.toNat ≤ s.build.bufSize →
      s.dstOff.toNat + (s.srcLen.toNat + 16) ≤ s.build.bufSize →
      s.buf.read s.srcOff.toNat s.srcLen.toNat = some p →
      exec (.encrypt n) s = .next (completed
        { s with
          buf := s.buf.write s.dstOff.toNat
            (s.prims.aeadSeal (s.slot n).cipher ((s.slot n).key.toList.take (s.slot n).keyLen.toNat)
              ((s.slot n).nonce.toList.take (s.slot n).nlen.toNat) [] p).toList
          result := BitVec.ofNat 32 (s.srcLen.toNat + 16)
          slots := s.slots.setIfInBounds n (Slot.nonceAdvance { s.slot n with dir := .enc }) }))

/-- 43_crypter.md R275, R276: DECRYPT on a block that is not FATAL, with SLOT in range, in every case, the errors in
the rule's order; `opened` is AEAD_OPEN's answer on the slot's cipher, key and nonce with empty associated data. -/
def Obligations.DecryptOpensChunk : Prop :=
  Encoding 0x00000031 0xFFFFF0FF (fun w => .decrypt (slotField w)) ∧
  ∀ (s : State) (n : Nat), s.status.fatal = false → n < s.build.numSlots →
    ((s.slot n).st = .free ∨ (s.slot n).st = .keyed ∨ (s.slot n).st = .failed →
      exec (.decrypt n) s = .next (raised s .slotState)) ∧
    ((s.slot n).st = .exhausted → exec (.decrypt n) s = .next (raised s .nonceExhausted)) ∧
    ((s.slot n).st = .active → (s.slot n).dir = .enc → exec (.decrypt n) s = .next (raised s .direction)) ∧
    ((s.slot n).st = .active → (s.slot n).dir ≠ .enc → s.srcLen.toNat < 16 →
      exec (.decrypt n) s = .next (raised
        { s with slots := s.slots.setIfInBounds n { s.slot n with dir := .dec, st := .failed } } .auth)) ∧
    ((s.slot n).st = .active → (s.slot n).dir ≠ .enc → 16 ≤ s.srcLen.toNat →
      (s.build.bufSize < s.srcOff.toNat + s.srcLen.toNat ∨
        s.build.bufSize < s.dstOff.toNat + (s.srcLen.toNat - 16)) →
      exec (.decrypt n) s = .next (raised s .range)) ∧
    ((s.slot n).st = .active → (s.slot n).dir ≠ .enc → 16 ≤ s.srcLen.toNat →
      s.srcOff.toNat + s.srcLen.toNat ≤ s.build.bufSize → s.dstOff.toNat + (s.srcLen.toNat - 16) ≤ s.build.bufSize →
      s.buf.read s.srcOff.toNat s.srcLen.toNat = none → exec (.decrypt n) s = .fault .uninitInput) ∧
    (∀ t, (s.slot n).st = .active → (s.slot n).dir ≠ .enc → 16 ≤ s.srcLen.toNat →
      s.srcOff.toNat + s.srcLen.toNat ≤ s.build.bufSize → s.dstOff.toNat + (s.srcLen.toNat - 16) ≤ s.build.bufSize →
      s.buf.read s.srcOff.toNat s.srcLen.toNat = some t →
      s.prims.aeadOpen (s.slot n).cipher ((s.slot n).key.toList.take (s.slot n).keyLen.toNat)
        ((s.slot n).nonce.toList.take (s.slot n).nlen.toNat) [] t = none →
      exec (.decrypt n) s = .next (raised
        { s with
          buf := s.buf.kill s.dstOff.toNat (s.srcLen.toNat - 16)
          slots := s.slots.setIfInBounds n { s.slot n with dir := .dec, st := .failed } } .auth)) ∧
    (∀ t r, (s.slot n).st = .active → (s.slot n).dir ≠ .enc → 16 ≤ s.srcLen.toNat →
      s.srcOff.toNat + s.srcLen.toNat ≤ s.build.bufSize → s.dstOff.toNat + (s.srcLen.toNat - 16) ≤ s.build.bufSize →
      s.buf.read s.srcOff.toNat s.srcLen.toNat = some t →
      (s.prims.aeadOpen (s.slot n).cipher ((s.slot n).key.toList.take (s.slot n).keyLen.toNat)
        ((s.slot n).nonce.toList.take (s.slot n).nlen.toNat) [] t).map (·.toList) = some r →
      exec (.decrypt n) s = .next (completed
        { s with
          buf := s.buf.write s.dstOff.toNat r
          result := BitVec.ofNat 32 (s.srcLen.toNat - 16)
          slots := s.slots.setIfInBounds n (Slot.nonceAdvance { s.slot n with dir := .dec }) }))

/-- 43_crypter.md R276: after a DECRYPT that ends with E_AUTH the slot is FAILED and DEC with its nonce as it was, and
RESULT is as it was; the output region's bytes hold no value (none for an input shorter than the tag) and every other
byte is as it was. The slot then accepts only RELEASE and EXPECTED_LEN: every other command on it ends with an error
and no other effect, ENCRYPT and DECRYPT with E_SLOT_STATE. -/
def Obligations.AuthFailureKillsSlot : Prop :=
  ∀ (s t : State) (n : Nat), n < 16 → exec (.decrypt n) s = .next t → t.status.errcode = .auth →
    (t.slot n).st = .failed ∧ (t.slot n).dir = .dec ∧ (t.slot n).nonce = (s.slot n).nonce ∧ t.result = s.result ∧
    (∀ a, Memory.get a t.buf =
      if s.dstOff.toNat ≤ a ∧ a < s.dstOff.toNat + (s.srcLen.toNat - 16) then none else Memory.get a s.buf) ∧
    exec (.encrypt n) t = .next (raised t .slotState) ∧ exec (.decrypt n) t = .next (raised t .slotState) ∧
    (∀ i, slotOf i = some n → i ≠ .release n → i ≠ .expectedLen n →
      ∃ e, e ≠ .ok ∧ exec i t = .next (raised t e)) ∧
    (∃ u, exec (.release n) t = .next u ∧ u.status.errcode = .ok) ∧
    (t.srcLen.toNat ≤ 0xFFFFFFEF → ∃ u, exec (.expectedLen n) t = .next u ∧ u.status.errcode = .ok)

/-- 43_crypter.md R280: EXPECTED_LEN on a block that is not FATAL, with SLOT in range, in every case; SRC_OFF, buffer,
nonce and direction do not enter. -/
def Obligations.ExpectedLenAddsTag : Prop :=
  Encoding 0x00000032 0xFFFFF0FF (fun w => .expectedLen (slotField w)) ∧
  ∀ (s : State) (n : Nat), s.status.fatal = false → n < s.build.numSlots →
    ((s.slot n).st = .free ∨ (s.slot n).st = .keyed →
      exec (.expectedLen n) s = .next (raised s .slotState)) ∧
    ((s.slot n).st = .active ∨ (s.slot n).st = .failed ∨ (s.slot n).st = .exhausted → 0xFFFFFFEF < s.srcLen.toNat →
      exec (.expectedLen n) s = .next (raised s .len)) ∧
    ((s.slot n).st = .active ∨ (s.slot n).st = .failed ∨ (s.slot n).st = .exhausted → s.srcLen.toNat ≤ 0xFFFFFFEF →
      exec (.expectedLen n) s = .next (completed { s with result := s.srcLen + 16 }) ∧
      (s.srcLen + 16).toNat = s.srcLen.toNat + 16)

/-- 43_crypter.md R266: NonceAdvance. Zero mode changes nothing; at the largest value only ST changes, to EXHAUSTED;
otherwise only the nonce changes, its low NLEN bytes to the little-endian string of its value plus one. The carry runs
across every byte. -/
def Obligations.NonceAdvanceAddsOne : Prop :=
  ∀ sl : Slot, sl.nlen.toNat ≤ 24 →
    (sl.nmode = .zero → sl.nonceAdvance = sl) ∧
    (sl.nmode = .sequential → le (sl.nonce.toList.take sl.nlen.toNat) = 256 ^ sl.nlen.toNat - 1 →
      sl.nonceAdvance = { sl with st := .exhausted }) ∧
    (sl.nmode = .sequential → le (sl.nonce.toList.take sl.nlen.toNat) ≠ 256 ^ sl.nlen.toNat - 1 →
      sl.nonceAdvance = { sl with nonce := sl.nonceAdvance.nonce } ∧
      sl.nonceAdvance.nonce.toList.take sl.nlen.toNat =
        leBytes (le (sl.nonce.toList.take sl.nlen.toNat) + 1) sl.nlen.toNat ∧
      le (sl.nonceAdvance.nonce.toList.take sl.nlen.toNat) = le (sl.nonce.toList.take sl.nlen.toNat) + 1 ∧
      sl.nonceAdvance.nonce.toList.drop sl.nlen.toNat = sl.nonce.toList.drop sl.nlen.toNat) ∧
    (sl.nmode = .sequential → sl.nlen = 12 →
      sl.nonce.toList.take 12 = [0xFF, 0xFF, 0xFF, 0xFF, 0, 0, 0, 0, 0, 0, 0, 0] →
      sl.nonceAdvance.nonce.toList.take 12 = [0, 0, 0, 0, 1, 0, 0, 0, 0, 0, 0, 0])

/-- 43_crypter.md R281: the nonce sequence law. In a slot just created in Sequential mode, after k advances, k below
256^NLEN, the nonce is the little-endian string of k and the slot is still ACTIVE; in Zero mode it is all zero, always.
(`EncryptSealsChunk` and `DecryptOpensChunk` say that each completed call passes the slot's nonce and advances once.) -/
def Obligations.NonceSequence : Prop :=
  (∀ (sl : Slot) (c : Cipher) (k : Nat), k < 256 ^ nonceSize c →
    ((Slot.nonceAdvance^[k]) (sl.created c .sequential)).nonceBytes = leBytes k (nonceSize c) ∧
    ((Slot.nonceAdvance^[k]) (sl.created c .sequential)).st = .active) ∧
  (∀ (sl : Slot) (c : Cipher) (k : Nat),
    ((Slot.nonceAdvance^[k]) (sl.created c .zero)).nonceBytes = List.replicate (nonceSize c) 0 ∧
    ((Slot.nonceAdvance^[k]) (sl.created c .zero)).st = .active)

/-- 10_state.md R46, 43_crypter.md R265: the direction of a crypter never changes, by any command but RELEASE of its
slot, once it is set. -/
def Obligations.DirectionIsFixed : Prop :=
  ∀ (i : Instr) (s t : State) (n : Nat), exec i s = .next t → i ≠ .release n →
    ((s.slot n).st = .active ∨ (s.slot n).st = .failed ∨ (s.slot n).st = .exhausted) → (s.slot n).dir ≠ .none →
    (t.slot n).dir = (s.slot n).dir

/-- 43_crypter.md R282 for one chunk, under T3 (R262) for the slots' cipher, key and nonce: what a sender's ENCRYPT
writes, a receiver's DECRYPT opens to the same plaintext with OK, and the two slots hold the same crypter again. -/
def Obligations.RoundTripOneChunk : Prop :=
  ∀ (s r : State) (a b : Nat) (p : List Byte), a < 16 → b < 16 → s.status.fatal = false → r.status.fatal = false →
    s.build.provider = r.build.provider → a < s.build.numSlots → b < r.build.numSlots →
    (s.slot a).st = .active → (r.slot b).st = .active → (s.slot a).dir ≠ .dec → (r.slot b).dir ≠ .enc →
    SameCrypter (s.slot a) (r.slot b) →
    RoundTrips s.prims (s.slot a).cipher (s.slot a).keyBytes (s.slot a).nonceBytes →
    s.srcOff.toNat + s.srcLen.toNat ≤ s.build.bufSize → s.dstOff.toNat + (s.srcLen.toNat + 16) ≤ s.build.bufSize →
    s.buf.read s.srcOff.toNat s.srcLen.toNat = some p →
    ∃ t, exec (.encrypt a) s = .next t ∧ t.status.errcode = .ok ∧
      (r.srcLen.toNat = p.length + 16 → r.srcOff.toNat + r.srcLen.toNat ≤ r.build.bufSize →
        r.dstOff.toNat + p.length ≤ r.build.bufSize →
        r.buf.read r.srcOff.toNat r.srcLen.toNat = t.buf.read s.dstOff.toNat (p.length + 16) →
        ∃ u, exec (.decrypt b) r = .next u ∧ u.status.errcode = .ok ∧ u.result = BitVec.ofNat 32 p.length ∧
          u.buf.read r.dstOff.toNat p.length = some p ∧ SameCrypter (t.slot a) (u.slot b) ∧
          (t.slot a).st = (u.slot b).st)

/-- 43_crypter.md R282 for any number of chunks, under T3 (R262) for the slots' cipher and key and every nonce of
nonce_size bytes. Two ACTIVE slots hold the same crypter, bound to its cipher's key and nonce size; the outputs of the
successful ENCRYPTs on the one go, in order and unmodified, to DECRYPTs on the other, with no other ENCRYPT or DECRYPT
on either (`Connection`). Then at every chunk both slots are ACTIVE and hold the same crypter, and the DECRYPT
completes with OK and the plaintext that the ENCRYPT sealed. -/
def Obligations.RoundTripManyChunks : Prop :=
  ∀ (provider : Provider) (a b : Nat) (sl sl' : Slot) (xs : List Exchange), SameCrypter sl sl' → sl.Bound →
    sl.st = .active → sl'.st = .active → sl.dir ≠ .dec → sl'.dir ≠ .enc →
    (∀ nonce, nonce.length = sl.nlen.toNat → RoundTrips (primitivesOf provider) sl.cipher sl.keyBytes nonce) →
    Connection provider a b sl sl' xs →
    ∀ x ∈ xs, (x.sender.slot a).st = .active ∧ (x.receiver.slot b).st = .active ∧
      SameCrypter (x.sender.slot a) (x.receiver.slot b) ∧
      ∃ p u, x.sender.buf.read x.sender.srcOff.toNat x.sender.srcLen.toNat = some p ∧
        exec (.decrypt b) x.receiver = .next u ∧ u.status.errcode = .ok ∧ u.result = BitVec.ofNat 32 p.length ∧
        u.buf.read x.receiver.dstOff.toNat p.length = some p ∧ SameCrypter (x.sent.slot a) (u.slot b) ∧
        (x.sent.slot a).st = (u.slot b).st

/-! ## The MMIO window -/

/-- 70_reset_and_hazards.md R350: while BUSY = 1 a 32-bit read of STATUS, ID or BUFSZ answers and changes nothing
else; every other access is the fault HAZARD_BUSY (a narrower or misaligned access too: the model's reading, log 5). -/
def Obligations.BusyHazard : Prop :=
  ∀ s : State, s.status.busy = true →
    hostAccess (.r32 0x008) s = .next { s with answer := some (statusWord s.status) } ∧
    hostAccess (.r32 0x000) s = .next { s with answer := some (idWord s.build) } ∧
    hostAccess (.r32 0x024) s = .next { s with answer := some (bufszWord s.build) } ∧
    ∀ a, a ≠ .r32 0x008 → a ≠ .r32 0x000 → a ≠ .r32 0x024 → hostAccess a s = .fault .hazardBusy

/-- 20_memory.md R84, R85: the access faults while BUSY = 0, and that every other access to the register region
answers. The order where two faults apply is the model's (log 6, log 7). -/
def Obligations.AccessFaults : Prop :=
  ∀ (s : State) (a : Access), s.status.busy = false →
    (a.offset < 0x1000 → a.width ≠ 4 ∨ a.offset % 4 ≠ 0 → hostAccess a s = .fault .busWidth) ∧
    (a.offset < 0x1000 → a.width = 4 → a.offset % 4 = 0 →
      if (0x028 ≤ a.offset ∧ a.offset < 0x040) ∨
          (0x040 ≤ a.offset ∧ a.offset < 0x080 ∧ s.build.numSlots ≤ (a.offset - 0x040) / 4) ∨
          (0x080 ≤ a.offset ∧ a.offset < 0x0C0 ∧ s.build.numMk ≤ (a.offset - 0x080) / 4) ∨
          (0x0C0 ≤ a.offset ∧ a.offset < 0x100) ∨
          (0x100 ≤ a.offset ∧ a.offset < 0x300 ∧ s.build.numSlots ≤ (a.offset - 0x100) / 0x20) ∨
          0x300 ≤ a.offset
      then hostAccess a s = .fault .busUnmapped
      else ∃ t, hostAccess a s = .next t) ∧
    (0x1000 + s.build.bufSize ≤ a.offset → hostAccess a s = .fault .busUnmapped) ∧
    (0x1000 ≤ a.offset → a.offset < 0x1000 + s.build.bufSize → a.offset % a.width ≠ 0 →
      hostAccess a s = .fault .busAlign)

/-- 20_memory.md R82, R86: a naturally aligned buffer access inside the buffer while BUSY = 0. A read gives LE of the
bytes it covers, or is the fault UNINIT_READ when one of them holds no value; a write stores LEbytes(v, width) in the
bytes it covers and changes nothing else. -/
def Obligations.BufferAccessIsLittleEndian : Prop :=
  ∀ (s : State) (a : Access), s.status.busy = false → 0x1000 ≤ a.offset → a.offset % a.width = 0 →
    a.offset + a.width ≤ 0x1000 + s.build.bufSize →
    (∀ bytes, a.data = none → s.buf.read (a.offset - 0x1000) a.width = some bytes →
      hostAccess a s = .next { s with answer := some (BitVec.ofNat 32 (le bytes)) }) ∧
    (a.data = none → s.buf.read (a.offset - 0x1000) a.width = none → hostAccess a s = .fault .uninitRead) ∧
    (∀ v, a.data = some v → ∃ m : Memory, hostAccess a s = .next { s with buf := m, answer := none } ∧
      m.read (a.offset - 0x1000) a.width = some (leBytes v a.width) ∧
      ∀ x, x < a.offset - 0x1000 ∨ a.offset - 0x1000 + a.width ≤ x → Memory.get x m = Memory.get x s.buf)

/-- 20_memory.md R92: no read has a side effect; a write other than one to CMD issues no command and is idempotent.
10_state.md R36, 60_exceptions.md R300 (a): a write of w to CMD while BUSY = 0 sets CMD and BUSY and nothing else; a
read of CMD gives the last value written. (The answer is what the bus gives the host, no state of the block: log 10.) -/
def Obligations.OnlyCmdWritesIssue : Prop :=
  (∀ (s t : State) (a : Access), a.data = none → hostAccess a s = .next t → ∃ v, t = { s with answer := some v }) ∧
  (∀ (s t : State) (a : Access), a.data ≠ none → a.offset ≠ 0x004 → hostAccess a s = .next t →
    t.status = s.status ∧ t.cmd = s.cmd ∧ hostAccess a t = .next t) ∧
  (∀ (s : State) (w : Word), s.status.busy = false →
    hostAccess (.w32 0x004 w) s =
      .next { s with cmd := w, status := { s.status with busy := true }, answer := none } ∧
    hostAccess (.r32 0x004) s = .next { s with answer := some s.cmd })

/-- 10_state.md R35: each operand register takes all 32 bits a host writes while BUSY = 0, changes nothing else, and
reads back. -/
def Obligations.OperandRegistersReadBack : Prop :=
  ∀ (s : State) (v : Word), s.status.busy = false →
    hostAccess (.w32 0x010 v) s = .next { s with srcOff := v, answer := none } ∧
    hostAccess (.w32 0x014 v) s = .next { s with srcLen := v, answer := none } ∧
    hostAccess (.w32 0x018 v) s = .next { s with dstOff := v, answer := none } ∧
    hostAccess (.w32 0x01C v) s = .next { s with auxOff := v, answer := none } ∧
    hostAccess (.w32 0x020 v) s = .next { s with auxLen := v, answer := none } ∧
    hostAccess (.r32 0x010) s = .next { s with answer := some s.srcOff } ∧
    hostAccess (.r32 0x014) s = .next { s with answer := some s.srcLen } ∧
    hostAccess (.r32 0x018) s = .next { s with answer := some s.dstOff } ∧
    hostAccess (.r32 0x01C) s = .next { s with answer := some s.auxOff } ∧
    hostAccess (.r32 0x020) s = .next { s with answer := some s.auxLen }

/-- 10_state.md R34, 20_memory.md R85: a write to a read-only register while BUSY = 0 is accepted and has no effect. -/
def Obligations.ReadOnlyWritesIgnored : Prop :=
  ∀ (s : State) (off v : Word), s.status.busy = false →
    (off = 0x000 ∨ off = 0x008 ∨ off = 0x00C ∨ off = 0x024 ∨
      (∃ n, n < s.build.numSlots ∧ n < 16 ∧ off.toNat = 0x040 + 4 * n) ∨
      (∃ m, m < s.build.numMk ∧ m < 16 ∧ off.toNat = 0x080 + 4 * m) ∨
      (∃ n w, n < s.build.numSlots ∧ n < 16 ∧ w < 8 ∧ off.toNat = 0x100 + 0x20 * n + 4 * w)) →
    hostAccess (.w32 off v) s = .next { s with answer := none }

/-- 10_state.md R37, R38, 60_exceptions.md R301: STATUS as the host reads it at 0x008 at any time, field by field, and
RESULT at 0x00C while BUSY = 0. -/
def Obligations.StatusLayout : Prop :=
  (∀ s : State, hostAccess (.r32 0x008) s = .next { s with answer := some (statusWord s.status) }) ∧
  (∀ s : State, s.status.busy = false → hostAccess (.r32 0x00C) s = .next { s with answer := some s.result }) ∧
  (∀ st : Status,
    (statusWord st).getLsbD 0 = st.busy ∧ (statusWord st).getLsbD 1 = st.err ∧ (statusWord st).getLsbD 2 = st.fatal ∧
    (statusWord st).extractLsb' 3 5 = 0 ∧ (statusWord st).extractLsb' 8 8 = errCodeValue st.errcode ∧
    (statusWord st).extractLsb' 16 16 = 0) ∧
  ([ErrCode.ok, .illegal, .unknownCipher, .range, .len, .slotState, .mkState, .keyLen, .direction, .auth,
      .nonceExhausted, .kdf, .invariant, .fatal].map errCodeValue =
    [0x00, 0x01, 0x02, 0x03, 0x04, 0x05, 0x06, 0x07, 0x08, 0x09, 0x0A, 0x0B, 0x0D, 0x0E])

/-- 10_state.md R39: ID and BUFSZ, read at any time, hold the parameters, and no step changes them. -/
def Obligations.IdAndBufszAreConstant : Prop :=
  (∀ s : State, hostAccess (.r32 0x000) s = .next { s with answer := some (idWord s.build) } ∧
    hostAccess (.r32 0x024) s = .next { s with answer := some (BitVec.ofNat 32 s.build.bufSize) }) ∧
  (∀ b : Build, b.Legal → ∀ w, w = idWord b →
    (w.extractLsb' 0 8).toNat = 5 ∧ (w.extractLsb' 8 8).toNat = b.numSlots ∧
    (w.extractLsb' 16 8).toNat = b.numMk ∧ (w.extractLsb' 24 8).toNat = 1) ∧
  idWord Build.specExample = 0x01020405 ∧
  (∀ s t : State, step s = .next t → t.build = s.build)

/-- 10_state.md R41: MK_STATUS[m] at 0x080 + 4 m, field by field; 0 at reset; the rule's example. -/
def Obligations.MkStatusLayout : Prop :=
  (∀ (s : State) (m : Nat) (off : Word), s.status.busy = false → m < s.build.numMk → m < 16 →
    off.toNat = 0x080 + 4 * m →
    hostAccess (.r32 off) s = .next { s with answer := some (mkStatusWord (s.master m)) }) ∧
  (∀ k : MasterKey,
    (mkStatusWord k).getLsbD 0 = k.valid ∧ (mkStatusWord k).getLsbD 1 = decide (k.alg = .legacy) ∧
    (mkStatusWord k).extractLsb' 2 6 = 0 ∧ (mkStatusWord k).extractLsb' 8 6 = k.len ∧
    (mkStatusWord k).extractLsb' 14 18 = 0) ∧
  (∀ (b : Build) (m : Nat), mkStatusWord ((State.powerOn b).master m) = 0) ∧
  (∀ key, mkStatusWord ⟨true, .legacy, 32, key⟩ = 0x00002003)

/-- 10_state.md R48: SLOT_STATUS[s] at 0x040 + 4 s, field by field; 0 at reset; the rule's two examples. -/
def Obligations.SlotStatusLayout : Prop :=
  (∀ (s : State) (n : Nat) (off : Word), s.status.busy = false → n < s.build.numSlots → n < 16 →
    off.toNat = 0x040 + 4 * n →
    hostAccess (.r32 off) s = .next { s with answer := some (slotStatusWord (s.slot n)) }) ∧
  (∀ sl : Slot,
    (slotStatusWord sl).extractLsb' 0 3 = slotStateCode sl.st ∧ (slotStatusWord sl).getLsbD 3 = false ∧
    ((slotStatusWord sl).extractLsb' 4 3).toNat = cipherCode sl.cipher ∧
    (slotStatusWord sl).getLsbD 7 = decide (sl.nmode = .zero) ∧
    (slotStatusWord sl).extractLsb' 8 2 = directionCode sl.dir ∧ (slotStatusWord sl).extractLsb' 10 6 = sl.keyLen ∧
    (slotStatusWord sl).extractLsb' 16 5 = sl.nlen ∧ (slotStatusWord sl).extractLsb' 21 11 = 0) ∧
  (∀ (b : Build) (n : Nat), slotStatusWord ((State.powerOn b).slot n) = 0) ∧
  (∀ key, slotStatusWord { Slot.cleared with st := .keyed, keyLen := 32, key := key } = 0x00008001) ∧
  (∀ key, slotStatusWord
    ({ Slot.cleared with st := .keyed, keyLen := 32, key := key }.created .aes256Gcm .sequential) = 0x000C8022)

/-- 10_state.md R49: SLOT_NONCE[s][w] at 0x100 + 0x20 s + 4 w: word w of the nonce buffer's NLEN bytes followed by
zero bytes, the least significant first; words at or above NLEN/4 read 0; all 0 at reset. -/
def Obligations.SlotNonceWords : Prop :=
  (∀ (s : State) (n w : Nat) (off : Word), s.status.busy = false → n < s.build.numSlots → n < 16 → w < 8 →
    off.toNat = 0x100 + 0x20 * n + 4 * w →
    hostAccess (.r32 off) s = .next { s with answer := some (slotNonceWord (s.slot n) w) }) ∧
  (∀ (sl : Slot) (w : Nat), w < 8 → sl.nlen.toNat ≤ 24 →
    (slotNonceWord sl w).toNat =
      le (((sl.nonce.toList.take sl.nlen.toNat ++ List.replicate 32 0).drop (4 * w)).take 4)) ∧
  (∀ (sl : Slot) (w : Nat), sl.nlen.toNat ≤ 4 * w → slotNonceWord sl w = 0) ∧
  (∀ (b : Build) (n w : Nat), slotNonceWord ((State.powerOn b).slot n) w = 0)

/-! ## Reset and model faults -/

/-- 70_reset_and_hazards.md R340, R341: RESET, at any time, a pending command or not, puts every piece of the block's
state at its reset value and leaves the constants and the model fault mark; the state at power-on is the reset
state. -/
def Obligations.ResetRestoresEverything : Prop :=
  (∀ s : State, ∃ t, State.onEvent s .reset = .next t ∧
    t.cmd = 0 ∧ t.status = ⟨false, false, false, .ok⟩ ∧ t.result = 0 ∧
    t.srcOff = 0 ∧ t.srcLen = 0 ∧ t.dstOff = 0 ∧ t.auxOff = 0 ∧ t.auxLen = 0 ∧
    (∀ m, t.master m = ⟨false, .pbkdf2, 0, Vector.replicate 32 0⟩) ∧
    (∀ n, t.slot n =
      ⟨.free, .aes128Gcm, .gcm, .sequential, .none, 0, Vector.replicate 32 0, Vector.replicate 24 0, 0⟩) ∧
    (∀ a, Memory.get a t.buf = none) ∧
    t.build = s.build ∧ t.faultMark = s.faultMark) ∧
  (∀ b : Build, State.onEvent (State.powerOn b) .reset = .next (State.powerOn b))

/-- The machine's state after reset (70_reset_and_hazards.md R340) in the build of the spec's examples (00_scope.md R6;
the choice of that build is the model's, log 1 and log 2). -/
def Obligations.ResetStateIsExampleBuild : Prop :=
  State.reset.build.numSlots = 4 ∧ State.reset.build.numMk = 2 ∧ State.reset.build.bufSize = 4096 ∧
  State.reset.build.Legal ∧ ConformingBuild State.reset.build ∧
  statusWord State.reset.status = 0 ∧ State.reset.buf = [] ∧ State.reset.faultMark = none ∧ State.reset.script = [] ∧
  State.onEvent State.reset .reset = .next State.reset

/-- 60_exceptions.md R308, 00_scope.md R11: a model fault is sticky. A step that faults records the fault and changes
nothing else, and a state with a recorded fault is kept by every number of later steps, whatever events are still to
come, RESET included. -/
def Obligations.ModelFaultIsSticky : Prop :=
  (∀ (s : State) (f : Fault), step s = .fault f → s.advance = { s with faultMark := some f }) ∧
  (∀ (s : State) (f : Fault) (k : Nat), s.faultMark = some f → step s = .fault f ∧ s.advanceBy k = s)

/-! ## Invariants and secrecy -/

/-- The invariant of Sys2Proof/Safety.lean holds after power-on, in every build (70_reset_and_hazards.md R340). -/
def Obligations.InvariantAtPowerOn : Prop :=
  (∀ b : Build, (State.powerOn b).Inv) ∧ State.reset.Inv

/-- 10_state.md R37, R40, R44-R47, 20_memory.md R86: every step, whatever the environment does, keeps the invariant:
ERR is 1 exactly when ERRCODE is not 0, E_KDF is never reported, FATAL only stands with E_INVARIANT or E_FATAL, an
invalid master key is all zero, keys and nonces are zero above their lengths, every slot's fields fit its state and its
cipher, and buffer RAM keeps its canonical form inside BUF_SIZE. -/
def Obligations.EveryStepKeepsInvariant : Prop :=
  ∀ s t : State, s.Inv → step s = .next t → t.Inv

/-- 70_reset_and_hazards.md R367, 10_state.md R40, R44, 20_memory.md R94: keys and BACKEND are never observable. Of
two states that differ only in them (`masked`), every step gives outcomes that differ only in them, the value read by
the host included, unless the step completes an ENCRYPT or a DECRYPT. -/
def Obligations.KeysAreNeverObservable : Prop :=
  ∀ s s' : State, s.masked = s'.masked →
    (s.status.busy = true → s.script = [] ∨ s.script.head? = some .turn →
      ∀ i, decode s.cmd = .ok i → usesTransform i = false) →
    maskedResult (step s) = maskedResult (step s')
end

