-- ==== Sys2Proof/Laws/Bytes.lean ====
section
/-! SUPPORT. The laws of byte strings: lengths, LE and LEbytes, fitting a string into a register, xor, and the
lengths the key derivations give. -/

namespace Sys2Proof.Machine

@[simp] theorem length_leBytes (v n : Nat) : (leBytes v n).length = n := by
  induction n generalizing v with
  | zero => rfl
  | succ n ih => simp [leBytes, ih]

@[simp] theorem length_beBytes (v n : Nat) : (beBytes v n).length = n := by simp [beBytes]

theorem le_leBytes (v n : Nat) : le (leBytes v n) = v % 256 ^ n := by
  induction n generalizing v with
  | zero => simp [leBytes, le, Nat.mod_one]
  | succ n ih =>
    have h : (BitVec.ofNat 8 v).toNat = v % 256 := rfl
    rw [leBytes, le, ih, h, Nat.pow_succ', Nat.mod_mul]

theorem le_lt (s : List Byte) : le s < 256 ^ s.length := by
  induction s with
  | nil => simp [le]
  | cons b s ih =>
    simp only [le, List.length_cons, Nat.pow_succ']
    have := b.isLt
    omega

theorem leBytes_le (s : List Byte) : leBytes (le s) s.length = s := by
  induction s with
  | nil => rfl
  | cons b s ih =>
    have hb := b.isLt
    simp only [le, List.length_cons, leBytes]
    congr 1
    · apply BitVec.eq_of_toNat_eq
      simp only [BitVec.toNat_ofNat]
      omega
    · rw [show (b.toNat + 256 * le s) / 256 = le s by omega, ih]

theorem leBytes_zero (n : Nat) : leBytes 0 n = List.replicate n 0#8 := by
  induction n with
  | zero => rfl
  | succ n ih => simp [leBytes, ih, List.replicate_succ]

@[simp] theorem le_replicate_zero (n : Nat) : le (List.replicate n 0#8) = 0 := by
  induction n with
  | zero => rfl
  | succ n ih => simp [List.replicate_succ, le, ih]

/-! ## Fitting a string into a register -/

theorem toList_fit (n : Nat) (s : List Byte) : (fit n s).toList = (s ++ List.replicate n 0#8).take n := rfl

/-- A string that fits stands in the low bytes. -/
theorem take_fit {n : Nat} {s : List Byte} (h : s.length ≤ n) : (fit n s).toList.take s.length = s := by
  rw [toList_fit, List.take_take, Nat.min_eq_left h, List.take_left]

/-- Above a string that fits, a register is zero. -/
theorem drop_fit {n : Nat} {s : List Byte} (h : s.length ≤ n) :
    (fit n s).toList.drop s.length = List.replicate (n - s.length) 0#8 := by
  rw [toList_fit, List.drop_take, List.drop_left, List.take_replicate]
  congr 1
  omega

/-- A string of the register's own length is the register's contents. -/
theorem toList_fit_self {n : Nat} {s : List Byte} (h : s.length = n) : (fit n s).toList = s := by
  subst h
  rw [toList_fit, List.take_left]

/-! ## xor -/

@[simp] theorem length_xorBytes (s t : List Byte) : (xorBytes s t).length = s.length := by
  induction s generalizing t with
  | nil => rfl
  | cons a s ih => cases t <;> simp [xorBytes, ih]

theorem xorBytes_self_inverse (s t : List Byte) : xorBytes (xorBytes s t) t = s := by
  induction s generalizing t with
  | nil => rfl
  | cons a s ih =>
    cases t with
    | nil => rfl
    | cons b t => simp [xorBytes, ih]

end Sys2Proof.Machine
end

