-- ==== Sys2Proof/Laws/Memory.lean ====
section
/-! SUPPORT. The laws of buffer RAM: reading one byte after each operation, the canonical form, the bound on
offsets, and what MemRead answers. -/

namespace Sys2Proof.Machine

/-! ## One byte after an operation -/

@[simp] theorem Memory.get_nil (a : Nat) : Memory.get a [] = none := rfl

theorem Memory.get_put (a x : Nat) (b : Byte) (m : Memory) :
    Memory.get x (Memory.put a b m) = if x = a then some b else Memory.get x m := by
  induction m with
  | nil => simp [Memory.put, Memory.get]
  | cons c m ih =>
    obtain ⟨y, c⟩ := c
    simp only [Memory.put]
    split
    · simp [Memory.get]
    · split
      · rename_i h
        subst h
        by_cases hx : x = a <;> simp [Memory.get, hx]
      · simp only [Memory.get, ih]
        by_cases hy : x = y
        · subst hy
          simp_all [eq_comm]
        · simp [hy]

theorem Memory.get_write (v : List Byte) (a x : Nat) (m : Memory) :
    Memory.get x (m.write a v) = if a ≤ x ∧ x < a + v.length then v[x - a]? else Memory.get x m := by
  induction v generalizing a m with
  | nil => simp [Memory.write]
  | cons b bs ih =>
    simp only [Memory.write, ih, Memory.get_put, List.length_cons]
    by_cases h1 : x = a
    · subst h1
      simp
    · by_cases h2 : a + 1 ≤ x ∧ x < a + 1 + bs.length
      · have h3 : a ≤ x ∧ x < a + (bs.length + 1) := by omega
        rw [if_pos h2, if_pos h3, show x - a = (x - (a + 1)) + 1 by omega, List.getElem?_cons_succ]
      · have h3 : ¬ (a ≤ x ∧ x < a + (bs.length + 1)) := by omega
        rw [if_neg h2, if_neg h3, if_neg h1]

theorem Memory.get_write_outside {v : List Byte} {a x : Nat} (m : Memory) (h : x < a ∨ a + v.length ≤ x) :
    Memory.get x (m.write a v) = Memory.get x m := by
  rw [Memory.get_write, if_neg]
  omega

theorem Memory.get_kill (m : Memory) (a n x : Nat) :
    Memory.get x (m.kill a n) = if a ≤ x ∧ x < a + n then none else Memory.get x m := by
  induction m with
  | nil => simp [Memory.kill]
  | cons c m ih =>
    obtain ⟨y, c⟩ := c
    have hk : Memory.kill ((y, c) :: m) a n =
        if y < a ∨ a + n ≤ y then (y, c) :: Memory.kill m a n else Memory.kill m a n := by
      simp [Memory.kill, List.filter_cons]
    rw [hk]
    split
    · simp only [Memory.get, ih]
      by_cases hx : x = y
      · subst hx
        rw [if_pos rfl, if_neg (by omega), if_pos rfl]
      · simp [hx]
    · rw [ih]
      by_cases hx : x = y
      · subst hx
        rw [if_pos (by omega), if_pos (by omega)]
      · simp [Memory.get, hx]

/-! ## Writing the same bytes again -/

theorem Memory.put_put (m : Memory) (a : Nat) (b : Byte) :
    Memory.put a b (Memory.put a b m) = Memory.put a b m := by
  induction m with
  | nil => simp [Memory.put]
  | cons c m ih =>
    obtain ⟨x, c⟩ := c
    simp only [Memory.put]
    split
    · simp [Memory.put]
    · split
      · simp [Memory.put]
      · rename_i h1 h2
        simp [Memory.put, h1, h2, ih]

theorem Memory.put_comm (m : Memory) {a x : Nat} (b c : Byte) (h : a ≠ x) :
    Memory.put a b (Memory.put x c m) = Memory.put x c (Memory.put a b m) := by
  induction m with
  | nil =>
    simp only [Memory.put]
    split <;> split <;> simp_all <;> omega
  | cons d m ih =>
    obtain ⟨y, d⟩ := d
    simp only [Memory.put]
    repeat' split
    all_goals simp only [Memory.put]
    all_goals repeat' split
    all_goals first | rfl | (exfalso; omega) | simp_all

theorem Memory.write_put (m : Memory) {a x : Nat} (b : Byte) (v : List Byte) (h : a < x) :
    (Memory.put a b m).write x v = Memory.put a b (m.write x v) := by
  induction v generalizing x m with
  | nil => rfl
  | cons c v ih =>
    simp only [Memory.write]
    rw [Memory.put_comm _ _ _ (by omega), ih _ (by omega)]

/-- A write is idempotent (20_memory.md R92). -/
theorem Memory.write_write (m : Memory) (a : Nat) (v : List Byte) : (m.write a v).write a v = m.write a v := by
  induction v generalizing a m with
  | nil => rfl
  | cons b v ih =>
    have h : ∀ n : Memory, Memory.put a b (n.write (a + 1) v) = (Memory.put a b n).write (a + 1) v :=
      fun n => (Memory.write_put n b v (Nat.lt_succ_self a)).symm
    simp only [Memory.write]
    rw [h, Memory.put_put, ih]

/-! ## MemRead -/

theorem Memory.read_eq_some {m : Memory} {n a : Nat} {v : List Byte} :
    m.read a n = some v ↔ v.length = n ∧ ∀ i < n, Memory.get (a + i) m = v[i]? := by
  induction n generalizing a v with
  | zero => simp [Memory.read, eq_comm, List.eq_nil_iff_length_eq_zero]
  | succ n ih =>
    simp only [Memory.read]
    constructor
    · intro h
      split at h
      · cases h
      · rename_i b hb
        simp only [Option.map_eq_some_iff] at h
        obtain ⟨w, hw, rfl⟩ := h
        obtain ⟨h1, h2⟩ := ih.1 hw
        refine ⟨by simp [h1], ?_⟩
        intro i hi
        cases i with
        | zero => simpa using hb
        | succ i =>
          have := h2 i (by omega)
          simpa [Nat.add_assoc, Nat.add_comm 1 i] using this
    · rintro ⟨h1, h2⟩
      cases v with
      | nil => simp at h1
      | cons b w =>
        have h0 := h2 0 (by omega)
        simp only [Nat.add_zero, List.getElem?_cons_zero] at h0
        rw [h0]
        simp only [Option.map_eq_some_iff]
        refine ⟨w, ih.2 ⟨by simpa using h1, ?_⟩, rfl⟩
        intro i hi
        have := h2 (i + 1) (by omega)
        simpa [Nat.add_assoc, Nat.add_comm 1 i] using this

theorem Memory.read_length {m : Memory} {n a : Nat} {v : List Byte} (h : m.read a n = some v) : v.length = n :=
  (Memory.read_eq_some.1 h).1

/-- MemRead depends only on the bytes it covers. -/
theorem Memory.read_congr {m m' : Memory} {n a : Nat}
    (h : ∀ i < n, Memory.get (a + i) m = Memory.get (a + i) m') : m.read a n = m'.read a n := by
  induction n generalizing a with
  | zero => rfl
  | succ n ih =>
    have h0 := h 0 (by omega)
    simp only [Nat.add_zero] at h0
    simp only [Memory.read, h0]
    rw [ih]
    intro i hi
    have := h (i + 1) (by omega)
    simpa [Nat.add_assoc, Nat.add_comm 1 i] using this

/-- MemRead answers when every byte it covers holds a value. -/
theorem Memory.read_isSome {m : Memory} {n a : Nat} (h : ∀ i < n, (Memory.get (a + i) m).isSome) :
    (m.read a n).isSome := by
  induction n generalizing a with
  | zero => rfl
  | succ n ih =>
    have h0 := h 0 (by omega)
    simp only [Nat.add_zero] at h0
    obtain ⟨b, hb⟩ := Option.isSome_iff_exists.1 h0
    have := ih (a := a + 1) fun i hi => by
      have := h (i + 1) (by omega)
      simpa [Nat.add_assoc, Nat.add_comm 1 i] using this
    simp [Memory.read, hb, this]

theorem Memory.read_write_same (m : Memory) (a : Nat) (v : List Byte) : (m.write a v).read a v.length = some v := by
  rw [Memory.read_eq_some]
  refine ⟨rfl, fun i hi => ?_⟩
  rw [Memory.get_write, if_pos (by omega)]
  simp

/-! ## The canonical form and the bound -/

/-- Every offset listed lies above `x`. -/
abbrev Memory.Above (x : Nat) (m : Memory) : Prop := ∀ cell ∈ m, x < cell.1

theorem Memory.wf_cons {x : Nat} {c : Byte} {m : Memory} :
    Memory.wf ((x, c) :: m) = true ↔ Memory.Above x m ∧ Memory.wf m = true := by
  induction m generalizing x c with
  | nil => simp [Memory.wf]
  | cons d m ih =>
    obtain ⟨y, d⟩ := d
    simp only [Memory.wf, Bool.and_eq_true, decide_eq_true_eq]
    constructor
    · rintro ⟨h1, h2⟩
      refine ⟨?_, h2⟩
      intro cell hc
      rcases List.mem_cons.1 hc with rfl | hc
      · exact h1
      · exact Nat.lt_trans h1 ((ih.1 h2).1 cell hc)
    · rintro ⟨h1, h2⟩
      exact ⟨h1 (y, d) (by simp), h2⟩

theorem Memory.mem_put {a : Nat} {b : Byte} {m : Memory} {cell : Host.Cell} (h : cell ∈ Memory.put a b m) :
    cell = (a, b) ∨ cell ∈ m := by
  induction m with
  | nil => simpa [Memory.put] using h
  | cons d m ih =>
    obtain ⟨y, d⟩ := d
    simp only [Memory.put] at h
    split at h
    · simpa using h
    · split at h
      · rcases List.mem_cons.1 h with h | h
        · exact .inl h
        · exact .inr (List.mem_cons_of_mem _ h)
      · rcases List.mem_cons.1 h with h | h
        · exact .inr (by simp [h])
        · rcases ih h with h | h
          · exact .inl h
          · exact .inr (List.mem_cons_of_mem _ h)

theorem Memory.wf_put (a : Nat) (b : Byte) {m : Memory} (h : m.wf = true) : (Memory.put a b m).wf = true := by
  induction m with
  | nil => rfl
  | cons d m ih =>
    obtain ⟨y, d⟩ := d
    obtain ⟨h1, h2⟩ := Memory.wf_cons.1 h
    simp only [Memory.put]
    split
    · rename_i hay
      refine Memory.wf_cons.2 ⟨?_, h⟩
      intro cell hc
      rcases List.mem_cons.1 hc with rfl | hc
      · exact hay
      · exact Nat.lt_trans hay (h1 cell hc)
    · split
      · rename_i hay
        subst hay
        exact Memory.wf_cons.2 ⟨h1, h2⟩
      · refine Memory.wf_cons.2 ⟨?_, ih h2⟩
        intro cell hc
        rcases Memory.mem_put hc with rfl | hc
        · simp only
          omega
        · exact h1 cell hc

theorem Memory.wf_write (v : List Byte) (a : Nat) {m : Memory} (h : m.wf = true) : (m.write a v).wf = true := by
  induction v generalizing a m with
  | nil => exact h
  | cons b bs ih => exact ih _ (Memory.wf_put _ _ h)

theorem Memory.wf_filter (p : Host.Cell → Bool) {m : Memory} (h : m.wf = true) : Memory.wf (m.filter p) = true := by
  induction m with
  | nil => rfl
  | cons d m ih =>
    obtain ⟨y, d⟩ := d
    obtain ⟨h1, h2⟩ := Memory.wf_cons.1 h
    rw [List.filter_cons]
    split
    · exact Memory.wf_cons.2 ⟨fun cell hc => h1 cell (List.mem_of_mem_filter hc), ih h2⟩
    · exact ih h2

theorem Memory.wf_kill (a n : Nat) {m : Memory} (h : m.wf = true) : (m.kill a n).wf = true :=
  Memory.wf_filter _ h

theorem Memory.below_put {n a : Nat} (b : Byte) {m : Memory} (h : m.Below n) (ha : a < n) :
    (Memory.put a b m).Below n := by
  intro cell hc
  rcases Memory.mem_put hc with rfl | hc
  · exact ha
  · exact h cell hc

theorem Memory.below_write {n a : Nat} {v : List Byte} {m : Memory} (h : m.Below n) (ha : a + v.length ≤ n) :
    (m.write a v).Below n := by
  induction v generalizing a m with
  | nil => exact h
  | cons b bs ih =>
    simp only [List.length_cons] at ha
    exact ih (Memory.below_put b h (by omega)) (by omega)

theorem Memory.below_kill {n : Nat} (a k : Nat) {m : Memory} (h : m.Below n) : (m.kill a k).Below n :=
  fun cell hc => h cell (List.mem_of_mem_filter hc)

end Sys2Proof.Machine
end

