-- ==== Sys2Proof/Laws/State.lean ====
section
/-! SUPPORT. The fields of a state after each named update, one lemma per field per update. -/

namespace Sys2Proof.Machine

variable (s : State)

/-! ## State.setMaster -/

@[simp] theorem State.setMaster_build (m : Nat) (k : MasterKey) : (s.setMaster m k).build = s.build := rfl
@[simp] theorem State.setMaster_cmd (m : Nat) (k : MasterKey) : (s.setMaster m k).cmd = s.cmd := rfl
@[simp] theorem State.setMaster_status (m : Nat) (k : MasterKey) : (s.setMaster m k).status = s.status := rfl
@[simp] theorem State.setMaster_result (m : Nat) (k : MasterKey) : (s.setMaster m k).result = s.result := rfl
@[simp] theorem State.setMaster_srcOff (m : Nat) (k : MasterKey) : (s.setMaster m k).srcOff = s.srcOff := rfl
@[simp] theorem State.setMaster_srcLen (m : Nat) (k : MasterKey) : (s.setMaster m k).srcLen = s.srcLen := rfl
@[simp] theorem State.setMaster_dstOff (m : Nat) (k : MasterKey) : (s.setMaster m k).dstOff = s.dstOff := rfl
@[simp] theorem State.setMaster_auxOff (m : Nat) (k : MasterKey) : (s.setMaster m k).auxOff = s.auxOff := rfl
@[simp] theorem State.setMaster_auxLen (m : Nat) (k : MasterKey) : (s.setMaster m k).auxLen = s.auxLen := rfl
@[simp] theorem State.setMaster_mks (m : Nat) (k : MasterKey) : (s.setMaster m k).mks = s.mks.setIfInBounds m k := rfl
@[simp] theorem State.setMaster_slots (m : Nat) (k : MasterKey) : (s.setMaster m k).slots = s.slots := rfl
@[simp] theorem State.setMaster_buf (m : Nat) (k : MasterKey) : (s.setMaster m k).buf = s.buf := rfl
@[simp] theorem State.setMaster_faultMark (m : Nat) (k : MasterKey) : (s.setMaster m k).faultMark = s.faultMark := rfl
@[simp] theorem State.setMaster_script (m : Nat) (k : MasterKey) : (s.setMaster m k).script = s.script := rfl
@[simp] theorem State.setMaster_answer (m : Nat) (k : MasterKey) : (s.setMaster m k).answer = s.answer := rfl

/-! ## State.setSlot -/

@[simp] theorem State.setSlot_build (i : Nat) (sl : Slot) : (s.setSlot i sl).build = s.build := rfl
@[simp] theorem State.setSlot_cmd (i : Nat) (sl : Slot) : (s.setSlot i sl).cmd = s.cmd := rfl
@[simp] theorem State.setSlot_status (i : Nat) (sl : Slot) : (s.setSlot i sl).status = s.status := rfl
@[simp] theorem State.setSlot_result (i : Nat) (sl : Slot) : (s.setSlot i sl).result = s.result := rfl
@[simp] theorem State.setSlot_srcOff (i : Nat) (sl : Slot) : (s.setSlot i sl).srcOff = s.srcOff := rfl
@[simp] theorem State.setSlot_srcLen (i : Nat) (sl : Slot) : (s.setSlot i sl).srcLen = s.srcLen := rfl
@[simp] theorem State.setSlot_dstOff (i : Nat) (sl : Slot) : (s.setSlot i sl).dstOff = s.dstOff := rfl
@[simp] theorem State.setSlot_auxOff (i : Nat) (sl : Slot) : (s.setSlot i sl).auxOff = s.auxOff := rfl
@[simp] theorem State.setSlot_auxLen (i : Nat) (sl : Slot) : (s.setSlot i sl).auxLen = s.auxLen := rfl
@[simp] theorem State.setSlot_mks (i : Nat) (sl : Slot) : (s.setSlot i sl).mks = s.mks := rfl
@[simp] theorem State.setSlot_slots (i : Nat) (sl : Slot) : (s.setSlot i sl).slots = s.slots.setIfInBounds i sl := rfl
@[simp] theorem State.setSlot_buf (i : Nat) (sl : Slot) : (s.setSlot i sl).buf = s.buf := rfl
@[simp] theorem State.setSlot_faultMark (i : Nat) (sl : Slot) : (s.setSlot i sl).faultMark = s.faultMark := rfl
@[simp] theorem State.setSlot_script (i : Nat) (sl : Slot) : (s.setSlot i sl).script = s.script := rfl
@[simp] theorem State.setSlot_answer (i : Nat) (sl : Slot) : (s.setSlot i sl).answer = s.answer := rfl

/-! ## State.setBuf -/

@[simp] theorem State.setBuf_build (m : Memory) : (s.setBuf m).build = s.build := rfl
@[simp] theorem State.setBuf_cmd (m : Memory) : (s.setBuf m).cmd = s.cmd := rfl
@[simp] theorem State.setBuf_status (m : Memory) : (s.setBuf m).status = s.status := rfl
@[simp] theorem State.setBuf_result (m : Memory) : (s.setBuf m).result = s.result := rfl
@[simp] theorem State.setBuf_srcOff (m : Memory) : (s.setBuf m).srcOff = s.srcOff := rfl
@[simp] theorem State.setBuf_srcLen (m : Memory) : (s.setBuf m).srcLen = s.srcLen := rfl
@[simp] theorem State.setBuf_dstOff (m : Memory) : (s.setBuf m).dstOff = s.dstOff := rfl
@[simp] theorem State.setBuf_auxOff (m : Memory) : (s.setBuf m).auxOff = s.auxOff := rfl
@[simp] theorem State.setBuf_auxLen (m : Memory) : (s.setBuf m).auxLen = s.auxLen := rfl
@[simp] theorem State.setBuf_mks (m : Memory) : (s.setBuf m).mks = s.mks := rfl
@[simp] theorem State.setBuf_slots (m : Memory) : (s.setBuf m).slots = s.slots := rfl
@[simp] theorem State.setBuf_buf (m : Memory) : (s.setBuf m).buf = m := rfl
@[simp] theorem State.setBuf_faultMark (m : Memory) : (s.setBuf m).faultMark = s.faultMark := rfl
@[simp] theorem State.setBuf_script (m : Memory) : (s.setBuf m).script = s.script := rfl
@[simp] theorem State.setBuf_answer (m : Memory) : (s.setBuf m).answer = s.answer := rfl

/-! ## State.setResult -/

@[simp] theorem State.setResult_build (w : Word) : (s.setResult w).build = s.build := rfl
@[simp] theorem State.setResult_cmd (w : Word) : (s.setResult w).cmd = s.cmd := rfl
@[simp] theorem State.setResult_status (w : Word) : (s.setResult w).status = s.status := rfl
@[simp] theorem State.setResult_result (w : Word) : (s.setResult w).result = w := rfl
@[simp] theorem State.setResult_srcOff (w : Word) : (s.setResult w).srcOff = s.srcOff := rfl
@[simp] theorem State.setResult_srcLen (w : Word) : (s.setResult w).srcLen = s.srcLen := rfl
@[simp] theorem State.setResult_dstOff (w : Word) : (s.setResult w).dstOff = s.dstOff := rfl
@[simp] theorem State.setResult_auxOff (w : Word) : (s.setResult w).auxOff = s.auxOff := rfl
@[simp] theorem State.setResult_auxLen (w : Word) : (s.setResult w).auxLen = s.auxLen := rfl
@[simp] theorem State.setResult_mks (w : Word) : (s.setResult w).mks = s.mks := rfl
@[simp] theorem State.setResult_slots (w : Word) : (s.setResult w).slots = s.slots := rfl
@[simp] theorem State.setResult_buf (w : Word) : (s.setResult w).buf = s.buf := rfl
@[simp] theorem State.setResult_faultMark (w : Word) : (s.setResult w).faultMark = s.faultMark := rfl
@[simp] theorem State.setResult_script (w : Word) : (s.setResult w).script = s.script := rfl
@[simp] theorem State.setResult_answer (w : Word) : (s.setResult w).answer = s.answer := rfl

/-! ## State.setResultNat -/

@[simp] theorem State.setResultNat_build (n : Nat) : (s.setResultNat n).build = s.build := rfl
@[simp] theorem State.setResultNat_cmd (n : Nat) : (s.setResultNat n).cmd = s.cmd := rfl
@[simp] theorem State.setResultNat_status (n : Nat) : (s.setResultNat n).status = s.status := rfl
@[simp] theorem State.setResultNat_result (n : Nat) : (s.setResultNat n).result = BitVec.ofNat 32 n := rfl
@[simp] theorem State.setResultNat_srcOff (n : Nat) : (s.setResultNat n).srcOff = s.srcOff := rfl
@[simp] theorem State.setResultNat_srcLen (n : Nat) : (s.setResultNat n).srcLen = s.srcLen := rfl
@[simp] theorem State.setResultNat_dstOff (n : Nat) : (s.setResultNat n).dstOff = s.dstOff := rfl
@[simp] theorem State.setResultNat_auxOff (n : Nat) : (s.setResultNat n).auxOff = s.auxOff := rfl
@[simp] theorem State.setResultNat_auxLen (n : Nat) : (s.setResultNat n).auxLen = s.auxLen := rfl
@[simp] theorem State.setResultNat_mks (n : Nat) : (s.setResultNat n).mks = s.mks := rfl
@[simp] theorem State.setResultNat_slots (n : Nat) : (s.setResultNat n).slots = s.slots := rfl
@[simp] theorem State.setResultNat_buf (n : Nat) : (s.setResultNat n).buf = s.buf := rfl
@[simp] theorem State.setResultNat_faultMark (n : Nat) : (s.setResultNat n).faultMark = s.faultMark := rfl
@[simp] theorem State.setResultNat_script (n : Nat) : (s.setResultNat n).script = s.script := rfl
@[simp] theorem State.setResultNat_answer (n : Nat) : (s.setResultNat n).answer = s.answer := rfl

/-! ## State.writeDst -/

@[simp] theorem State.writeDst_build (v : List Byte) : (s.writeDst v).build = s.build := rfl
@[simp] theorem State.writeDst_cmd (v : List Byte) : (s.writeDst v).cmd = s.cmd := rfl
@[simp] theorem State.writeDst_status (v : List Byte) : (s.writeDst v).status = s.status := rfl
@[simp] theorem State.writeDst_result (v : List Byte) : (s.writeDst v).result = s.result := rfl
@[simp] theorem State.writeDst_srcOff (v : List Byte) : (s.writeDst v).srcOff = s.srcOff := rfl
@[simp] theorem State.writeDst_srcLen (v : List Byte) : (s.writeDst v).srcLen = s.srcLen := rfl
@[simp] theorem State.writeDst_dstOff (v : List Byte) : (s.writeDst v).dstOff = s.dstOff := rfl
@[simp] theorem State.writeDst_auxOff (v : List Byte) : (s.writeDst v).auxOff = s.auxOff := rfl
@[simp] theorem State.writeDst_auxLen (v : List Byte) : (s.writeDst v).auxLen = s.auxLen := rfl
@[simp] theorem State.writeDst_mks (v : List Byte) : (s.writeDst v).mks = s.mks := rfl
@[simp] theorem State.writeDst_slots (v : List Byte) : (s.writeDst v).slots = s.slots := rfl
@[simp] theorem State.writeDst_buf (v : List Byte) : (s.writeDst v).buf = s.buf.write s.dstOff.toNat v := rfl
@[simp] theorem State.writeDst_faultMark (v : List Byte) : (s.writeDst v).faultMark = s.faultMark := rfl
@[simp] theorem State.writeDst_script (v : List Byte) : (s.writeDst v).script = s.script := rfl
@[simp] theorem State.writeDst_answer (v : List Byte) : (s.writeDst v).answer = s.answer := rfl

/-! ## State.killDst -/

@[simp] theorem State.killDst_build (n : Nat) : (s.killDst n).build = s.build := rfl
@[simp] theorem State.killDst_cmd (n : Nat) : (s.killDst n).cmd = s.cmd := rfl
@[simp] theorem State.killDst_status (n : Nat) : (s.killDst n).status = s.status := rfl
@[simp] theorem State.killDst_result (n : Nat) : (s.killDst n).result = s.result := rfl
@[simp] theorem State.killDst_srcOff (n : Nat) : (s.killDst n).srcOff = s.srcOff := rfl
@[simp] theorem State.killDst_srcLen (n : Nat) : (s.killDst n).srcLen = s.srcLen := rfl
@[simp] theorem State.killDst_dstOff (n : Nat) : (s.killDst n).dstOff = s.dstOff := rfl
@[simp] theorem State.killDst_auxOff (n : Nat) : (s.killDst n).auxOff = s.auxOff := rfl
@[simp] theorem State.killDst_auxLen (n : Nat) : (s.killDst n).auxLen = s.auxLen := rfl
@[simp] theorem State.killDst_mks (n : Nat) : (s.killDst n).mks = s.mks := rfl
@[simp] theorem State.killDst_slots (n : Nat) : (s.killDst n).slots = s.slots := rfl
@[simp] theorem State.killDst_buf (n : Nat) : (s.killDst n).buf = s.buf.kill s.dstOff.toNat n := rfl
@[simp] theorem State.killDst_faultMark (n : Nat) : (s.killDst n).faultMark = s.faultMark := rfl
@[simp] theorem State.killDst_script (n : Nat) : (s.killDst n).script = s.script := rfl
@[simp] theorem State.killDst_answer (n : Nat) : (s.killDst n).answer = s.answer := rfl

/-! ## State.setFatal -/

@[simp] theorem State.setFatal_build : (s.setFatal).build = s.build := rfl
@[simp] theorem State.setFatal_cmd : (s.setFatal).cmd = s.cmd := rfl
@[simp] theorem State.setFatal_status : (s.setFatal).status = { s.status with fatal := true } := rfl
@[simp] theorem State.setFatal_result : (s.setFatal).result = s.result := rfl
@[simp] theorem State.setFatal_srcOff : (s.setFatal).srcOff = s.srcOff := rfl
@[simp] theorem State.setFatal_srcLen : (s.setFatal).srcLen = s.srcLen := rfl
@[simp] theorem State.setFatal_dstOff : (s.setFatal).dstOff = s.dstOff := rfl
@[simp] theorem State.setFatal_auxOff : (s.setFatal).auxOff = s.auxOff := rfl
@[simp] theorem State.setFatal_auxLen : (s.setFatal).auxLen = s.auxLen := rfl
@[simp] theorem State.setFatal_mks : (s.setFatal).mks = s.mks := rfl
@[simp] theorem State.setFatal_slots : (s.setFatal).slots = s.slots := rfl
@[simp] theorem State.setFatal_buf : (s.setFatal).buf = s.buf := rfl
@[simp] theorem State.setFatal_faultMark : (s.setFatal).faultMark = s.faultMark := rfl
@[simp] theorem State.setFatal_script : (s.setFatal).script = s.script := rfl
@[simp] theorem State.setFatal_answer : (s.setFatal).answer = s.answer := rfl

/-! ## State.ended -/

@[simp] theorem State.ended_build (e : ErrCode) : (s.ended e).build = s.build := rfl
@[simp] theorem State.ended_cmd (e : ErrCode) : (s.ended e).cmd = s.cmd := rfl
@[simp] theorem State.ended_status (e : ErrCode) : (s.ended e).status = s.status.ended e := rfl
@[simp] theorem State.ended_result (e : ErrCode) : (s.ended e).result = s.result := rfl
@[simp] theorem State.ended_srcOff (e : ErrCode) : (s.ended e).srcOff = s.srcOff := rfl
@[simp] theorem State.ended_srcLen (e : ErrCode) : (s.ended e).srcLen = s.srcLen := rfl
@[simp] theorem State.ended_dstOff (e : ErrCode) : (s.ended e).dstOff = s.dstOff := rfl
@[simp] theorem State.ended_auxOff (e : ErrCode) : (s.ended e).auxOff = s.auxOff := rfl
@[simp] theorem State.ended_auxLen (e : ErrCode) : (s.ended e).auxLen = s.auxLen := rfl
@[simp] theorem State.ended_mks (e : ErrCode) : (s.ended e).mks = s.mks := rfl
@[simp] theorem State.ended_slots (e : ErrCode) : (s.ended e).slots = s.slots := rfl
@[simp] theorem State.ended_buf (e : ErrCode) : (s.ended e).buf = s.buf := rfl
@[simp] theorem State.ended_faultMark (e : ErrCode) : (s.ended e).faultMark = s.faultMark := rfl
@[simp] theorem State.ended_script (e : ErrCode) : (s.ended e).script = s.script := rfl
@[simp] theorem State.ended_answer (e : ErrCode) : (s.ended e).answer = s.answer := rfl

/-! ## State.markFault -/

@[simp] theorem State.markFault_build (f : Fault) : (s.markFault f).build = s.build := rfl
@[simp] theorem State.markFault_cmd (f : Fault) : (s.markFault f).cmd = s.cmd := rfl
@[simp] theorem State.markFault_status (f : Fault) : (s.markFault f).status = s.status := rfl
@[simp] theorem State.markFault_result (f : Fault) : (s.markFault f).result = s.result := rfl
@[simp] theorem State.markFault_srcOff (f : Fault) : (s.markFault f).srcOff = s.srcOff := rfl
@[simp] theorem State.markFault_srcLen (f : Fault) : (s.markFault f).srcLen = s.srcLen := rfl
@[simp] theorem State.markFault_dstOff (f : Fault) : (s.markFault f).dstOff = s.dstOff := rfl
@[simp] theorem State.markFault_auxOff (f : Fault) : (s.markFault f).auxOff = s.auxOff := rfl
@[simp] theorem State.markFault_auxLen (f : Fault) : (s.markFault f).auxLen = s.auxLen := rfl
@[simp] theorem State.markFault_mks (f : Fault) : (s.markFault f).mks = s.mks := rfl
@[simp] theorem State.markFault_slots (f : Fault) : (s.markFault f).slots = s.slots := rfl
@[simp] theorem State.markFault_buf (f : Fault) : (s.markFault f).buf = s.buf := rfl
@[simp] theorem State.markFault_faultMark (f : Fault) : (s.markFault f).faultMark = some f := rfl
@[simp] theorem State.markFault_script (f : Fault) : (s.markFault f).script = s.script := rfl
@[simp] theorem State.markFault_answer (f : Fault) : (s.markFault f).answer = s.answer := rfl

/-! ## Reading a bank after an update -/

@[simp] theorem State.setMaster_slot (m : Nat) (k : MasterKey) (j : Nat) : (s.setMaster m k).slot j = s.slot j := rfl
@[simp] theorem State.setMaster_prims (m : Nat) (k : MasterKey) : (s.setMaster m k).prims = s.prims := rfl
@[simp] theorem State.setSlot_master (i : Nat) (sl : Slot) (j : Nat) : (s.setSlot i sl).master j = s.master j := rfl
@[simp] theorem State.setSlot_prims (i : Nat) (sl : Slot) : (s.setSlot i sl).prims = s.prims := rfl
@[simp] theorem State.setBuf_slot (m : Memory) (j : Nat) : (s.setBuf m).slot j = s.slot j := rfl
@[simp] theorem State.setBuf_master (m : Memory) (j : Nat) : (s.setBuf m).master j = s.master j := rfl
@[simp] theorem State.setBuf_prims (m : Memory) : (s.setBuf m).prims = s.prims := rfl
@[simp] theorem State.setResult_slot (w : Word) (j : Nat) : (s.setResult w).slot j = s.slot j := rfl
@[simp] theorem State.setResult_master (w : Word) (j : Nat) : (s.setResult w).master j = s.master j := rfl
@[simp] theorem State.setResult_prims (w : Word) : (s.setResult w).prims = s.prims := rfl
@[simp] theorem State.setResultNat_slot (n : Nat) (j : Nat) : (s.setResultNat n).slot j = s.slot j := rfl
@[simp] theorem State.setResultNat_master (n : Nat) (j : Nat) : (s.setResultNat n).master j = s.master j := rfl
@[simp] theorem State.setResultNat_prims (n : Nat) : (s.setResultNat n).prims = s.prims := rfl
@[simp] theorem State.writeDst_slot (v : List Byte) (j : Nat) : (s.writeDst v).slot j = s.slot j := rfl
@[simp] theorem State.writeDst_master (v : List Byte) (j : Nat) : (s.writeDst v).master j = s.master j := rfl
@[simp] theorem State.writeDst_prims (v : List Byte) : (s.writeDst v).prims = s.prims := rfl
@[simp] theorem State.killDst_slot (n : Nat) (j : Nat) : (s.killDst n).slot j = s.slot j := rfl
@[simp] theorem State.killDst_master (n : Nat) (j : Nat) : (s.killDst n).master j = s.master j := rfl
@[simp] theorem State.killDst_prims (n : Nat) : (s.killDst n).prims = s.prims := rfl
@[simp] theorem State.setFatal_slot (j : Nat) : (s.setFatal).slot j = s.slot j := rfl
@[simp] theorem State.setFatal_master (j : Nat) : (s.setFatal).master j = s.master j := rfl
@[simp] theorem State.setFatal_prims : (s.setFatal).prims = s.prims := rfl
@[simp] theorem State.ended_slot (e : ErrCode) (j : Nat) : (s.ended e).slot j = s.slot j := rfl
@[simp] theorem State.ended_master (e : ErrCode) (j : Nat) : (s.ended e).master j = s.master j := rfl
@[simp] theorem State.ended_prims (e : ErrCode) : (s.ended e).prims = s.prims := rfl
@[simp] theorem State.markFault_slot (f : Fault) (j : Nat) : (s.markFault f).slot j = s.slot j := rfl
@[simp] theorem State.markFault_master (f : Fault) (j : Nat) : (s.markFault f).master j = s.master j := rfl
@[simp] theorem State.markFault_prims (f : Fault) : (s.markFault f).prims = s.prims := rfl

theorem State.setSlot_slot (i j : Nat) (sl : Slot) :
    (s.setSlot i sl).slot j = if i = j ∧ i < 16 then sl else s.slot j := by
  simp only [State.slot, State.setSlot_slots, Vector.getElem?_setIfInBounds]
  by_cases h : i = j
  · subst h
    by_cases hi : i < 16 <;> simp [hi]
  · simp [h]

theorem State.setMaster_master (i j : Nat) (k : MasterKey) :
    (s.setMaster i k).master j = if i = j ∧ i < 16 then k else s.master j := by
  simp only [State.master, State.setMaster_mks, Vector.getElem?_setIfInBounds]
  by_cases h : i = j
  · subst h
    by_cases hi : i < 16 <;> simp [hi]
  · simp [h]

theorem State.setSlot_slot_ne {i j : Nat} (h : i ≠ j) (sl : Slot) : (s.setSlot i sl).slot j = s.slot j := by
  simp [State.setSlot_slot, h]

theorem State.setMaster_master_ne {i j : Nat} (h : i ≠ j) (k : MasterKey) :
    (s.setMaster i k).master j = s.master j := by
  simp [State.setMaster_master, h]

/-! ## STATUS at the end of a command -/

@[simp] theorem Status.ended_busy (e : ErrCode) (st : Status) : (st.ended e).busy = false := rfl
@[simp] theorem Status.ended_err (e : ErrCode) (st : Status) : (st.ended e).err = decide (e ≠ .ok) := rfl
@[simp] theorem Status.ended_fatal (e : ErrCode) (st : Status) : (st.ended e).fatal = st.fatal := rfl
@[simp] theorem Status.ended_errcode (e : ErrCode) (st : Status) : (st.ended e).errcode = e := rfl

end Sys2Proof.Machine
end

