-- ==== Sys2Proof/Laws/Bus.lean ====
section
/-! SUPPORT. Everything a host access can do, said once: `hostAccess_cases`, and where each register and each buffer
byte is found. -/

namespace Sys2Proof.Machine

variable {s : State} {a : Access}

/-! ## Where the registers are -/

theorem regAt_slotStatus (b : Build) {n off : Nat} (hb : n < b.numSlots) (hn : n < 16) (ho : off = 0x040 + 4 * n) :
    regAt b off = some (.slotStatus n) := by
  have h : (off - 0x040) / 4 = n := by omega
  simp [regAt, h, hb, show off ≠ 0x000 by omega, show off ≠ 0x004 by omega, show off ≠ 0x008 by omega,
    show off ≠ 0x00C by omega, show off ≠ 0x010 by omega, show off ≠ 0x014 by omega, show off ≠ 0x018 by omega,
    show off ≠ 0x01C by omega, show off ≠ 0x020 by omega, show off ≠ 0x024 by omega, show ¬ off < 0x040 by omega,
    show off < 0x080 by omega]

theorem regAt_mkStatus (b : Build) {m off : Nat} (hb : m < b.numMk) (hm : m < 16) (ho : off = 0x080 + 4 * m) :
    regAt b off = some (.mkStatus m) := by
  have h : (off - 0x080) / 4 = m := by omega
  simp [regAt, h, hb, show off ≠ 0x000 by omega, show off ≠ 0x004 by omega, show off ≠ 0x008 by omega,
    show off ≠ 0x00C by omega, show off ≠ 0x010 by omega, show off ≠ 0x014 by omega, show off ≠ 0x018 by omega,
    show off ≠ 0x01C by omega, show off ≠ 0x020 by omega, show off ≠ 0x024 by omega, show ¬ off < 0x040 by omega,
    show ¬ off < 0x080 by omega, show off < 0x0C0 by omega]

theorem regAt_slotNonce (b : Build) {n w off : Nat} (hb : n < b.numSlots) (hn : n < 16) (hw : w < 8)
    (ho : off = 0x100 + 0x20 * n + 4 * w) : regAt b off = some (.slotNonce n w) := by
  have h : (off - 0x100) / 0x20 = n := by omega
  have h' : off % 0x20 / 4 = w := by omega
  simp [regAt, h, h', hb, show off ≠ 0x000 by omega, show off ≠ 0x004 by omega, show off ≠ 0x008 by omega,
    show off ≠ 0x00C by omega, show off ≠ 0x010 by omega, show off ≠ 0x014 by omega, show off ≠ 0x018 by omega,
    show off ≠ 0x01C by omega, show off ≠ 0x020 by omega, show off ≠ 0x024 by omega, show ¬ off < 0x040 by omega,
    show ¬ off < 0x080 by omega, show ¬ off < 0x0C0 by omega, show ¬ off < 0x100 by omega, show off < 0x300 by omega]

theorem of_ite_ne {α : Type} {p : Prop} [Decidable p] {x y z : α} (h : (if p then x else y) = z) (hx : x ≠ z) :
    y = z := by
  split at h
  · exact absurd h hx
  · exact h

/-- CMD is at 0x004 and nowhere else. -/
theorem regAt_eq_cmd {b : Build} {off : Nat} (h : regAt b off = some .cmd) : off = 0x004 := by
  by_contra hne
  have h := of_ite_ne h (by decide)
  rw [if_neg hne] at h
  have h := of_ite_ne (of_ite_ne (of_ite_ne (of_ite_ne h (by decide)) (by decide)) (by decide)) (by decide)
  have h := of_ite_ne (of_ite_ne (of_ite_ne (of_ite_ne h (by decide)) (by decide)) (by decide)) (by decide)
  have h := of_ite_ne h (by decide)
  have hs : ∀ (p : Prop) [Decidable p] (r : Reg), r ≠ .cmd → (if p then some r else none) ≠ some Reg.cmd := by
    intro p _ r hr
    split <;> simp [hr]
  have h := of_ite_ne (of_ite_ne h (hs _ _ (by simp))) (hs _ _ (by simp))
  have h := of_ite_ne (of_ite_ne h (by decide)) (hs _ _ (by simp))
  cases h

/-! ## The cases of an access -/

/-- A fault of the bus (20_memory.md R84, R86, 70_reset_and_hazards.md R350). -/
abbrev BusFault (f : Fault) : Prop :=
  f = .hazardBusy ∨ f = .busWidth ∨ f = .busUnmapped ∨ f = .busAlign ∨ f = .uninitRead

theorem hostAccess_busy (hb : s.status.busy = true) (ha : a.allowedWhileBusy = false) :
    hostAccess a s = .fault .hazardBusy := by
  rw [hostAccess, if_pos ⟨hb, by simp [ha]⟩]

/-- An access that reaches a register. -/
theorem hostAccess_reg {r : Reg} (hb : s.status.busy = false ∨ a.allowedWhileBusy = true) (hw : a.width = 4)
    (h4 : a.offset % 4 = 0) (hlt : a.offset < 0x1000) (hr : regAt s.build a.offset = some r) :
    hostAccess a s = accessReg a r s := by
  have hb' : a.offset < bufferBase := hlt
  rw [hostAccess, if_neg (by rcases hb with hb | hb <;> simp [hb]), if_pos hb',
    if_neg (by rintro (h | h); exacts [h hw, h h4]), hr]

/-- An access that reaches buffer bytes. -/
theorem hostAccess_buffer (hb : s.status.busy = false) (hlo : 0x1000 ≤ a.offset) (hal : a.offset % a.width = 0)
    (hhi : a.offset + a.width ≤ 0x1000 + s.build.bufSize) :
    hostAccess a s = accessBuffer a (a.offset - 0x1000) s := by
  have hw : 0 < a.width := by cases a <;> simp [Access.width]
  unfold hostAccess bufferBase
  rw [if_neg (by simp [hb]), if_neg (Nat.not_lt.2 hlo), if_neg (by omega), if_neg (by simp [hal]), if_neg (by omega)]

/-- Everything a host access can do: a fault of the bus; a read, which changes nothing but the answer; a write to a
register; a write inside buffer RAM. -/
theorem hostAccess_cases (a : Access) (s : State) :
    (∃ f, hostAccess a s = .fault f ∧ BusFault f) ∨
    (a.data = none ∧ ∃ v, hostAccess a s = .next { s with answer := some v }) ∨
    (s.status.busy = false ∧ ∃ v r, a.data = some v ∧ regAt s.build a.offset = some r ∧ a.width = 4 ∧
      a.offset % 4 = 0 ∧ a.offset < 0x1000 ∧
      hostAccess a s = .next { writeReg s (BitVec.ofNat 32 v) r with answer := none }) ∨
    (s.status.busy = false ∧ ∃ v, a.data = some v ∧ 0x1000 ≤ a.offset ∧ a.offset % a.width = 0 ∧
      a.offset + a.width ≤ 0x1000 + s.build.bufSize ∧
      hostAccess a s = .next
        { s with buf := s.buf.write (a.offset - 0x1000) (leBytes v a.width), answer := none }) := by
  by_cases hb : s.status.busy = true ∧ ¬ a.allowedWhileBusy = true
  · exact .inl ⟨_, hostAccess_busy hb.1 (by simpa using hb.2), .inl rfl⟩
  have hw : a.data ≠ none → s.status.busy = false := by
    intro hd
    cases a <;> simp_all [Access.data, Access.allowedWhileBusy]
  by_cases hlt : a.offset < bufferBase
  · by_cases h4 : a.width ≠ 4 ∨ a.offset % 4 ≠ 0
    · exact .inl ⟨.busWidth, by rw [hostAccess, if_neg hb, if_pos hlt, if_pos h4], .inr (.inl rfl)⟩
    cases hr : regAt s.build a.offset with
    | none =>
      exact .inl ⟨.busUnmapped, by rw [hostAccess, if_neg hb, if_pos hlt, if_neg h4, hr], .inr (.inr (.inl rfl))⟩
    | some r =>
      have h : hostAccess a s = accessReg a r s := by rw [hostAccess, if_neg hb, if_pos hlt, if_neg h4, hr]
      rw [accessReg] at h
      cases hd : a.data with
      | none => exact .inr (.inl ⟨rfl, _, by rw [h, hd]; rfl⟩)
      | some v =>
        refine .inr (.inr (.inl ⟨hw (by simp [hd]), v, r, rfl, rfl, ?_, ?_, hlt, by rw [h, hd]; rfl⟩)) <;> omega
  · by_cases h1 : s.build.bufSize ≤ a.offset - bufferBase
    · exact .inl ⟨.busUnmapped, by rw [hostAccess, if_neg hb, if_neg hlt, if_pos h1], .inr (.inr (.inl rfl))⟩
    by_cases h2 : a.offset % a.width ≠ 0
    · exact .inl ⟨.busAlign, by rw [hostAccess, if_neg hb, if_neg hlt, if_neg h1, if_pos h2],
        .inr (.inr (.inr (.inl rfl)))⟩
    by_cases h3 : s.build.bufSize < a.offset - bufferBase + a.width
    · exact .inl ⟨.busUnmapped, by rw [hostAccess, if_neg hb, if_neg hlt, if_neg h1, if_neg h2, if_pos h3],
        .inr (.inr (.inl rfl))⟩
    have h : hostAccess a s = accessBuffer a (a.offset - bufferBase) s := by
      rw [hostAccess, if_neg hb, if_neg hlt, if_neg h1, if_neg h2, if_neg h3]
    rw [accessBuffer] at h
    unfold bufferBase at *
    cases hd : a.data with
    | none =>
      rw [hd] at h
      cases hr : s.buf.read (a.offset - 0x1000) a.width with
      | none => exact .inl ⟨.uninitRead, by rw [h, hr], .inr (.inr (.inr (.inr rfl)))⟩
      | some bytes => exact .inr (.inl ⟨rfl, _, by rw [h, hr]; rfl⟩)
    | some v =>
      rw [hd] at h
      exact .inr (.inr (.inr ⟨hw (by simp [hd]), v, rfl, by omega, by simpa using h2, by omega, h⟩))

/-- A write to a register changes no parameter, bank, buffer byte or environment field. -/
theorem writeReg_keeps (s : State) (v : Word) (r : Reg) :
    (writeReg s v r).build = s.build ∧ (writeReg s v r).mks = s.mks ∧ (writeReg s v r).slots = s.slots ∧
    (writeReg s v r).buf = s.buf ∧ (writeReg s v r).status.err = s.status.err ∧
    (writeReg s v r).status.fatal = s.status.fatal ∧ (writeReg s v r).status.errcode = s.status.errcode ∧
    (writeReg s v r).faultMark = s.faultMark ∧ (writeReg s v r).script = s.script := by
  cases r <;> exact ⟨rfl, rfl, rfl, rfl, rfl, rfl, rfl, rfl, rfl⟩

end Sys2Proof.Machine
end

