-- ==== Sys2Proof/Laws/Decode.lean ====
section
/-! SUPPORT. The decoder and encoder's small laws: fields against words, opcodes against mnemonics, and when the
decoder accepts. -/

namespace Sys2Proof

theorem bitField_lt (w : Word) (lo width : Nat) : bitField w lo width < 2 ^ width :=
  Nat.mod_lt _ (Nat.two_pow_pos width)

/-- Fields that fit survive the word. -/
theorem Fields.ofWord_toWord {f : Fields} (h : f.op < 256 ∧ f.slot < 16 ∧ f.cipher < 8 ∧ f.nmode < 2 ∧ f.master < 16 ∧
    f.digest < 2 ∧ f.rsv < 2048) : Fields.ofWord f.toWord = f := by
  obtain ⟨op, slot, cipher, nmode, master, digest, rsv⟩ := f
  simp only at h
  simp only [Fields.ofWord, Fields.toWord, bitField, BitVec.toNat_ofNat, Nat.shiftRight_eq_div_pow, Fields.mk.injEq]
  omega

/-- A word is put together again from its fields: no bit is dropped. -/
theorem Fields.toWord_ofWord (w : Word) : (Fields.ofWord w).toWord = w := by
  apply BitVec.eq_of_toNat_eq
  have := w.isLt
  simp only [Fields.ofWord, Fields.toWord, bitField, BitVec.toNat_ofNat, Nat.shiftRight_eq_div_pow]
  omega

theorem mnemonicOf_opcodeOf (k : Mnemonic) : mnemonicOf (opcodeOf k) = some k := by cases k <;> rfl

theorem opcodeOf_of_mnemonicOf {op : Nat} {k : Mnemonic} (h : mnemonicOf op = some k) : opcodeOf k = op := by
  simpa using List.find?_some h

theorem mnemonicOf_eq_none {op : Nat} : mnemonicOf op = none ↔ ∀ k, opcodeOf k ≠ op := by
  constructor
  · rintro h k rfl
    rw [mnemonicOf_opcodeOf] at h
    cases h
  · intro h
    simp [mnemonicOf, h]

/-- The check of the unused fields passes exactly when they are all 0. -/
theorem ifUnusedZero_eq_ok {unused : List Nat} {i j : Instr} :
    ifUnusedZero unused i = .ok j ↔ i = j ∧ ∀ x ∈ unused, x = 0 := by
  unfold ifUnusedZero
  split
  · rename_i h
    simp only [Except.ok.injEq]
    exact ⟨fun hij => ⟨hij, by simpa using h⟩, fun hij => hij.1⟩
  · rename_i h
    simp only [reduceCtorEq, false_iff, not_and]
    intro _ h'
    exact h (by simpa using h')

/-- What a command's fields decode to. -/
theorem Instr.fields_op (i : Instr) : i.fields.op = i.opcode := by cases i <;> rfl

/-- The fields of a well-formed command fit the word. -/
theorem Instr.fields_fit {i : Instr} (h : i.WellFormed) : i.fields.op < 256 ∧ i.fields.slot < 16 ∧
    i.fields.cipher < 8 ∧ i.fields.nmode < 2 ∧ i.fields.master < 16 ∧ i.fields.digest < 2 ∧ i.fields.rsv < 2048 := by
  cases i with
  | subkey slot mk cipher d =>
    cases d <;> simp_all [Instr.WellFormed, Instr.wellFormed, slotFits, mkFits, cipherFits, Instr.fields, Instr.opcode,
      opcodeOf, Instr.mnemonic, Digest.code]
  | create slot cipher n =>
    cases n <;> simp_all [Instr.WellFormed, Instr.wellFormed, slotFits, cipherFits, Instr.fields, Instr.opcode,
      opcodeOf, Instr.mnemonic, NonceMode.code]
  | _ => simp_all [Instr.WellFormed, Instr.wellFormed, slotFits, mkFits, cipherFits, Instr.fields, Instr.opcode,
      opcodeOf, Instr.mnemonic]

/-! ## Words against a mask (30_encoding.md R115) -/

/-- Masking two numbers put together from a high and a low part masks the parts. -/
theorem and_cat {n a c : Nat} (b d : Nat) (ha : a < 2 ^ n) (hc : c < 2 ^ n) :
    (2 ^ n * b + a) &&& (2 ^ n * d + c) = 2 ^ n * (b &&& d) + (a &&& c) := by
  apply Nat.eq_of_testBit_eq
  intro j
  rw [Nat.testBit_and, Nat.testBit_two_pow_mul_add _ ha, Nat.testBit_two_pow_mul_add _ hc,
    Nat.testBit_two_pow_mul_add _ (Nat.and_lt_two_pow a hc)]
  split <;> simp

/-- The fields fit the word. -/
abbrev Fields.Fit (f : Fields) : Prop :=
  f.op < 256 ∧ f.slot < 16 ∧ f.cipher < 8 ∧ f.nmode < 2 ∧ f.master < 16 ∧ f.digest < 2 ∧ f.rsv < 2048

/-- Fields masked one by one. -/
def Fields.and (f g : Fields) : Fields :=
  ⟨f.op &&& g.op, f.slot &&& g.slot, f.cipher &&& g.cipher, f.nmode &&& g.nmode, f.master &&& g.master,
    f.digest &&& g.digest, f.rsv &&& g.rsv⟩

theorem Fields.ofWord_fit (w : Word) : (Fields.ofWord w).Fit :=
  ⟨bitField_lt w 0 8, bitField_lt w 8 4, bitField_lt w 12 3, bitField_lt w 15 1, bitField_lt w 16 4,
    bitField_lt w 20 1, bitField_lt w 21 11⟩

theorem Fields.and_fit {f g : Fields} (h : g.Fit) : (f.and g).Fit := by
  obtain ⟨h1, h2, h3, h4, h5, h6, h7⟩ := h
  exact ⟨Nat.and_lt_two_pow (n := 8) _ h1, Nat.and_lt_two_pow (n := 4) _ h2, Nat.and_lt_two_pow (n := 3) _ h3,
    Nat.and_lt_two_pow (n := 1) _ h4, Nat.and_lt_two_pow (n := 4) _ h5, Nat.and_lt_two_pow (n := 1) _ h6,
    Nat.and_lt_two_pow (n := 11) _ h7⟩

theorem Fields.toNat_toWord {f : Fields} (h : f.Fit) : f.toWord.toNat =
    2 ^ 8 * (2 ^ 4 * (2 ^ 3 * (2 ^ 1 * (2 ^ 4 * (2 ^ 1 * f.rsv + f.digest) + f.master) + f.nmode) + f.cipher)
      + f.slot) + f.op := by
  obtain ⟨h1, h2, h3, h4, h5, h6, h7⟩ := h
  simp only [Fields.toWord, BitVec.toNat_ofNat]
  omega

theorem Fields.and_toWord {f g : Fields} (hf : f.Fit) (hg : g.Fit) : f.toWord &&& g.toWord = (f.and g).toWord := by
  apply BitVec.eq_of_toNat_eq
  rw [BitVec.toNat_and, Fields.toNat_toWord hf, Fields.toNat_toWord hg, Fields.toNat_toWord (Fields.and_fit hg)]
  obtain ⟨h1, h2, h3, h4, h5, h6, h7⟩ := hf
  obtain ⟨g1, g2, g3, g4, g5, g6, g7⟩ := hg
  rw [and_cat _ _ (n := 8) h1 g1, and_cat _ _ (n := 4) h2 g2, and_cat _ _ (n := 3) h3 g3, and_cat _ _ (n := 1) h4 g4,
    and_cat _ _ (n := 4) h5 g5, and_cat _ _ (n := 1) h6 g6]
  rfl

/-- A masked word against a pattern, field by field. -/
theorem Fields.masked_eq_iff (w : Word) {m p : Fields} (hm : m.Fit) (hp : p.Fit) :
    w &&& m.toWord = p.toWord ↔ (Fields.ofWord w).and m = p := by
  have h := Fields.and_toWord (Fields.ofWord_fit w) hm
  rw [Fields.toWord_ofWord] at h
  rw [h]
  constructor
  · intro e
    rw [← Fields.ofWord_toWord (Fields.and_fit hm), e, Fields.ofWord_toWord hp]
  · rintro rfl
    rfl

/-- A field under a mask of ones. -/
theorem bitField_and_ones (w : Word) (lo n : Nat) : bitField w lo n &&& (2 ^ n - 1) = bitField w lo n := by
  rw [Nat.and_two_pow_sub_one_eq_mod, Nat.mod_eq_of_lt (bitField_lt w lo n)]

theorem bitField_eq (w : Word) (lo n : Nat) : bitField w lo n = (w.extractLsb' lo n).toNat := by
  simp [bitField, BitVec.extractLsb'_toNat]

/-- A field of one bit. -/
theorem bitField_one (w : Word) (lo : Nat) : bitField w lo 1 = if w.getLsbD lo then 1 else 0 := by
  rw [bitField_eq, BitVec.extractLsb'_toNat, BitVec.getLsbD, Nat.testBit_eq_decide_div_mod_eq,
    Nat.shiftRight_eq_div_pow]
  by_cases h : w.toNat / 2 ^ lo % 2 = 1 <;> simp [h]
  omega

/-- The OP field of a word that decodes. -/
theorem op_of_decode {w : Word} {i : Instr} (h : decode w = .ok i) : bitField w 0 8 = i.opcode := by
  rw [decode, Fields.decode] at h
  split at h
  · cases h
  all_goals
    rename_i hk
    rw [ifUnusedZero_eq_ok] at h
    obtain ⟨rfl, _⟩ := h
    exact (opcodeOf_of_mnemonicOf hk).symm

end Sys2Proof
end

