-- ==== Sys2Proof/Laws/Kdf.lean ====
section
/-! SUPPORT. The lengths of what the key derivations give, and the registry's bounds. -/

namespace Sys2Proof.Machine

/-! ## Registry -/

theorem keySize_le (c : Cipher) : keySize c ≤ 32 := by cases c <;> decide

theorem keySize_mem (c : Cipher) : keySize c = 16 ∨ keySize c = 24 ∨ keySize c = 32 := by cases c <;> decide

theorem nonceSize_le (c : Cipher) : nonceSize c ≤ 24 := by cases c <;> decide

@[simp] theorem tagSize_eq (c : Cipher) : tagSize c = 16 := by cases c <;> rfl

theorem cipherOfCode_code (c : Cipher) : cipherOfCode (cipherCode c) = some c := by cases c <;> rfl

theorem mem_allCiphers (c : Cipher) : c ∈ allCiphers := by cases c <;> decide

theorem cipherOfCode_eq_none {n : Nat} : cipherOfCode n = none ↔ 5 ≤ n := by
  simp [cipherOfCode, allCiphers]

/-! ## Lengths -/

@[simp] theorem length_hashSha256 (P : Primitives) (m : List Byte) : (hashSha256 P m).length = 32 := by
  simp [hashSha256]

@[simp] theorem length_hashSha1 (P : Primitives) (m : List Byte) : (hashSha1 P m).length = 20 := by
  simp [hashSha1]

@[simp] theorem length_hashMd5 (P : Primitives) (m : List Byte) : (hashMd5 P m).length = 16 := by
  simp [hashMd5]

theorem length_hmac {H : Hash} {n : Nat} (h : ∀ m, (H m).length = n) (K msg : List Byte) :
    (hmac H K msg).length = n := h _

theorem length_pbkdf2Chain (H : Hash) (P : List Byte) (n : Nat) (u acc : List Byte) :
    (pbkdf2Chain H P n u acc).length = acc.length := by
  induction n generalizing u acc with
  | zero => rfl
  | succ n ih => simp [pbkdf2Chain, ih]

theorem length_pbkdf2Block {H : Hash} (h : ∀ m, (H m).length = 32) (P S : List Byte) (iter i : Nat) :
    (pbkdf2Block H P S iter i).length = 32 := by
  simp [pbkdf2Block, length_pbkdf2Chain, length_hmac h]

/-- The T blocks together cover dkLen. -/
theorem length_pbkdf2 {H : Hash} (h : ∀ m, (H m).length = 32) (P S : List Byte) (iter dkLen : Nat) :
    (pbkdf2 H P S iter dkLen).length = dkLen := by
  have hsum : ∀ k, ((List.range k).flatMap fun i => pbkdf2Block H P S iter (i + 1)).length = 32 * k := by
    intro k
    simp [List.length_flatMap, length_pbkdf2Block h, Nat.mul_comm]
  rw [pbkdf2, List.length_take, hsum]
  omega

theorem length_legacyMd5 {H : Hash} (h : ∀ m, (H m).length = 16) (P : List Byte) {L : Nat} (hL : L ≤ 32) :
    (legacyMd5 H P L).length = L := by
  simp [legacyMd5, h]
  omega

theorem length_hkdfExpand {H : Hash} {n : Nat} (h : ∀ m, (H m).length = n) (prk info : List Byte)
    (k i : Nat) (t : List Byte) : (hkdfExpand H prk info k i t).length = k * n := by
  induction k generalizing i t with
  | zero => simp [hkdfExpand]
  | succ k ih => simp [hkdfExpand, ih, length_hmac h, Nat.succ_mul, Nat.add_comm]

theorem length_hkdf {H : Hash} {n : Nat} (h : ∀ m, (H m).length = n) (hn : 0 < n) (salt ikm info : List Byte)
    (L : Nat) : (hkdf H n salt ikm info L).length = L := by
  have hc : L ≤ (L + n - 1) / n * n := by
    have h1 := Nat.div_add_mod (L + n - 1) n
    have h2 := Nat.mod_lt (L + n - 1) hn
    have h3 : n * ((L + n - 1) / n) = (L + n - 1) / n * n := Nat.mul_comm _ _
    omega
  rw [hkdf, List.length_take, length_hkdfExpand h]
  omega

theorem length_deriveSubkey (P : Primitives) (d : Digest) (salt key : List Byte) (L : Nat) :
    (deriveSubkey P d salt key L).length = L := by
  cases d
  · exact length_hkdf (length_hashSha256 P) (by decide) _ _ _ _
  · exact length_hkdf (length_hashSha1 P) (by decide) _ _ _ _

end Sys2Proof.Machine
end

