-- ==== Sys2Proof/Laws/Effect.lean ====
section
/-! SUPPORT. Everything a command can do, said once: `exec_cases`. A command either faults on an input byte that
holds no value or ends with one error code and one of the effects of `Effect`. -/

namespace Sys2Proof.Machine

/-- `Effect i s u e`: command `i` in state `s` ends with code `e`, and `u` is the state its own effects give before
STATUS is written. -/
inductive Effect (i : Instr) (s : State) : State → ErrCode → Prop
  | fatal (hf : s.status.fatal = true) : Effect i s s .fatal
  | raised (hf : s.status.fatal = false) (e : ErrCode)
      (he : e ≠ .ok ∧ e ≠ .fatal ∧ e ≠ .invariant ∧ e ≠ .auth ∧ e ≠ .kdf) : Effect i s s e
  | drift (hf : s.status.fatal = false) (slot code : Nat) (n : NonceMode) (c : Cipher)
      (hi : i = .create slot code n) (hs : slot < s.build.numSlots) (hc : cipherOfCode code = some c)
      (hst : (s.slot slot).st = .keyed) (hb : ¬ BackendAgrees s.build c) : Effect i s s.setFatal .invariant
  | shortInput (hf : s.status.fatal = false) (slot : Nat) (hi : i = .decrypt slot) (hs : slot < s.build.numSlots)
      (hst : (s.slot slot).st = .active) (hd : (s.slot slot).dir ≠ .enc) (hl : s.srcLen.toNat < 16) :
      Effect i s (s.setSlot slot (s.slot slot).failed) .auth
  | authFailed (hf : s.status.fatal = false) (slot : Nat) (hi : i = .decrypt slot) (hs : slot < s.build.numSlots)
      (hst : (s.slot slot).st = .active) (hd : (s.slot slot).dir ≠ .enc) (hl : 16 ≤ s.srcLen.toNat)
      (hsrc : s.InRange s.srcOff.toNat s.srcLen.toNat) (hdst : s.InRange s.dstOff.toNat (s.srcLen.toNat - 16))
      (t : List Byte) (ht : s.src = some t) (ho : (s.slot slot).opened s.prims t = none) :
      Effect i s ((s.killDst (s.srcLen.toNat - 16)).setSlot slot (s.slot slot).failed) .auth
  | computed (hf : s.status.fatal = false)
      (hi : i = .parse ∨ (∃ c, i = .specOf c) ∨ ∃ slot, i = .expectedLen slot) (w : Word) :
      Effect i s (s.setResult w) .ok
  | named (hf : s.status.fatal = false) (code : Nat) (c : Cipher) (hi : i = .nameOf code)
      (hc : cipherOfCode code = some c) (hdst : s.InRange s.dstOff.toNat (cipherName c).length) :
      Effect i s ((s.writeDst (cipherName c)).setResultNat (cipherName c).length) .ok
  | derived (hf : s.status.fatal = false) (m code : Nat) (c : Cipher)
      (hi : i = .mkPbkdf2 m code ∨ i = .mkLegacy m code) (hm : m < s.build.numMk)
      (hv : (s.master m).valid = false) (alg : KeyAlg) (key : List Byte) (hk : key.length = keySize c) :
      Effect i s (s.setMaster m (MasterKey.derived alg key (keySize c))) .ok
  | cleared (hf : s.status.fatal = false) (m : Nat) (hi : i = .mkClear m) (hm : m < s.build.numMk) :
      Effect i s (s.setMaster m MasterKey.cleared) .ok
  | loaded (hf : s.status.fatal = false) (slot : Nat)
      (hi : (∃ m c d, i = .subkey slot m c d) ∨ i = .loadKey slot) (hs : slot < s.build.numSlots)
      (hst : (s.slot slot).st = .free) (key : List Byte) (hk : key.length ≤ 32) :
      Effect i s (s.setSlot slot ((s.slot slot).load key key.length)) .ok
  | created (hf : s.status.fatal = false) (slot code : Nat) (n : NonceMode) (c : Cipher)
      (hi : i = .create slot code n) (hs : slot < s.build.numSlots) (hc : cipherOfCode code = some c)
      (hst : (s.slot slot).st = .keyed) (hb : BackendAgrees s.build c)
      (hk : (s.slot slot).keyLen.toNat = keySize c) :
      Effect i s (s.setSlot slot ((s.slot slot).created c n)) .ok
  | released (hf : s.status.fatal = false) (slot : Nat) (hi : i = .release slot) (hs : slot < s.build.numSlots) :
      Effect i s (s.setSlot slot Slot.cleared) .ok
  | encrypted (hf : s.status.fatal = false) (slot : Nat) (hi : i = .encrypt slot) (hs : slot < s.build.numSlots)
      (hst : (s.slot slot).st = .active) (hd : (s.slot slot).dir ≠ .dec)
      (hsrc : s.InRange s.srcOff.toNat s.srcLen.toNat) (hdst : s.InRange s.dstOff.toNat (s.srcLen.toNat + 16))
      (p : List Byte) (hp : s.src = some p) :
      Effect i s (((s.writeDst ((s.slot slot).sealed s.prims p)).setResultNat (s.srcLen.toNat + 16)).setSlot slot
        ((s.slot slot).bound .enc).nonceAdvance) .ok
  | decrypted (hf : s.status.fatal = false) (slot : Nat) (hi : i = .decrypt slot) (hs : slot < s.build.numSlots)
      (hst : (s.slot slot).st = .active) (hd : (s.slot slot).dir ≠ .enc) (hl : 16 ≤ s.srcLen.toNat)
      (hsrc : s.InRange s.srcOff.toNat s.srcLen.toNat) (hdst : s.InRange s.dstOff.toNat (s.srcLen.toNat - 16))
      (t r : List Byte) (ht : s.src = some t) (ho : (s.slot slot).opened s.prims t = some r) :
      Effect i s (((s.writeDst r).setResultNat (s.srcLen.toNat - 16)).setSlot slot
        ((s.slot slot).bound .dec).nonceAdvance) .ok

/-- A result that is the fault UNINIT_INPUT or one of the effects. -/
def Ends (i : Instr) (s : State) (r : Result) : Prop :=
  r = .fault .uninitInput ∨ ∃ u e, r = .next (u.ended e) ∧ Effect i s u e

variable {i : Instr} {s : State} {k : Result}

theorem Ends.of_effect {u : State} {e : ErrCode} (h : Effect i s u e) : Ends i s (.next (u.ended e)) :=
  .inr ⟨u, e, rfl, h⟩

/-! ## The shared checks -/

theorem ends_unlessFatal (h : s.status.fatal = false → Ends i s k) : Ends i s (s.unlessFatal k) := by
  unfold State.unlessFatal
  split
  · exact .of_effect (.fatal ‹_›)
  · rename_i hf
    exact h (Bool.eq_false_iff.2 hf)

theorem ends_withSlot (hf : s.status.fatal = false) {slot : Nat} (h : slot < s.build.numSlots → Ends i s k) :
    Ends i s (s.withSlot slot k) := by
  unfold State.withSlot
  split
  · exact h ‹_›
  · exact .of_effect (.raised hf .range (by decide))

theorem ends_withMk (hf : s.status.fatal = false) {m : Nat} (h : m < s.build.numMk → Ends i s k) :
    Ends i s (s.withMk m k) := by
  unfold State.withMk
  split
  · exact h ‹_›
  · exact .of_effect (.raised hf .range (by decide))

theorem ends_withCipher (hf : s.status.fatal = false) {code : Nat} {k : Cipher → Result}
    (h : ∀ c, cipherOfCode code = some c → Ends i s (k c)) : Ends i s (s.withCipher code k) := by
  unfold State.withCipher
  split
  · exact .of_effect (.raised hf .unknownCipher (by decide))
  · exact h _ ‹_›

theorem ends_checkRange (hf : s.status.fatal = false) {off len : Nat} (h : s.InRange off len → Ends i s k) :
    Ends i s (s.checkRange off len k) := by
  unfold State.checkRange
  split
  · exact h ‹_›
  · exact .of_effect (.raised hf .range (by decide))

theorem ends_withInput {input : Option (List Byte)} {k : List Byte → Result}
    (h : ∀ p, input = some p → Ends i s (k p)) : Ends i s (withInput input k) := by
  cases input with
  | none => exact .inl rfl
  | some p => exact h p rfl

theorem ends_checkCrypter (hf : s.status.fatal = false) {sl : Slot} {d : Direction}
    (h : sl.st = .active → sl.dir ≠ d → Ends i s k) : Ends i s (s.checkCrypter sl d k) := by
  unfold State.checkCrypter
  split
  · exact .of_effect (.raised hf .slotState (by decide))
  · exact .of_effect (.raised hf .slotState (by decide))
  · exact .of_effect (.raised hf .slotState (by decide))
  · exact .of_effect (.raised hf .nonceExhausted (by decide))
  · split
    · exact .of_effect (.raised hf .direction (by decide))
    · exact h ‹_› ‹_›

/-! ## The commands -/

theorem length_src {p : List Byte} (h : s.src = some p) : p.length = s.srcLen.toNat := Memory.read_length h

theorem length_sealed (sl : Slot) (P : Primitives) (p : List Byte) : (sl.sealed P p).length = p.length + 16 := by
  simp [Slot.sealed]

theorem length_opened {sl : Slot} {P : Primitives} {t r : List Byte} (h : sl.opened P t = some r) :
    r.length = t.length - 16 := by
  simp only [Slot.opened, Option.map_eq_some_iff] at h
  obtain ⟨v, _, rfl⟩ := h
  simp

theorem ends_parse (s : State) : Ends .parse s (exec .parse s) :=
  ends_unlessFatal fun hf => ends_checkRange hf fun _ => ends_withInput fun nm _ => by
    split
    · exact .of_effect (.computed hf (.inl rfl) _)
    · exact .of_effect (.raised hf .unknownCipher (by decide))

theorem ends_nameOf (code : Nat) (s : State) : Ends (.nameOf code) s (exec (.nameOf code) s) :=
  ends_unlessFatal fun hf => ends_withCipher hf fun c hc => ends_checkRange hf fun hd =>
    .of_effect (.named hf code c rfl hc hd)

theorem ends_specOf (code : Nat) (s : State) : Ends (.specOf code) s (exec (.specOf code) s) :=
  ends_unlessFatal fun hf => ends_withCipher hf fun _ _ =>
    .of_effect (.computed hf (.inr (.inl ⟨code, rfl⟩)) _)

theorem ends_mkPbkdf2 (m code : Nat) (s : State) : Ends (.mkPbkdf2 m code) s (exec (.mkPbkdf2 m code) s) :=
  ends_unlessFatal fun hf => ends_withMk hf fun hm => ends_withCipher hf fun c _ => by
    split
    · exact .of_effect (.raised hf .mkState (by decide))
    · rename_i hv
      exact ends_checkRange hf fun _ => ends_checkRange hf fun _ => ends_withInput fun p _ =>
        ends_withInput fun q _ => .of_effect (.derived hf m code c (.inl rfl) hm (by simpa using hv) _ _
          (length_pbkdf2 (length_hashSha256 _) _ _ _ _))

theorem ends_mkLegacy (m code : Nat) (s : State) : Ends (.mkLegacy m code) s (exec (.mkLegacy m code) s) :=
  ends_unlessFatal fun hf => ends_withMk hf fun hm => ends_withCipher hf fun c _ => by
    split
    · exact .of_effect (.raised hf .mkState (by decide))
    · rename_i hv
      refine ends_checkRange hf fun _ => ends_withInput fun p _ => ?_
      rw [if_neg (Nat.not_lt.2 (keySize_le c))]
      exact .of_effect (.derived hf m code c (.inr rfl) hm (by simpa using hv) _ _
        (length_legacyMd5 (length_hashMd5 _) _ (keySize_le c)))

theorem ends_mkClear (m : Nat) (s : State) : Ends (.mkClear m) s (exec (.mkClear m) s) :=
  ends_unlessFatal fun hf => ends_withMk hf fun hm => .of_effect (.cleared hf m rfl hm)

theorem ends_subkey (slot m code : Nat) (d : Digest) (s : State) :
    Ends (.subkey slot m code d) s (exec (.subkey slot m code d) s) :=
  ends_unlessFatal fun hf => ends_withSlot hf fun hs => ends_withMk hf fun _ => ends_withCipher hf fun c _ => by
    split
    · exact .of_effect (.raised hf .slotState (by decide))
    split
    · exact .of_effect (.raised hf .mkState (by decide))
    split
    · exact .of_effect (.raised hf .len (by decide))
    refine ends_checkRange hf fun _ => ?_
    split
    · exact .of_effect (.raised hf .keyLen (by decide))
    refine ends_withInput fun salt _ => ?_
    have hlen := length_deriveSubkey s.prims d salt ((s.master m).key.toList.take (keySize c)) (keySize c)
    have h := Effect.loaded hf slot (i := .subkey slot m code d) (.inl ⟨m, code, d, rfl⟩) hs
      (by simpa using ‹¬ (s.slot slot).st ≠ .free›) _ (hlen.trans_le (keySize_le c))
    rw [hlen] at h
    exact .of_effect h

theorem ends_loadKey (slot : Nat) (s : State) : Ends (.loadKey slot) s (exec (.loadKey slot) s) :=
  ends_unlessFatal fun hf => ends_withSlot hf fun hs => by
    split
    · exact .of_effect (.raised hf .slotState (by decide))
    split
    · exact .of_effect (.raised hf .len (by decide))
    refine ends_checkRange hf fun _ => ends_withInput fun key hk => ?_
    exact .of_effect (.loaded hf slot (.inr rfl) hs (by simpa using ‹¬ (s.slot slot).st ≠ .free›) key
      (by rw [length_src hk]; omega))

theorem ends_create (slot code : Nat) (n : NonceMode) (s : State) :
    Ends (.create slot code n) s (exec (.create slot code n) s) :=
  ends_unlessFatal fun hf => ends_withSlot hf fun hs => ends_withCipher hf fun c hc => by
    split
    · exact .of_effect (.raised hf .slotState (by decide))
    rename_i hst
    split
    · exact .of_effect (.drift hf slot code n c rfl hs hc (by simpa using hst) ‹_›)
    rename_i hb
    split
    · exact .of_effect (.raised hf .keyLen (by decide))
    rename_i hk
    exact .of_effect (.created hf slot code n c rfl hs hc (by simpa using hst) (not_not.1 hb) (not_not.1 hk))

theorem ends_release (slot : Nat) (s : State) : Ends (.release slot) s (exec (.release slot) s) :=
  ends_unlessFatal fun hf => ends_withSlot hf fun hs => .of_effect (.released hf slot rfl hs)

theorem ends_encrypt (slot : Nat) (s : State) : Ends (.encrypt slot) s (exec (.encrypt slot) s) :=
  ends_unlessFatal fun hf => ends_withSlot hf fun hs => ends_checkCrypter hf fun hst hd =>
    ends_checkRange hf fun hsrc => ends_checkRange hf fun hdst => ends_withInput fun p hp => by
      simp only [tagSize_eq] at hdst
      have h := Effect.encrypted hf slot (i := .encrypt slot) rfl hs hst hd hsrc hdst p hp
      simp only [length_sealed, length_src hp]
      exact .of_effect h

theorem ends_decrypt (slot : Nat) (s : State) : Ends (.decrypt slot) s (exec (.decrypt slot) s) :=
  ends_unlessFatal fun hf => ends_withSlot hf fun hs => ends_checkCrypter hf fun hst hd => by
    simp only [tagSize_eq, State.authFail]
    split
    · exact .of_effect (.shortInput hf slot rfl hs hst hd ‹_›)
    rename_i hl
    refine ends_checkRange hf fun hsrc => ends_checkRange hf fun hdst => ends_withInput fun t ht => ?_
    split
    · exact .of_effect (.authFailed hf slot rfl hs hst hd (Nat.not_lt.1 hl) hsrc hdst t ht ‹_›)
    · rename_i r ho
      rw [length_opened ho, length_src ht]
      exact .of_effect (.decrypted hf slot rfl hs hst hd (Nat.not_lt.1 hl) hsrc hdst t r ht ho)

theorem ends_expectedLen (slot : Nat) (s : State) : Ends (.expectedLen slot) s (exec (.expectedLen slot) s) :=
  ends_unlessFatal fun hf => ends_withSlot hf fun _ => by
    simp only
    split
    · exact .of_effect (.raised hf .slotState (by decide))
    split
    · exact .of_effect (.raised hf .len (by decide))
    exact .of_effect (.computed hf (.inr (.inr ⟨slot, rfl⟩)) _)

/-- Everything a command can do. -/
theorem exec_cases (i : Instr) (s : State) :
    exec i s = .fault .uninitInput ∨ ∃ u e, exec i s = .next (u.ended e) ∧ Effect i s u e := by
  cases i with
  | parse => exact ends_parse s
  | nameOf c => exact ends_nameOf c s
  | specOf c => exact ends_specOf c s
  | mkPbkdf2 m c => exact ends_mkPbkdf2 m c s
  | mkLegacy m c => exact ends_mkLegacy m c s
  | mkClear m => exact ends_mkClear m s
  | subkey slot m c d => exact ends_subkey slot m c d s
  | loadKey slot => exact ends_loadKey slot s
  | create slot c n => exact ends_create slot c n s
  | release slot => exact ends_release slot s
  | encrypt slot => exact ends_encrypt slot s
  | decrypt slot => exact ends_decrypt slot s
  | expectedLen slot => exact ends_expectedLen slot s

/-- The effect behind a next state. -/
theorem effect_of_next {t : State} (h : exec i s = .next t) : ∃ u e, t = u.ended e ∧ Effect i s u e := by
  rcases exec_cases i s with h' | ⟨u, e, h', he⟩
  · rw [h] at h'
    cases h'
  · rw [h] at h'
    cases h'
    exact ⟨u, e, rfl, he⟩

end Sys2Proof.Machine
end

