-- ==== Sys2Proof/Laws/PerInstr.lean ====
section
/-! SUPPORT. What holds of every command as syntax, one lemma per constructor: the family `EncodedFields`. -/

namespace Sys2Proof.Laws.EncodedFields

/-- Cutting a well-formed command's word by format C gives exactly the command's fields, and RSV is 0
(30_encoding.md R111, R115). -/
def Statement (i : Instr) : Prop := i.WellFormed → Fields.ofWord (encode i) = i.fields ∧ i.fields.rsv = 0

theorem ofWord_encode {i : Instr} (h : i.WellFormed) : Fields.ofWord (encode i) = i.fields :=
  Fields.ofWord_toWord (Instr.fields_fit h)

theorem parse : Statement .parse := fun h => ⟨ofWord_encode h, rfl⟩

theorem nameOf (cipher : Nat) : Statement (.nameOf cipher) := fun h => ⟨ofWord_encode h, rfl⟩

theorem specOf (cipher : Nat) : Statement (.specOf cipher) := fun h => ⟨ofWord_encode h, rfl⟩

theorem mkPbkdf2 (mk cipher : Nat) : Statement (.mkPbkdf2 mk cipher) := fun h => ⟨ofWord_encode h, rfl⟩

theorem mkLegacy (mk cipher : Nat) : Statement (.mkLegacy mk cipher) := fun h => ⟨ofWord_encode h, rfl⟩

theorem mkClear (mk : Nat) : Statement (.mkClear mk) := fun h => ⟨ofWord_encode h, rfl⟩

theorem subkey (slot mk cipher : Nat) (digest : Digest) : Statement (.subkey slot mk cipher digest) :=
  fun h => ⟨ofWord_encode h, rfl⟩

theorem loadKey (slot : Nat) : Statement (.loadKey slot) := fun h => ⟨ofWord_encode h, rfl⟩

theorem create (slot cipher : Nat) (nmode : NonceMode) : Statement (.create slot cipher nmode) :=
  fun h => ⟨ofWord_encode h, rfl⟩

theorem release (slot : Nat) : Statement (.release slot) := fun h => ⟨ofWord_encode h, rfl⟩

theorem encrypt (slot : Nat) : Statement (.encrypt slot) := fun h => ⟨ofWord_encode h, rfl⟩

theorem decrypt (slot : Nat) : Statement (.decrypt slot) := fun h => ⟨ofWord_encode h, rfl⟩

theorem expectedLen (slot : Nat) : Statement (.expectedLen slot) := fun h => ⟨ofWord_encode h, rfl⟩

end Sys2Proof.Laws.EncodedFields
end

