-- ==== Sys2Proof/Laws/Primitives.lean ====
section
/-! SUPPORT. The standard functions have property T3 of 43_crypter.md R262: opening a sealing gives the plaintext
back. -/

namespace Sys2Proof.Machine

/-- Taking a string that fills a register out of its list leaves its first part. -/
theorem take_toList_fit {n k : Nat} {a b : List Byte} (hn : (a ++ b).length = n) (hk : a.length = k) :
    (fit n (a ++ b)).toList.take k = a := by
  rw [toList_fit_self hn, ← hk, List.take_left]

theorem drop_toList_fit {n k : Nat} {a b : List Byte} (hn : (a ++ b).length = n) (hk : a.length = k) :
    (fit n (a ++ b)).toList.drop k = b := by
  rw [toList_fit_self hn, ← hk, List.drop_left]

/-- T3 for the standard functions, every cipher, key and nonce. -/
theorem roundTrips_standard (c : Cipher) (key nonce : List Byte) : RoundTrips standardPrimitives c key nonce := by
  intro p
  show (standardOpen c key nonce [] (standardSeal c key nonce [] p).toList).map (·.toList) = some p
  generalize hbody : xorBytes p (standardStream c key nonce p.length) = body
  have hlb : body.length = p.length := by rw [← hbody, length_xorBytes]
  have hl : (body ++ (standardTag c key nonce [] body).toList).length = p.length + 16 := by simp [hlb]
  have hs : standardSeal c key nonce [] p = fit _ (body ++ (standardTag c key nonce [] body).toList) := by
    rw [standardSeal, hbody]
  have hk : (standardSeal c key nonce [] p).toList.length - 16 = p.length := by simp
  have ht : (standardSeal c key nonce [] p).toList.take p.length = body := by rw [hs]; exact take_toList_fit hl hlb
  have hd : (standardSeal c key nonce [] p).toList.drop p.length = (standardTag c key nonce [] body).toList := by
    rw [hs]
    exact drop_toList_fit hl hlb
  simp only [standardOpen, hk, ht, hd, if_true, Option.map_some, Option.some.injEq]
  rw [toList_fit_self (by simp [hlb]), hlb, ← hbody, xorBytes_self_inverse]

end Sys2Proof.Machine
end

