-- ==== Sys2Proof/Laws/Step.lean ====
section
/-! SUPPORT. Everything the completion step and a step can do, said once: `complete_cases` and `step_cases`. -/

namespace Sys2Proof.Machine

variable {s t : State}

/-- The completion step: the fault UNINIT_INPUT, an effect of the decoded command, or a rejected word. -/
theorem complete_cases (s : State) :
    s.complete = .fault .uninitInput ∨
    (∃ i u e, decode s.cmd = .ok i ∧ s.complete = .next (u.ended e) ∧ Effect i s u e) ∨
    (s.complete = .next (s.ended .illegal) ∧ s.status.fatal = false) ∨
    (s.complete = .next (s.ended .fatal) ∧ s.status.fatal = true) := by
  unfold State.complete
  split
  · rename_i i hi
    rcases exec_cases i s with h | ⟨u, e, h, he⟩
    · exact .inl h
    · exact .inr (.inl ⟨i, u, e, hi, h, he⟩)
  · unfold State.rejectWord State.unlessFatal
    split
    · exact .inr (.inr (.inr ⟨rfl, ‹_›⟩))
    · rename_i hf
      exact .inr (.inr (.inl ⟨rfl, Bool.eq_false_iff.2 hf⟩))

/-- What a step does: nothing (an idle block), the completion step, a host access or RESET, each after taking the
event from the script. -/
theorem step_cases (h : step s = .next t) : s.faultMark = none ∧ ∃ es, (s.script = es ∨ ∃ e, s.script = e :: es) ∧
    (t = { s with script := es } ∨
      (s.status.busy = true ∧ State.complete { s with script := es } = .next t) ∨
      (∃ a, s.script = .host a :: es ∧ hostAccess a { s with script := es } = .next t) ∨
      (s.script = .reset :: es ∧ t = State.applyReset { s with script := es })) := by
  unfold step at h
  split at h
  · cases h
  refine ⟨‹_›, ?_⟩
  unfold State.nextEvent at h
  split at h
  · rename_i hs
    refine ⟨[], .inl hs, ?_⟩
    have e : { s with script := [] } = s := by rw [← hs]
    rw [e]
    unfold State.blockTurn at h
    split at h
    · exact .inr (.inl ⟨‹_›, h⟩)
    · cases h
      exact .inl rfl
  · rename_i e es hs
    refine ⟨es, .inr ⟨e, hs⟩, ?_⟩
    cases e with
    | host a => exact .inr (.inr (.inl ⟨a, hs, h⟩))
    | turn =>
      simp only [State.onEvent, State.blockTurn] at h
      split at h
      · exact .inr (.inl ⟨‹_›, h⟩)
      · cases h
        exact .inl rfl
    | reset =>
      cases h
      exact .inr (.inr (.inr ⟨hs, rfl⟩))

end Sys2Proof.Machine
end

