-- ==== Sys2Proof/Tests/Slice0.lean ====
section
/-! SUPPORT. Small tests: well-formedness, decoding of words written out from spec/30_encoding.md, the vectors of
spec/95_test_vectors.md, one step each, and for every obligation with hypotheses a witness that meets them. -/

namespace Sys2Proof.Tests

open Sys2Proof Sys2Proof.Machine

set_option Elab.async false

/-! ## Helpers -/

/-- `n` bytes counting up from `first`. -/
def upFrom (first n : Nat) : List Byte := (List.range n).map fun i => BitVec.ofNat 8 (first + i)

/-- Buffer bytes from `off` on set to `v`. -/
def put (off : Nat) (v : List Byte) (s : State) : State := s.setBuf (s.buf.write off v)

/-- SETSRC (30_encoding.md R122). -/
def src (off len : Nat) (s : State) : State := { s with srcOff := BitVec.ofNat 32 off, srcLen := BitVec.ofNat 32 len }

/-- SETDST (30_encoding.md R122). -/
def dst (off : Nat) (s : State) : State := { s with dstOff := BitVec.ofNat 32 off }

/-- SETAUX (30_encoding.md R122). -/
def aux (off len : Nat) (s : State) : State := { s with auxOff := BitVec.ofNat 32 off, auxLen := BitVec.ofNat 32 len }

/-- A KEYED slot with the key 00, 01, ... -/
def keyedSlot (len : Nat) : Slot := Slot.cleared.load (upFrom 0 len) len

/-- An ACTIVE slot with the key 00, 01, ... -/
def activeSlot (c : Cipher) (n : NonceMode) : Slot := (keyedSlot (keySize c)).created c n

/-- Reset with slot 0 holding `sl`. -/
def slot0 (sl : Slot) : State := State.reset.setSlot 0 sl

/-- A Sequential ChaCha20 slot at its largest nonce, key 00 x 32 (spec/95_test_vectors.md X6.5). -/
def lastNonceSlot : Slot :=
  { Slot.cleared.created .chacha20Poly1305 .sequential with
    keyLen := 32, nonce := fit 24 (List.replicate 12 0xFF#8) }

/-- A valid legacy master key with the key 00, 01, ... -/
def legacyKey (len : Nat) : MasterKey := MasterKey.derived .legacy (upFrom 0 len) len

/-- Reset with master-key register 0 holding `k`. -/
def master0 (k : MasterKey) : State := State.reset.setMaster 0 k

/-- The build of X5.2: BK_NONCE_LEN(4) = 12. -/
def driftBuild : Build := { Build.specExample with bkNonceLen := #v[12, 12, 12, 12, 12] }

/-- The state after the command word `w`, run as the next step, seen through `f`. -/
def view {α : Type} (s : State) (w : Nat) (f : State → α) : Option α :=
  match step (s.withFetchWord 32 w) with
  | .next t => some (f t)
  | .fault _ => none
  | .refused _ => none

/-- STATUS after the command word `w`. -/
def statusAfter (s : State) (w : Nat) : Option Word := view s w fun t => statusWord t.status

/-- Buffer bytes of a state. -/
def bytesAt (off n : Nat) (s : State) : Option (List Byte) := s.buf.read off n

/-! ## Well-formedness: each check refuses an ill-formed term (30_encoding.md R111) -/

theorem test_slot_field_refused : (Instr.encrypt 16).wellFormed = false ∧ (Instr.encrypt 15).wellFormed = true := by
  decide

theorem test_mk_field_refused : (Instr.mkClear 16).wellFormed = false ∧ (Instr.mkClear 15).wellFormed = true := by
  decide

theorem test_cipher_field_refused : (Instr.specOf 8).wellFormed = false ∧ (Instr.specOf 7).wellFormed = true := by
  decide

theorem test_wellFormed_checks_every_field :
    (Instr.subkey 16 0 0 .sha1).wellFormed = false ∧ (Instr.subkey 0 16 0 .sha1).wellFormed = false ∧
    (Instr.subkey 0 0 8 .sha1).wellFormed = false ∧ (Instr.create 16 0 .zero).wellFormed = false ∧
    (Instr.create 0 8 .zero).wellFormed = false ∧ (Instr.mkPbkdf2 16 0).wellFormed = false ∧
    (Instr.mkPbkdf2 0 8).wellFormed = false ∧ (Instr.mkLegacy 16 0).wellFormed = false ∧
    (Instr.mkLegacy 0 8).wellFormed = false ∧ (Instr.nameOf 8).wellFormed = false ∧
    (Instr.loadKey 16).wellFormed = false ∧ (Instr.release 16).wellFormed = false ∧
    (Instr.decrypt 16).wellFormed = false ∧ (Instr.expectedLen 16).wellFormed = false := by decide

/-! ## Decoding: words written out bit by bit from 30_encoding.md R111 and R114 (RSV, DIGEST, MK, NMODE, CIPHER,
SLOT, OP) -/

theorem test_decode_parse :
    decode (0b00000000000#11 ++ 0b0#1 ++ 0b0000#4 ++ 0b0#1 ++ 0b000#3 ++ 0b0000#4 ++ 0b00000001#8) = .ok .parse := by
  decide

theorem test_decode_nameOf :
    decode (0b00000000000#11 ++ 0b0#1 ++ 0b0000#4 ++ 0b0#1 ++ 0b100#3 ++ 0b0000#4 ++ 0b00000010#8) = .ok (.nameOf 4) := by
  decide

theorem test_decode_specOf :
    decode (0b00000000000#11 ++ 0b0#1 ++ 0b0000#4 ++ 0b0#1 ++ 0b011#3 ++ 0b0000#4 ++ 0b00000011#8) = .ok (.specOf 3) := by
  decide

theorem test_decode_mkPbkdf2 :
    decode (0b00000000000#11 ++ 0b0#1 ++ 0b0001#4 ++ 0b0#1 ++ 0b010#3 ++ 0b0000#4 ++ 0b00010000#8) =
      .ok (.mkPbkdf2 1 2) := by decide

theorem test_decode_mkLegacy :
    decode (0b00000000000#11 ++ 0b0#1 ++ 0b1000#4 ++ 0b0#1 ++ 0b001#3 ++ 0b0000#4 ++ 0b00010001#8) =
      .ok (.mkLegacy 8 1) := by decide

theorem test_decode_mkClear :
    decode (0b00000000000#11 ++ 0b0#1 ++ 0b0101#4 ++ 0b0#1 ++ 0b000#3 ++ 0b0000#4 ++ 0b00010010#8) =
      .ok (.mkClear 5) := by decide

theorem test_decode_subkey :
    decode (0b00000000000#11 ++ 0b1#1 ++ 0b0110#4 ++ 0b0#1 ++ 0b100#3 ++ 0b1001#4 ++ 0b00011000#8) =
      .ok (.subkey 9 6 4 .sha1) := by decide

theorem test_decode_loadKey :
    decode (0b00000000000#11 ++ 0b0#1 ++ 0b0000#4 ++ 0b0#1 ++ 0b000#3 ++ 0b0010#4 ++ 0b00011001#8) =
      .ok (.loadKey 2) := by decide

theorem test_decode_create :
    decode (0b00000000000#11 ++ 0b0#1 ++ 0b0000#4 ++ 0b1#1 ++ 0b011#3 ++ 0b0010#4 ++ 0b00100000#8) =
      .ok (.create 2 3 .zero) := by decide

theorem test_decode_release :
    decode (0b00000000000#11 ++ 0b0#1 ++ 0b0000#4 ++ 0b0#1 ++ 0b000#3 ++ 0b0001#4 ++ 0b00100001#8) =
      .ok (.release 1) := by decide

theorem test_decode_encrypt :
    decode (0b00000000000#11 ++ 0b0#1 ++ 0b0000#4 ++ 0b0#1 ++ 0b000#3 ++ 0b0001#4 ++ 0b00110000#8) =
      .ok (.encrypt 1) := by decide

theorem test_decode_decrypt :
    decode (0b00000000000#11 ++ 0b0#1 ++ 0b0000#4 ++ 0b0#1 ++ 0b000#3 ++ 0b1111#4 ++ 0b00110001#8) =
      .ok (.decrypt 15) := by decide

theorem test_decode_expectedLen :
    decode (0b00000000000#11 ++ 0b0#1 ++ 0b0000#4 ++ 0b0#1 ++ 0b000#3 ++ 0b0011#4 ++ 0b00110010#8) =
      .ok (.expectedLen 3) := by decide

/-- R120's examples, R123's words and three illegal words of X1. -/
theorem test_encode_examples :
    encode (.create 0 2 .sequential) = 0x00002020 ∧ encode (.subkey 1 0 2 .sha1) = 0x00102118 ∧
    encode (.create 2 3 .zero) = 0x0000B220 ∧ encode (.mkPbkdf2 1 0) = 0x00010010 ∧
    decode 0x00000000 = .error .unassignedOpcode ∧ decode 0x00000101 = .error .nonzeroUnusedField ∧
    decode 0x00011012 = .error .nonzeroUnusedField := by decide

/-- The interface the pipeline uses agrees (R110). -/
theorem test_decodeTableWord : decodeTableWord 32 0x0000B220 = some (.create 2 3 .zero) ∧
    decodeTableWord 32 0x00200230 = none := by decide

/-! ## Errors in the order of 60_exceptions.md R305 (spec/95_test_vectors.md X1) -/

theorem test_decoding_errors :
    [0x00000000, 0x00000004, 0x000000FF, 0x00000101, 0x00011012, 0x00200230, 0x00001530].map
        (statusAfter State.reset) = List.replicate 7 (some 0x102) := by decide +kernel

theorem test_index_errors_before_cipher_errors :
    [0x00006720, 0x00026718, 0x00000530].map (statusAfter State.reset) = List.replicate 3 (some 0x302) ∧
    [0x00006020, 0x00006018].map (statusAfter State.reset) = List.replicate 2 (some 0x202) ∧
    statusAfter State.reset 0x00000018 = some 0x602 := by decide +kernel

theorem test_free_slot_errors :
    [0x00000030, 0x00000031, 0x00000032].map (statusAfter State.reset) = List.replicate 3 (some 0x502) ∧
    statusAfter State.reset 0x00000021 = some 0 := by decide +kernel

theorem test_fatal_block :
    [0x00000021, 0x00000000, 0x00000001].map (statusAfter State.reset.setFatal) =
      List.replicate 3 (some 0xE06) := by decide +kernel

/-! ## The commands (spec/95_test_vectors.md V1, X3-X6; MD5, SHA and AEAD bytes from there too) -/

/-- X3.1, row 4. -/
theorem test_parse_name :
    view (put 0 (ascii "chacha20-ietf-poly1305") (src 0 22 State.reset)) 0x00000001
      (fun t => (statusWord t.status, t.result)) = some (0, 3) := by decide +kernel

/-- X3.1, row 6, and X2: the range check does not wrap. -/
theorem test_parse_errors :
    view (put 0 (ascii "AES-256-GCM") (src 0 11 { State.reset with result := 7 })) 0x00000001
      (fun t => (statusWord t.status, t.result)) = some (0x202, 7) ∧
    statusAfter (src 0xFFFFFFFF 2 State.reset) 0x00000001 = some 0x302 := by decide +kernel

/-- P1 step 6. -/
theorem test_nameOf_writes :
    view (dst 0x40 State.reset) 0x00004002 (fun t => (t.result, bytesAt 0x40 23 t)) =
      some (23, some (ascii "xchacha20-ietf-poly1305")) := by decide +kernel

/-- X3.2: the last place where the name fits, and the one after it. -/
theorem test_nameOf_range :
    statusAfter (dst 4085 State.reset) 0x00000002 = some 0 ∧
    view (dst 4086 State.reset) 0x00000002 (fun t => (statusWord t.status, t.buf)) = some (0x302, []) := by
  decide +kernel

/-- X3.3. -/
theorem test_specOf_words :
    [0x0003, 0x1003, 0x2003, 0x3003, 0x4003].map (fun w => view State.reset w (·.result)) =
      [some 0x100C1010, some 0x100C1818, some 0x100C2020, some 0x100C2020, some 0x10182020] ∧
    [0x5003, 0x6003, 0x7003].map (statusAfter State.reset) = List.replicate 3 (some 0x202) := by decide +kernel

/-- V1. -/
theorem test_mkLegacy_key :
    view (put 0 (ascii "key") (src 0 3 State.reset)) 0x00002011 (fun t => (mkStatusWord (t.master 0), (t.master 0).key)) =
      some (0x00002003,
        fit 32 (beBytes 0x3C6E0B8A9C15224A8228B9A98CA1531DD1E2A35FBA509B6432EDB96D850E119F 32)) := by decide +kernel

/-- X4.3, rows 2 and 3. -/
theorem test_mkLegacy_errors :
    statusAfter (master0 (legacyKey 32)) 0x00002011 = some 0x602 ∧ statusAfter State.reset 0x00022011 = some 0x302 := by
  decide +kernel

/-- X4.3, rows 1 and 4. (The 1000 iterations are too long for the kernel; X4.1 was checked outside it.) -/
theorem test_mkPbkdf2_errors :
    statusAfter (master0 (legacyKey 32)) 0x00002010 = some 0x602 ∧
    statusAfter (aux 4090 16 State.reset) 0x00002010 = some 0x302 := by decide +kernel

/-- One iteration of PBKDF2-HMAC-SHA256: the published value for "password", "salt", 1, 32 (PRESUMED: from
general knowledge, log 15). -/
theorem test_pbkdf2_one_iteration :
    pbkdf2 (hashSha256 standardPrimitives) (ascii "password") (ascii "salt") 1 32 =
      beBytes 0x120FB6CFFCF8B32C43E7225256C4F837A86548C92CCC35480805987CB70BE17B 32 := by decide +kernel

/-- X4.3, rows 5 and 7. -/
theorem test_mkClear_zeroes :
    view (master0 (legacyKey 32)) 0x00000012 (fun t => (statusWord t.status, t.master 0)) =
      some (0, MasterKey.cleared) := by decide +kernel

/-- X4.4, row 5: SHA-1, 16 bytes. -/
theorem test_subkey_sha1 :
    view (put 0 (upFrom 0 16) (src 0 16
        (master0 (MasterKey.derived .legacy (beBytes 0x3C6E0B8A9C15224A8228B9A98CA1531D 16) 16)))) 0x00100018
      (fun t => (slotStatusWord (t.slot 0), (t.slot 0).key)) =
      some (0x00004001, fit 32 (beBytes 0xED7BD66F00F70CBAB03A4C54D3B94651 16)) := by decide +kernel

/-- X4.4, row 4: SHA-256, 16 bytes. -/
theorem test_subkey_sha256 :
    view (put 0 (upFrom 0 16) (src 0 16
        (master0 (MasterKey.derived .legacy (beBytes 0x3C6E0B8A9C15224A8228B9A98CA1531D 16) 16)))) 0x00000018
      (fun t => (slotStatusWord (t.slot 0), (t.slot 0).key)) =
      some (0x00004001, fit 32 (beBytes 0xBAC28DE207A2B988AF06AB97E9DBB3AA 16)) := by decide +kernel

/-- P4 step 2, and X4.5's last row. -/
theorem test_loadKey :
    view (put 0 (List.replicate 32 0x42) (src 0 32 State.reset)) 0x00000219 (fun t => slotStatusWord (t.slot 2)) =
      some 0x00008001 ∧
    view State.reset 0x00000019 (fun t => slotStatusWord (t.slot 0)) = some 0x00000001 := by decide +kernel

/-- X4.5: too long, and out of range. -/
theorem test_loadKey_errors :
    statusAfter (src 0 33 State.reset) 0x00000019 = some 0x402 ∧
    statusAfter (src 4080 32 State.reset) 0x00000019 = some 0x302 := by decide +kernel

/-- X5.1. -/
theorem test_create :
    view (slot0 (keyedSlot 32)) 0x0000B020 (fun t => slotStatusWord (t.slot 0)) = some 0x000C80B2 ∧
    view (slot0 (keyedSlot 32)) 0x00004020 (fun t => slotStatusWord (t.slot 0)) = some 0x00188042 ∧
    statusAfter (slot0 (keyedSlot 16)) 0x00003020 = some 0x702 := by decide +kernel

/-- X5.2: backend drift. -/
theorem test_create_drift :
    view { slot0 (keyedSlot 32) with build := driftBuild } 0x00004020
      (fun t => (statusWord t.status, slotStatusWord (t.slot 0))) = some (0xD06, 0x00008001) := by decide +kernel

/-- X5.1, last row. -/
theorem test_release :
    view (slot0 (activeSlot .aes256Gcm .sequential)) 0x00000021 (fun t => (statusWord t.status, t.slot 0)) =
      some (0, Slot.cleared) := by decide +kernel

/-- X6.5, row 1: the last nonce is used, then the slot is exhausted. -/
theorem test_encrypt_last_nonce :
    view (put 0x40 (ascii "A") (src 0x40 1 (dst 0x80 (slot0 lastNonceSlot)))) 0x00000030
      (fun t => (t.result, bytesAt 0x80 17 t, slotStatusWord (t.slot 0))) =
      some (0x11, some (beBytes 0xFF3AC30CFE78361B3F0136186A45309311 17), 0x000C8134) := by decide +kernel

/-- X6.3 row 1: AES-256-GCM, empty plaintext. -/
theorem test_encrypt_empty :
    view (dst 0x100 (slot0 (activeSlot .aes256Gcm .sequential))) 0x00000030
      (fun t => (t.result, bytesAt 0x100 16 t, slotNonceWord (t.slot 0) 0)) =
      some (16, some (beBytes 0xF05D76AE4AB99FE5A6F69B3148C2363D 16), 1) := by decide +kernel

/-- X6.3 row 7: the tag of row 1 opens to the empty plaintext. -/
theorem test_decrypt_empty :
    view (put 0 (beBytes 0xF05D76AE4AB99FE5A6F69B3148C2363D 16)
        (src 0 16 (dst 0x300 (slot0 (activeSlot .aes256Gcm .sequential))))) 0x00000031
      (fun t => (statusWord t.status, t.result, slotStatusWord (t.slot 0), slotNonceWord (t.slot 0) 0)) =
      some (0, 0, 0x000C8222, 1) := by decide +kernel

/-- X6.2 and X6.3 row 6: a flipped bit of the tag, and an input shorter than the tag. -/
theorem test_decrypt_failures :
    view (put 0 (beBytes 0xF05D76AE4AB99FE5A6F69B3148C236BD 16)
        (src 0 16 (dst 0x300 (slot0 (activeSlot .aes256Gcm .sequential))))) 0x00000031
      (fun t => (statusWord t.status, slotStatusWord (t.slot 0), slotNonceWord (t.slot 0) 0)) =
      some (0x902, 0x000C8223, 0) ∧
    view (src 0 15 (slot0 (activeSlot .aes256Gcm .sequential))) 0x00000031
      (fun t => (statusWord t.status, slotStatusWord (t.slot 0))) = some (0x902, 0x000C8223) := by decide +kernel

/-- X6.4, on an ACTIVE slot. -/
theorem test_expectedLen :
    [0, 1000, 0xFFFFFFEF].map (fun n => view (src 0 n (slot0 (activeSlot .aes256Gcm .zero))) 0x00000032 (·.result)) =
      [some 0x10, some 0x3F8, some 0xFFFFFFFF] ∧
    statusAfter (src 0 0xFFFFFFF0 (slot0 (activeSlot .aes256Gcm .zero))) 0x00000032 = some 0x402 := by decide +kernel

/-- X6.5, last row of the first table: the carry runs across every byte. -/
theorem test_nonce_carry :
    let sl := { activeSlot .chacha20Poly1305 .sequential with
      nonce := fit 24 ([0xFF, 0xFF, 0xFF, 0xFF] ++ List.replicate 8 0) }
    [0, 1, 2].map (slotNonceWord sl.nonceAdvance) = [0, 1, 0] := by decide +kernel

/-! ## The hash functions (RFC 1321, FIPS 180-4: the digests of the empty string and of "abc") -/

theorem test_md5_empty : (md5 []).toList = beBytes 0xD41D8CD98F00B204E9800998ECF8427E 16 := by decide +kernel

theorem test_sha1_abc : (sha1 (ascii "abc")).toList = beBytes 0xA9993E364706816ABA3E25717850C26C9CD0D89D 20 := by
  decide +kernel

theorem test_sha256_abc : (sha256 (ascii "abc")).toList =
    beBytes 0xBA7816BF8F01CFEA414140DE5DAE2223B00361A396177A9CB410FF61F20015AD 32 := by decide +kernel

/-! ## The MMIO window (spec/95_test_vectors.md X2) and reset (X5.2) -/

/-- What a host read answers. -/
def answerOf (a : Access) (s : State) : Option Word :=
  match hostAccess a s with
  | .next t => t.answer
  | .fault _ => none
  | .refused _ => none

/-- The model fault of an access. -/
def faultOf (a : Access) (s : State) : Option Fault :=
  match hostAccess a s with
  | .next _ => none
  | .fault f => some f
  | .refused _ => none

theorem test_buffer_reads_little_endian :
    let s := put 0 [0x44, 0x33, 0x22, 0x11] State.reset
    [Access.r8 0x1000, .r8 0x1001, .r16 0x1002, .r32 0x1000].map (fun a => answerOf a s) =
      [some 0x44, some 0x33, some 0x1122, some 0x11223344] := by decide +kernel

theorem test_word_write_little_endian :
    (match hostAccess (.w32 0x1000 0x11223344) State.reset with
      | .next t => t.buf
      | .fault _ => []
      | .refused _ => []) = [(0, 0x44), (1, 0x33), (2, 0x22), (3, 0x11)] := by decide +kernel

theorem test_bus_faults :
    [Access.r16 0x1001, .r8 0x1004, .r32 0x028, .r32 0x050, .r8 0x008, .r32 0x2000].map
        (fun a => faultOf a State.reset) =
      [some .busAlign, some .uninitRead, some .busUnmapped, some .busUnmapped, some .busWidth, some .busUnmapped] := by
  decide +kernel

theorem test_busy_hazard :
    let s := State.reset.issue 1
    [Access.w32 0x004 1, .r32 0x00C, .r8 0x1000].map (fun a => faultOf a s) = List.replicate 3 (some .hazardBusy) ∧
    [Access.r32 0x008, .r32 0x000, .r32 0x024].map (fun a => answerOf a s) =
      [some 1, some 0x01020405, some 0x1000] := by decide +kernel

theorem test_reset_clears_fatal :
    State.onEvent { slot0 (keyedSlot 32) with status := ⟨false, true, true, .invariant⟩ } .reset =
      .next State.reset := rfl

/-! ## Witnesses: for each statement with hypotheses, a concrete state and operands that meet them, one conjunct per
clause, at a boundary of its range -/

/-- The command a word decodes to. -/
def decoded (w : Word) : Option Instr :=
  match decode w with
  | .ok i => some i
  | .error _ => none

/-- ERRCODE after a command, if it gives a next state. -/
def codeOf (i : Instr) (s : State) : Option ErrCode :=
  match exec i s with
  | .next t => some t.status.errcode
  | .fault _ => none
  | .refused _ => none

/-- ERRCODE after the completion step, if it gives a next state. -/
def completeCode (s : State) : Option ErrCode :=
  match s.complete with
  | .next t => some t.status.errcode
  | .fault _ => none
  | .refused _ => none

/-- Reset with CMD = w. -/
def latched (w : Word) : State := { State.reset with cmd := w }

/-- An ACTIVE AES-256-GCM slot 0 whose input is the whole buffer's last bytes. -/
def activeState : State := slot0 (activeSlot .aes256Gcm .sequential)

/-- The tag of the empty plaintext in the buffer, SRC on it (X6.3 row 7). -/
def sealedState : State :=
  put 0 (beBytes 0xF05D76AE4AB99FE5A6F69B3148C2363D 16) (src 0 16 (dst 4096 activeState))

/-- The same with the last bit of the tag flipped. -/
def forgedState : State :=
  put 0 (beBytes 0xF05D76AE4AB99FE5A6F69B3148C2363C 16) (src 0 16 (dst 4096 activeState))

theorem test_witness_WorkedEncodingsDecode :
    (latched 0x00200230#32).status.fatal = false ∧ (latched 0x00200230#32).cmd = 0x00200230#32 := by decide

theorem test_witness_DecodeInvertsEncode : (Instr.subkey 15 15 7 .sha1).WellFormed ∧ Instr.parse.WellFormed := by decide

theorem test_witness_EncodeInvertsDecode : decode 0x001F7F18#32 = .ok (.subkey 15 15 7 .sha1) := by decide

theorem test_witness_LegalWordsMatchMask :
    (0x001F7F18#32, 0xFFE080FF#32) ∉ specRows ∧ (0x00000018#32, 0xFFE080FF#32) ∈ specRows ∧
    (latched 0x101).status.fatal = false ∧ (0x00000001#32, 0xFFFFFFFF#32) ∈ specRows ∧
    (latched 0x101).cmd &&& 0xFF#32 = 0x00000001#32 ∧ (latched 0x101).cmd &&& 0xFFFFFFFF#32 ≠ 0x00000001#32 := by decide

theorem test_witness_EveryWordHasOneOutcome :
    ((0x00000018#32, 0xFFE080FF#32) ∈ specRows ∧ (latched 0x001F7F18).cmd &&& 0xFFE080FF#32 = 0x00000018#32) ∧
    ((latched 0).status.fatal = false ∧ ∀ row ∈ specRows, (latched 0).cmd &&& row.2 ≠ row.1) :=
  ⟨by decide, rfl, by simp [specRows, latched]⟩

theorem test_witness_DecodingErrorPrecedence :
    State.reset.setFatal.status.fatal = true ∧
    ((latched 0).status.fatal = false ∧ decode (latched 0).cmd = .error .unassignedOpcode) ∧
    ((latched 0x430).status.fatal = false ∧ decode (latched 0x430).cmd = .ok (.encrypt 4) ∧
      slotOf (.encrypt 4) = some 4 ∧ (latched 0x430).build.numSlots ≤ 4) ∧
    ((latched 0x20012).status.fatal = false ∧ decode (latched 0x20012).cmd = .ok (.mkClear 2) ∧
      masterOf (.mkClear 2) = some 2 ∧ (latched 0x20012).build.numMk ≤ 2) ∧
    ((latched 0x00005018).status.fatal = false ∧ decode (latched 0x00005018).cmd = .ok (.subkey 0 0 5 .sha256) ∧
      slotOf (.subkey 0 0 5 .sha256) = some 0 ∧ 0 < (latched 0x00005018).build.numSlots ∧
      masterOf (.subkey 0 0 5 .sha256) = some 0 ∧ 0 < (latched 0x00005018).build.numMk ∧
      cipherOf (.subkey 0 0 5 .sha256) = some 5) := by decide

theorem test_witness_StepRunsDecodedCommand :
    let s := State.reset.placeCommand 1
    let u := State.reset.issue 1
    (s.faultMark = none ∧ s.status.busy = true ∧ s.script = .turn :: [] ∧ decode s.cmd = .ok .parse) ∧
    (u.faultMark = none ∧ u.status.busy = true ∧ u.script = [] ∧ decode u.cmd = .ok .parse) ∧
    (State.reset.faultMark = none ∧ 0x001F7F18 < 2 ^ 32 ∧
      decode (BitVec.ofNat 32 0x001F7F18) = .ok (.subkey 15 15 7 .sha1)) := by decide

theorem test_witness_StepTakesNextEvent :
    let s := { State.reset with script := [.reset] }
    (s.faultMark = none ∧ s.script = .reset :: []) ∧
    (State.reset.faultMark = none ∧ State.reset.status.busy = false ∧ State.reset.script = []) := by decide

theorem test_witness_EveryCommandCompletes :
    let s := { put 0 (upFrom 0 64) State.reset with build := { Build.specExample with bufSize := 64 } }
    ∀ a < s.build.bufSize, (Memory.get a s.buf).isSome = true := by decide +kernel

theorem test_witness_FatalIsSticky :
    let s := { slot0 (keyedSlot 32) with build := driftBuild }
    (∃ t, exec (.create 0 4 .sequential) s = .next t ∧ t.status.errcode = .invariant) ∧
    (State.reset.setFatal.status.fatal = true ∧ State.onEvent State.reset.setFatal .reset = .next State.reset) ∧
    (State.reset.setFatal.status.fatal = true ∧
      State.onEvent State.reset.setFatal .turn = .next State.reset.setFatal) :=
  ⟨⟨_, rfl, rfl⟩, ⟨rfl, rfl⟩, rfl, rfl⟩

theorem test_witness_ErrorsArePrecise :
    completeCode State.reset = some .illegal ∧ completeCode { State.reset with cmd := 0x00000421#32 } = some .range ∧
    (completeCode { forgedState with cmd := 0x00000031#32 } = some .auth ∧ 16 ≤ forgedState.srcLen.toNat) ∧
    (completeCode { src 0 15 activeState with cmd := 0x00000031#32 } = some .auth ∧
      (src 0 15 activeState).srcLen.toNat < 16) := by decide +kernel

theorem test_witness_SuccessClearsError : codeOf (.release 3) State.reset = some .ok := by decide

theorem test_witness_NoCommandWritesOperands : codeOf (.mkClear 1) State.reset = some .ok := by decide

theorem test_witness_LookupFrame :
    codeOf .parse State.reset = some .unknownCipher ∧ codeOf (.specOf 4) State.reset = some .ok ∧
    codeOf (.expectedLen 0) activeState = some .ok ∧
    (codeOf (.nameOf 5) State.reset = some .unknownCipher ∧ 5 ≤ 5) ∧
    (codeOf (.nameOf 4) (dst 4073 State.reset) = some .ok ∧ cipherOfCode 4 = some .xchacha20Poly1305) := by
  decide +kernel

theorem test_witness_MasterKeyFrame :
    (∃ t, exec (.mkPbkdf2 1 4) State.reset = .next t) ∧ codeOf (.mkLegacy 1 4) State.reset = some .ok ∧
    codeOf (.mkClear 1) State.reset = some .ok := ⟨⟨_, rfl⟩, by decide +kernel, by decide⟩

theorem test_witness_SlotKeyFrame :
    (∃ t, exec (.subkey 0 0 0 .sha1) (put 0 (upFrom 0 16) (src 0 16 (master0 (legacyKey 16)))) = .next t) ∧
    codeOf (.loadKey 3) State.reset = some .ok ∧ codeOf (.create 0 2 .zero) (slot0 (keyedSlot 32)) = some .ok ∧
    codeOf (.release 3) State.reset = some .ok := ⟨⟨_, rfl⟩, by decide +kernel⟩

theorem test_witness_CrypterFrame :
    codeOf (.encrypt 0) (dst 4080 activeState) = some .ok ∧ codeOf (.decrypt 0) sealedState = some .ok := by
  decide +kernel

theorem test_witness_SlotsAreIndependent : slotOf (.encrypt 0) ≠ some 1 ∧ slotOf .parse ≠ some 0 := by decide

theorem test_witness_ParseByExactName :
    let s := put 4073 (cipherName .xchacha20Poly1305) (src 4073 23 State.reset)
    (State.reset.status.fatal = false ∧ (src 4096 1 State.reset).build.bufSize < 4096 + 1) ∧
    (s.status.fatal = false ∧ s.srcOff.toNat + s.srcLen.toNat ≤ s.build.bufSize ∧
      s.buf.read s.srcOff.toNat s.srcLen.toNat = some (cipherName .xchacha20Poly1305)) ∧
    (∀ c ∈ allCiphers, State.reset.buf.read 0 0 ≠ some (cipherName c)) ∧
    ((src 4095 1 State.reset).srcOff.toNat + (src 4095 1 State.reset).srcLen.toNat ≤ 4096 ∧
      (src 4095 1 State.reset).buf.read 4095 1 = none) := by decide +kernel

theorem test_witness_NameOfWritesName :
    State.reset.status.fatal = false ∧ 5 ≤ 5 ∧ cipherOfCode 0 = some .aes128Gcm ∧
    (dst 4086 State.reset).build.bufSize < (dst 4086 State.reset).dstOff.toNat + (cipherName .aes128Gcm).length ∧
    (dst 4085 State.reset).dstOff.toNat + (cipherName .aes128Gcm).length ≤ (dst 4085 State.reset).build.bufSize := by
  decide +kernel

theorem test_witness_SpecOfPacksSpec :
    State.reset.status.fatal = false ∧ 5 ≤ 5 ∧ cipherOfCode 4 = some .xchacha20Poly1305 := by decide

theorem test_witness_ParseInvertsNameOf :
    let s := dst 4073 State.reset
    s.status.fatal = false ∧ s.dstOff.toNat + (cipherName .xchacha20Poly1305).length ≤ s.build.bufSize := by
  decide +kernel

theorem test_witness_MkPbkdf2DerivesKey :
    State.reset.status.fatal = false ∧ 1 < State.reset.build.numMk ∧ cipherOfCode 4 = some .xchacha20Poly1305 ∧
    ((master0 (legacyKey 16)).master 0).valid = true ∧ (State.reset.master 1).valid = false ∧
    (src 4096 1 State.reset).build.bufSize < 4096 + 1 ∧ (aux 4096 1 State.reset).build.bufSize < 4096 + 1 ∧
    ((src 4095 1 State.reset).buf.read 4095 1 = none ∧ (aux 4095 1 State.reset).buf.read 4095 1 = none) ∧
    ((src 4096 0 (aux 4096 0 State.reset)).buf.read 4096 0 = some []) := by decide +kernel

theorem test_witness_MkLegacyDerivesKey :
    State.reset.status.fatal = false ∧ 1 < State.reset.build.numMk ∧ cipherOfCode 0 = some .aes128Gcm ∧
    ((master0 (legacyKey 16)).master 0).valid = true ∧ (State.reset.master 1).valid = false ∧
    (src 4096 1 State.reset).build.bufSize < 4096 + 1 ∧ (src 4095 1 State.reset).buf.read 4095 1 = none ∧
    (put 0 (ascii "key") (src 0 3 State.reset)).buf.read 0 3 = some (ascii "key") := by decide +kernel

theorem test_witness_LegacyPrefixProperty :
    let H : Hash := fun _ => List.replicate 16 0
    (∀ m, (H m).length = 16) ∧ 0 ≤ 32 ∧ 32 ≤ 32 := ⟨fun _ => rfl, by decide, by decide⟩

theorem test_witness_MkClearZeroes :
    State.reset.status.fatal = false ∧ State.reset.build.numMk ≤ 2 ∧ 1 < State.reset.build.numMk := by decide

theorem test_witness_MasterKeyIsWriteOnce :
    (codeOf (.mkLegacy 0 0) (master0 (legacyKey 16)) = some .mkState ∧
      ((master0 (legacyKey 16)).master 0).valid = true ∧ Instr.mkLegacy 0 0 ≠ .mkClear 0) ∧
    (codeOf (.release 0) (master0 (legacyKey 16)) = some .ok ∧ (∀ m c, Instr.release 0 ≠ .mkPbkdf2 m c) ∧
      (∀ m c, Instr.release 0 ≠ .mkLegacy m c) ∧ ∀ m, Instr.release 0 ≠ .mkClear m) :=
  ⟨by decide +kernel, by decide +kernel, by simp⟩

theorem test_witness_SubkeyDerivesSlotKey :
    let s := src 4080 16 (master0 (legacyKey 16))
    (s.status.fatal = false ∧ 3 < s.build.numSlots ∧ 0 < s.build.numMk ∧ cipherOfCode 0 = some .aes128Gcm) ∧
    ((slot0 (keyedSlot 16)).slot 0).st ≠ .free ∧
    ((s.slot 3).st = .free ∧ (s.master 1).valid = false) ∧
    ((s.master 0).valid = true ∧ (src 0 15 s).srcLen.toNat ≠ saltSize .aes128Gcm) ∧
    (s.srcLen.toNat = saltSize .aes128Gcm ∧ (src 4081 16 s).build.bufSize < 4081 + 16) ∧
    ((master0 (legacyKey 24)).master 0).len.toNat ≠ keySize .aes128Gcm ∧
    (s.srcOff.toNat + s.srcLen.toNat ≤ s.build.bufSize ∧ (s.master 0).len.toNat = keySize .aes128Gcm ∧
      s.buf.read s.srcOff.toNat s.srcLen.toNat = none) ∧
    (put 4080 (upFrom 0 16) s).buf.read 4080 16 = some (upFrom 0 16) := by decide +kernel

theorem test_witness_SubkeyIsDeterministic :
    let s := put 0 (upFrom 0 16) (src 0 16 (master0 (legacyKey 16)))
    let s' := put 9 (upFrom 0 16) (src 9 16 ((State.reset.setMaster 1 (legacyKey 16)).setSlot 0 (keyedSlot 24)))
    15 < 16 ∧ s.build.provider = s'.build.provider ∧ (s.master 0).key = (s'.master 1).key ∧ s.src = s'.src ∧
    (∃ t, exec (.subkey 3 0 0 .sha1) s = .next t ∧ t.status.errcode = .ok) ∧
    ∃ t', exec (.subkey 1 1 0 .sha1) s' = .next t' ∧ t'.status.errcode = .ok :=
  ⟨by decide, rfl, by decide +kernel, by decide +kernel, ⟨_, rfl, rfl⟩, _, rfl, rfl⟩

theorem test_witness_LoadKeyLoadsBytes :
    (State.reset.status.fatal = false ∧ 3 < State.reset.build.numSlots) ∧
    ((slot0 (keyedSlot 0)).slot 0).st ≠ .free ∧ (State.reset.slot 3).st = .free ∧
    32 < (src 0 33 State.reset).srcLen.toNat ∧
    ((src 4065 32 State.reset).srcLen.toNat ≤ 32 ∧ (src 4065 32 State.reset).build.bufSize < 4065 + 32) ∧
    (src 4064 32 State.reset).buf.read 4064 32 = none ∧
    (put 4064 (upFrom 0 32) (src 4064 32 State.reset)).buf.read 4064 32 = some (upFrom 0 32) := by decide +kernel

theorem test_witness_CreateBindsSlot :
    let s := slot0 (keyedSlot 32)
    (s.status.fatal = false ∧ 0 < s.build.numSlots ∧ cipherOfCode 4 = some .xchacha20Poly1305) ∧
    (s.slot 3).st ≠ .keyed ∧
    ((s.slot 0).st = .keyed ∧ backendNonceLen driftBuild .xchacha20Poly1305 ≠ nonceSize .xchacha20Poly1305) ∧
    (backendKeyLen s.build .xchacha20Poly1305 = keySize .xchacha20Poly1305 ∧
      backendNonceLen s.build .xchacha20Poly1305 = nonceSize .xchacha20Poly1305 ∧
      ((slot0 (keyedSlot 31)).slot 0).keyLen.toNat ≠ keySize .xchacha20Poly1305) ∧
    (s.slot 0).keyLen.toNat = keySize .xchacha20Poly1305 := by decide +kernel

theorem test_witness_ReleaseZeroes :
    State.reset.setFatal.status.fatal = true ∧ State.reset.status.fatal = false ∧ State.reset.build.numSlots ≤ 4 ∧
    3 < State.reset.build.numSlots := by decide

theorem test_witness_ConformingBuildNeverFatal :
    ConformingBuild Build.specExample ∧ State.reset.status.fatal = false ∧ ∃ t, step State.reset = .next t :=
  ⟨by decide, rfl, _, rfl⟩

theorem test_witness_EncryptSealsChunk :
    let s := src 4095 1 (dst 4079 activeState)
    (s.status.fatal = false ∧ 0 < s.build.numSlots ∧ (s.slot 0).st = .active ∧ (s.slot 0).dir ≠ .dec) ∧
    ((s.slot 3).st = .free ∧ ((slot0 (keyedSlot 16)).slot 0).st = .keyed ∧
      ((slot0 (activeSlot .aes128Gcm .zero).failed).slot 0).st = .failed) ∧
    ((slot0 lastNonceSlot.nonceAdvance).slot 0).st = .exhausted ∧
    (((slot0 (lastNonceSlot.bound .dec)).slot 0).st = .active ∧ ((slot0 (lastNonceSlot.bound .dec)).slot 0).dir = .dec) ∧
    ((src 4096 1 s).build.bufSize < 4096 + 1 ∧ (dst 4080 s).build.bufSize < 4080 + (s.srcLen.toNat + 16)) ∧
    (s.srcOff.toNat + s.srcLen.toNat ≤ s.build.bufSize ∧ s.dstOff.toNat + (s.srcLen.toNat + 16) ≤ s.build.bufSize ∧
      s.buf.read s.srcOff.toNat s.srcLen.toNat = none) ∧
    (put 4095 [7] s).buf.read 4095 1 = some [7] := by decide +kernel

theorem test_witness_DecryptOpensChunk :
    let s := sealedState
    (s.status.fatal = false ∧ 0 < s.build.numSlots ∧ (s.slot 0).st = .active ∧ (s.slot 0).dir ≠ .enc) ∧
    (((slot0 (lastNonceSlot.bound .enc)).slot 0).st = .active ∧ ((slot0 (lastNonceSlot.bound .enc)).slot 0).dir = .enc) ∧
    (src 0 15 s).srcLen.toNat < 16 ∧
    (16 ≤ s.srcLen.toNat ∧ (src 4081 16 s).build.bufSize < 4081 + 16 ∧
      (dst 4097 s).build.bufSize < 4097 + (s.srcLen.toNat - 16)) ∧
    (s.srcOff.toNat + s.srcLen.toNat ≤ s.build.bufSize ∧ s.dstOff.toNat + (s.srcLen.toNat - 16) ≤ s.build.bufSize ∧
      (src 4080 16 s).buf.read 4080 16 = none) ∧
    ((∃ t, forgedState.src = some t ∧
        (forgedState.slot 0).opened forgedState.prims t = none) ∧
      ∃ t, s.src = some t ∧ (s.slot 0).opened s.prims t = some []) :=
  ⟨by decide +kernel, by decide +kernel, by decide +kernel, by decide +kernel, by decide +kernel,
    ⟨beBytes 0xF05D76AE4AB99FE5A6F69B3148C2363C 16, by decide +kernel, by decide +kernel⟩,
    beBytes 0xF05D76AE4AB99FE5A6F69B3148C2363D 16, by decide +kernel, by decide +kernel⟩

theorem test_witness_AuthFailureKillsSlot :
    (0 < 16 ∧ codeOf (.decrypt 0) forgedState = some .auth ∧ 16 ≤ forgedState.srcLen.toNat) ∧
    forgedState.srcLen.toNat ≤ 0xFFFFFFEF ∧ slotOf (.loadKey 0) = some 0 := by decide +kernel

theorem test_witness_ExpectedLenAddsTag :
    let s := activeState
    (s.status.fatal = false ∧ 0 < s.build.numSlots) ∧
    ((s.slot 3).st = .free ∧ ((slot0 (keyedSlot 16)).slot 0).st = .keyed) ∧
    ((s.slot 0).st = .active ∧ 0xFFFFFFEF < (src 0 0xFFFFFFF0 s).srcLen.toNat) ∧
    (((slot0 (activeSlot .aes128Gcm .zero).failed).slot 0).st = .failed ∧
      ((slot0 lastNonceSlot.nonceAdvance).slot 0).st = .exhausted ∧
      (src 0 0xFFFFFFEF s).srcLen.toNat ≤ 0xFFFFFFEF) := by decide +kernel

theorem test_witness_NonceAdvanceAddsOne :
    let z := activeSlot .xchacha20Poly1305 .zero
    let q := activeSlot .xchacha20Poly1305 .sequential
    let f := { activeSlot .chacha20Poly1305 .sequential with
      nonce := fit 24 ([0xFF, 0xFF, 0xFF, 0xFF] ++ List.replicate 8 0) }
    (z.nlen.toNat ≤ 24 ∧ z.nmode = .zero) ∧
    (lastNonceSlot.nlen.toNat ≤ 24 ∧ lastNonceSlot.nmode = .sequential ∧
      le (lastNonceSlot.nonce.toList.take lastNonceSlot.nlen.toNat) = 256 ^ lastNonceSlot.nlen.toNat - 1) ∧
    (q.nlen.toNat ≤ 24 ∧ q.nmode = .sequential ∧
      le (q.nonce.toList.take q.nlen.toNat) ≠ 256 ^ q.nlen.toNat - 1) ∧
    (f.nmode = .sequential ∧ f.nlen = 12 ∧
      f.nonce.toList.take 12 = [0xFF, 0xFF, 0xFF, 0xFF, 0, 0, 0, 0, 0, 0, 0, 0]) := by decide +kernel

theorem test_witness_NonceSequence :
    0 < 256 ^ nonceSize .aes128Gcm ∧ 256 ^ 24 - 1 < 256 ^ nonceSize .xchacha20Poly1305 := by decide

theorem test_witness_DirectionIsFixed :
    let s := slot0 (lastNonceSlot.bound .dec)
    codeOf (.encrypt 0) s = some .direction ∧ Instr.encrypt 0 ≠ .release 0 ∧ (s.slot 0).st = .active ∧
    (s.slot 0).dir ≠ .none := by decide +kernel

theorem test_witness_RoundTripOneChunk :
    let s := dst 4080 activeState
    let r := sealedState
    let p : List Byte := []
    (0 < 16 ∧ s.status.fatal = false ∧ r.status.fatal = false ∧ s.build.provider = r.build.provider ∧
      0 < s.build.numSlots ∧ 0 < r.build.numSlots ∧ (s.slot 0).st = .active ∧ (r.slot 0).st = .active ∧
      (s.slot 0).dir ≠ .dec ∧ (r.slot 0).dir ≠ .enc ∧ SameCrypter (s.slot 0) (r.slot 0) ∧
      s.srcOff.toNat + s.srcLen.toNat ≤ s.build.bufSize ∧
      s.dstOff.toNat + (s.srcLen.toNat + 16) ≤ s.build.bufSize ∧
      s.buf.read s.srcOff.toNat s.srcLen.toNat = some p) ∧
    RoundTrips s.prims (s.slot 0).cipher (s.slot 0).keyBytes (s.slot 0).nonceBytes ∧
    (r.srcLen.toNat = p.length + 16 ∧ r.srcOff.toNat + r.srcLen.toNat ≤ r.build.bufSize ∧
      r.dstOff.toNat + p.length ≤ r.build.bufSize) ∧
    view s 0x00000030 (fun t => t.buf.read s.dstOff.toNat (p.length + 16)) =
      some (r.buf.read r.srcOff.toNat r.srcLen.toNat) :=
  ⟨by decide +kernel, roundTrips_standard _ _ _, by decide +kernel, by decide +kernel⟩

/-- The state a command leaves; the state before it where there is none. -/
def after (i : Instr) (s : State) : State :=
  match exec i s with
  | .next t => t
  | .fault _ => s
  | .refused _ => s

theorem exec_eq_after {i : Instr} {s : State} {e : ErrCode} (h : codeOf i s = some e) :
    exec i s = .next (after i s) := by
  unfold codeOf at h
  unfold after
  split <;> simp_all

theorem eq_after {i : Instr} {s u : State} (h : exec i s = .next u) : u = after i s := by
  unfold after
  rw [h]

/-- The sender of two empty chunks, at nonces 0 and 1, from slot 0 of one block to slot 0 of another. -/
def firstSender : State := dst 4080 activeState

def secondSender : State := after (.encrypt 0) firstSender

/-- A receiver `s` that finds what the sender `t` wrote at 4080. -/
def received (s t : State) : State := { src 4080 16 (dst 4096 s) with buf := t.buf }

def firstReceiver : State := received activeState secondSender

def secondReceiver : State :=
  received (after (.decrypt 0) firstReceiver) (after (.encrypt 0) secondSender)

theorem firstDelivers : Exchange.Delivers .standard 0 0 ⟨firstSender, secondSender, firstReceiver⟩ :=
  ⟨by decide, by decide +kernel, exec_eq_after (e := .ok) (by decide +kernel), by decide +kernel, by decide +kernel,
    by decide +kernel, by decide +kernel, by decide +kernel, by decide +kernel⟩

theorem secondDelivers :
    Exchange.Delivers .standard 0 0 ⟨secondSender, after (.encrypt 0) secondSender, secondReceiver⟩ :=
  ⟨by decide +kernel, by decide +kernel, exec_eq_after (e := .ok) (by decide +kernel), by decide +kernel,
    by decide +kernel, by decide +kernel, by decide +kernel, by decide +kernel, by decide +kernel⟩

theorem test_witness_RoundTripManyChunks :
    let sl := activeSlot .aes256Gcm .sequential
    (SameCrypter sl sl ∧ sl.Bound ∧ sl.st = .active ∧ sl.dir ≠ .dec ∧ sl.dir ≠ .enc) ∧
    (∀ nonce, nonce.length = sl.nlen.toNat → RoundTrips (primitivesOf .standard) sl.cipher sl.keyBytes nonce) ∧
    Connection .standard 0 0 sl sl
      [⟨firstSender, secondSender, firstReceiver⟩,
       ⟨secondSender, after (.encrypt 0) secondSender, secondReceiver⟩] := by
  refine ⟨by decide +kernel, fun nonce _ => roundTrips_standard _ _ nonce, by decide +kernel, by decide +kernel,
    firstDelivers, fun u hu => ?_⟩
  rw [eq_after hu]
  exact ⟨rfl, by decide +kernel, secondDelivers, fun _ _ => trivial⟩

theorem test_witness_BusyHazard :
    (State.reset.issue 1).status.busy = true ∧ Access.r32 0x00C ≠ .r32 0x008 ∧ Access.r32 0x00C ≠ .r32 0x000 ∧
    Access.r32 0x00C ≠ .r32 0x024 := by decide

theorem test_witness_AccessFaults :
    State.reset.status.busy = false ∧
    ((Access.r8 0xFFF).offset < 0x1000 ∧ (Access.r8 0xFFF).width ≠ 4) ∧
    ((Access.r32 0xFFC).offset < 0x1000 ∧ (Access.r32 0xFFC).width = 4 ∧ (Access.r32 0xFFC).offset % 4 = 0) ∧
    0x1000 + State.reset.build.bufSize ≤ (Access.r8 0x2000).offset ∧
    (0x1000 ≤ (Access.r16 0x1FFF).offset ∧ (Access.r16 0x1FFF).offset < 0x1000 + State.reset.build.bufSize ∧
      (Access.r16 0x1FFF).offset % (Access.r16 0x1FFF).width ≠ 0) := by decide

theorem test_witness_BufferAccessIsLittleEndian :
    let s := put 4092 (upFrom 1 4) State.reset
    (s.status.busy = false ∧ 0x1000 ≤ (Access.r32 0x1FFC).offset ∧
      (Access.r32 0x1FFC).offset % (Access.r32 0x1FFC).width = 0 ∧
      (Access.r32 0x1FFC).offset + (Access.r32 0x1FFC).width ≤ 0x1000 + s.build.bufSize ∧
      (Access.r32 0x1FFC).data = none ∧ s.buf.read (0x1FFC - 0x1000) 4 = some (upFrom 1 4)) ∧
    s.buf.read (0x1000 - 0x1000) 1 = none ∧ (Access.w16 0x1FFE 0xABCD).data = some 0xABCD := by decide +kernel

theorem test_witness_OnlyCmdWritesIssue :
    ((Access.r32 0x004).data = none ∧ faultOf (.r32 0x004) State.reset = none) ∧
    ((Access.w8 0x1000 7).data ≠ none ∧ (Access.w8 0x1000 7).offset ≠ 0x004 ∧
      faultOf (.w8 0x1000 7) State.reset = none) ∧
    State.reset.status.busy = false := by decide +kernel

theorem test_witness_OperandRegistersReadBack : State.reset.status.busy = false := rfl

theorem test_witness_ReadOnlyWritesIgnored :
    State.reset.status.busy = false ∧
    (3 < State.reset.build.numSlots ∧ 3 < 16 ∧ (0x04C#32).toNat = 0x040 + 4 * 3) ∧
    (1 < State.reset.build.numMk ∧ 1 < 16 ∧ (0x084#32).toNat = 0x080 + 4 * 1) ∧
    (3 < State.reset.build.numSlots ∧ 7 < 8 ∧ (0x17C#32).toNat = 0x100 + 0x20 * 3 + 4 * 7) := by decide

theorem test_witness_StatusLayout : State.reset.status.busy = false := rfl

theorem test_witness_IdAndBufszAreConstant :
    Build.specExample.Legal ∧ { Build.specExample with numSlots := 16, numMk := 16, bufSize := 1048576 }.Legal ∧
    ∃ t, step State.reset = .next t := ⟨by decide, by decide, _, rfl⟩

theorem test_witness_MkStatusLayout :
    State.reset.status.busy = false ∧ 1 < State.reset.build.numMk ∧ 1 < 16 ∧ (0x084#32).toNat = 0x080 + 4 * 1 := by decide

theorem test_witness_SlotStatusLayout :
    State.reset.status.busy = false ∧ 3 < State.reset.build.numSlots ∧ 3 < 16 ∧ (0x04C#32).toNat = 0x040 + 4 * 3 := by
  decide

theorem test_witness_SlotNonceWords :
    (State.reset.status.busy = false ∧ 3 < State.reset.build.numSlots ∧ 3 < 16 ∧ 7 < 8 ∧
      (0x17C#32).toNat = 0x100 + 0x20 * 3 + 4 * 7) ∧
    (activeSlot .xchacha20Poly1305 .zero).nlen.toNat ≤ 24 ∧
    (activeSlot .xchacha20Poly1305 .zero).nlen.toNat ≤ 4 * 6 := by decide +kernel

theorem test_witness_ModelFaultIsSticky :
    let s := { State.reset with script := [.host (.r8 0x1000)] }
    (match step s with
      | .next _ => none
      | .fault f => some f
      | .refused _ => none) = some Fault.uninitRead ∧
    (s.markFault .uninitRead).faultMark = some .uninitRead := by decide +kernel

theorem test_witness_EveryStepKeepsInvariant : State.reset.Inv ∧ ∃ t, step State.reset = .next t := by
  refine ⟨⟨by decide, fun m => ?_, fun i => ?_, rfl, by decide⟩, _, rfl⟩
  · have h : State.reset.master m = MasterKey.cleared := by
      by_cases hm : m < 16 <;> simp [State.reset, State.powerOn, State.master, hm]
    rw [h]
    decide
  · have h : State.reset.slot i = Slot.cleared := by
      by_cases hi : i < 16 <;> simp [State.reset, State.powerOn, State.slot, hi]
    rw [h]
    exact ⟨by decide, by decide, rfl⟩

theorem test_witness_KeysAreNeverObservable :
    let s := slot0 (keyedSlot 32)
    let s' := slot0 { keyedSlot 32 with key := Vector.replicate 32 0xAA, backend := .chacha }
    s.masked = s'.masked ∧ s ≠ s' ∧ s.status.busy = false := by decide +kernel

end Sys2Proof.Tests
end

section
/-! PROOF. The registry, and what the host reads at the read-only registers of 10_state.md (ID, BUFSZ, MK_STATUS,
SLOT_STATUS, SLOT_NONCE): the laws they need and the settled statements. -/

namespace Sys2Proof.Machine

open BitVec (extractLsb'_append_eq_of_le extractLsb'_append_eq_left extractLsb'_append_eq_right getLsbD_append)

/-! ## Registry -/

/-- The registry's invariants, row by row (10_state.md R32). -/
theorem registry_invariants (c : Cipher) : keySize c = saltSize c ∧ tagSize c = 16 ∧
    (nonceSize c = 12 ∨ nonceSize c = 24) ∧ (nonceSize c = 24 ↔ (cipherCode c : Nat) = 4) := by
  cases c <;> decide

/-- Settles O19: the table by evaluation, the invariants row by row. -/
theorem registryTable : Obligations.RegistryTable :=
  ⟨rfl, cipherOfCode_code, cipherOfCode_eq_none.2 (by decide), cipherOfCode_eq_none.2 (by decide),
    cipherOfCode_eq_none.2 (by decide), registry_invariants⟩

/-! ## The banks at power-on (70_reset_and_hazards.md R340) -/

@[simp] theorem powerOn_master (b : Build) (m : Nat) : (State.powerOn b).master m = MasterKey.cleared := by
  by_cases hm : m < 16 <;> simp [State.powerOn, State.master, hm]

@[simp] theorem powerOn_slot (b : Build) (n : Nat) : (State.powerOn b).slot n = Slot.cleared := by
  by_cases hn : n < 16 <;> simp [State.powerOn, State.slot, hn]

/-! ## Reading a register -/

/-- A 32-bit read of a register that is there answers what the register reads and changes nothing else. -/
theorem hostAccess_read {s : State} {off : Word} {r : Reg}
    (hb : s.status.busy = false ∨ (Access.r32 off).allowedWhileBusy = true) (h4 : off.toNat % 4 = 0)
    (hlt : off.toNat < 0x1000) (hr : regAt s.build off.toNat = some r) :
    hostAccess (.r32 off) s = .next { s with answer := some (readReg s r) } :=
  hostAccess_reg hb rfl h4 hlt hr

/-! ## The build is constant -/

theorem Effect.build_eq {i : Instr} {s u : State} {e : ErrCode} (h : Effect i s u e) : u.build = s.build := by
  cases h <;> rfl

theorem complete_build {s t : State} (h : s.complete = .next t) : t.build = s.build := by
  rcases complete_cases s with hf | ⟨i, u, e, -, hn, he⟩ | ⟨hn, -⟩ | ⟨hn, -⟩
  · rw [hf] at h
    cases h
  · rw [hn] at h
    cases h
    exact he.build_eq
  all_goals
    rw [hn] at h
    cases h
    rfl

theorem hostAccess_build {a : Access} {s t : State} (h : hostAccess a s = .next t) : t.build = s.build := by
  rcases hostAccess_cases a s with
    ⟨f, hf, -⟩ | ⟨-, v, hn⟩ | ⟨-, v, r, -, -, -, -, -, hn⟩ | ⟨-, v, -, -, -, -, hn⟩
  · rw [hf] at h
    cases h
  · rw [hn] at h
    cases h
    rfl
  · rw [hn] at h
    cases h
    exact (writeReg_keeps s _ r).1
  · rw [hn] at h
    cases h
    rfl

theorem step_build {s t : State} (h : step s = .next t) : t.build = s.build := by
  obtain ⟨-, es, -, rfl | ⟨-, hc⟩ | ⟨a, -, ha⟩ | ⟨-, rfl⟩⟩ := step_cases h
  · rfl
  · exact (complete_build hc :)
  · exact (hostAccess_build ha :)
  · rfl

/-! ## ID and BUFSZ (10_state.md R39)

A view register is a concatenation of fields. In the lemmas `…_fields` each `extractLsb'_append_eq_of_le` (for one bit,
each `getLsbD_append` with `if_neg`) passes one field that lies below the one asked for. -/

/-- The four bytes of ID; a count has its own byte when it is below 256. -/
theorem idWord_fields (b : Build) (hs : b.numSlots < 256) (hm : b.numMk < 256) :
    ((idWord b).extractLsb' 0 8).toNat = 5 ∧ ((idWord b).extractLsb' 8 8).toNat = b.numSlots ∧
    ((idWord b).extractLsb' 16 8).toNat = b.numMk ∧ ((idWord b).extractLsb' 24 8).toNat = 1 := by
  unfold idWord
  refine ⟨?_, ?_, ?_, ?_⟩
  · rw [extractLsb'_append_eq_right]
    rfl
  · rw [extractLsb'_append_eq_of_le (by decide), extractLsb'_append_eq_right]
    exact Nat.mod_eq_of_lt hs
  · iterate 2 rw [extractLsb'_append_eq_of_le (by decide)]
    rw [extractLsb'_append_eq_right]
    exact Nat.mod_eq_of_lt hm
  · iterate 2 rw [extractLsb'_append_eq_of_le (by decide)]
    rw [extractLsb'_append_eq_left]
    rfl

/-- Settles O51: both registers answer a busy block too, and `step_build` covers every step. -/
theorem idAndBufszAreConstant : Obligations.IdAndBufszAreConstant := by
  refine ⟨fun s => ⟨?_, ?_⟩, ?_, rfl, fun s t => step_build⟩
  · exact hostAccess_read (r := .id) (.inr rfl) rfl (by decide) rfl
  · exact hostAccess_read (r := .bufsz) (.inr rfl) rfl (by decide) rfl
  · rintro b ⟨⟨-, hs⟩, ⟨-, hm⟩, -⟩ w rfl
    exact idWord_fields b (by omega) (by omega)

/-! ## MK_STATUS (10_state.md R41) -/

theorem mkStatusWord_fields (k : MasterKey) :
    (mkStatusWord k).getLsbD 0 = k.valid ∧ (mkStatusWord k).getLsbD 1 = decide (k.alg = .legacy) ∧
    (mkStatusWord k).extractLsb' 2 6 = 0 ∧ (mkStatusWord k).extractLsb' 8 6 = k.len ∧
    (mkStatusWord k).extractLsb' 14 18 = 0 := by
  unfold mkStatusWord
  refine ⟨?_, ?_, ?_, ?_, ?_⟩
  · rw [getLsbD_append, if_pos (by decide)]
    simp
  · rw [getLsbD_append, if_neg (by decide), getLsbD_append, if_pos (by decide)]
    cases k.alg <;> rfl
  · iterate 2 rw [extractLsb'_append_eq_of_le (by decide)]
    rw [extractLsb'_append_eq_right]
    rfl
  · iterate 3 rw [extractLsb'_append_eq_of_le (by decide)]
    rw [extractLsb'_append_eq_right]
  · iterate 3 rw [extractLsb'_append_eq_of_le (by decide)]
    rw [extractLsb'_append_eq_left]
    rfl

/-- Settles O52: the register map gives the word, the word's fields stand where its concatenation puts them. -/
theorem mkStatusLayout : Obligations.MkStatusLayout := by
  refine ⟨?_, mkStatusWord_fields, ?_, ?_⟩
  · intro s m off hb hm hm16 ho
    exact hostAccess_read (.inl hb) (by omega) (by omega) (regAt_mkStatus s.build hm hm16 ho)
  · intro b m
    rw [powerOn_master]
    rfl
  · intro key
    simp only [mkStatusWord, keyAlgCode]
    decide

/-! ## SLOT_STATUS (10_state.md R48) -/

theorem slotStatusWord_fields (sl : Slot) :
    (slotStatusWord sl).extractLsb' 0 3 = slotStateCode sl.st ∧ (slotStatusWord sl).getLsbD 3 = false ∧
    ((slotStatusWord sl).extractLsb' 4 3).toNat = cipherCode sl.cipher ∧
    (slotStatusWord sl).getLsbD 7 = decide (sl.nmode = .zero) ∧
    (slotStatusWord sl).extractLsb' 8 2 = directionCode sl.dir ∧ (slotStatusWord sl).extractLsb' 10 6 = sl.keyLen ∧
    (slotStatusWord sl).extractLsb' 16 5 = sl.nlen ∧ (slotStatusWord sl).extractLsb' 21 11 = 0 := by
  unfold slotStatusWord
  refine ⟨?_, ?_, ?_, ?_, ?_, ?_, ?_, ?_⟩
  · rw [extractLsb'_append_eq_right]
  · rw [getLsbD_append, if_neg (by decide), getLsbD_append, if_pos (by decide)]
    rfl
  · iterate 2 rw [extractLsb'_append_eq_of_le (by decide)]
    rw [extractLsb'_append_eq_right]
    cases sl.cipher <;> rfl
  · iterate 3 rw [getLsbD_append, if_neg (by decide)]
    rw [getLsbD_append, if_pos (by decide)]
    cases sl.nmode <;> rfl
  · iterate 4 rw [extractLsb'_append_eq_of_le (by decide)]
    rw [extractLsb'_append_eq_right]
  · iterate 5 rw [extractLsb'_append_eq_of_le (by decide)]
    rw [extractLsb'_append_eq_right]
  · iterate 6 rw [extractLsb'_append_eq_of_le (by decide)]
    rw [extractLsb'_append_eq_right]
  · iterate 6 rw [extractLsb'_append_eq_of_le (by decide)]
    rw [extractLsb'_append_eq_left]
    rfl

/-- Settles O53: the register map gives the word, the word's fields stand where its concatenation puts them. -/
theorem slotStatusLayout : Obligations.SlotStatusLayout := by
  refine ⟨?_, slotStatusWord_fields, ?_, ?_, ?_⟩
  · intro s n off hb hn hn16 ho
    exact hostAccess_read (.inl hb) (by omega) (by omega) (regAt_slotStatus s.build hn hn16 ho)
  · intro b n
    rw [powerOn_slot]
    rfl
  · intro key
    simp only [slotStatusWord, Slot.cleared]
    decide
  · intro key
    simp only [slotStatusWord, Slot.created]
    decide

/-! ## SLOT_NONCE (10_state.md R49) -/

/-- Zero bytes above a string leave its LE as it is. -/
theorem le_append_replicate_zero (s : List Byte) (n : Nat) : le (s ++ List.replicate n 0#8) = le s := by
  induction s with
  | nil => simp [le]
  | cons b s ih => simp [le, ih]

/-- Word w of a string is word w of the string followed by zero bytes, read as an integer. -/
theorem le_word_append_zeros (s : List Byte) (n a k : Nat) :
    le (((s ++ List.replicate n 0#8).drop a).take k) = le ((s.drop a).take k) := by
  rw [List.drop_append, List.take_append, List.drop_replicate, List.take_replicate, le_append_replicate_zero]

/-- Four bytes fit a register, so SLOT_NONCE[s][w] is their LE itself. -/
theorem slotNonceWord_toNat (sl : Slot) (w : Nat) :
    (slotNonceWord sl w).toNat = le (((sl.nonce.toList.take sl.nlen.toNat).drop (4 * w)).take 4) := by
  refine Nat.mod_eq_of_lt ?_
  calc le _ < 256 ^ _ := le_lt _
    _ ≤ 256 ^ 4 := Nat.pow_le_pow_right (by decide) (List.length_take_le _ _)

theorem slotNonceWord_eq_zero {sl : Slot} {w : Nat} (h : sl.nlen.toNat ≤ 4 * w) : slotNonceWord sl w = 0 := by
  have hd : (sl.nonce.toList.take sl.nlen.toNat).drop (4 * w) = [] :=
    List.drop_eq_nil_of_le ((List.length_take_le _ _).trans h)
  rw [slotNonceWord, hd]
  rfl

/-- Settles O54: the model cuts word w out of the nonce alone, which the zero bytes above it do not change. -/
theorem slotNonceWords : Obligations.SlotNonceWords := by
  refine ⟨?_, ?_, fun sl w => slotNonceWord_eq_zero, ?_⟩
  · intro s n w off hb hn hn16 hw ho
    exact hostAccess_read (.inl hb) (by omega) (by omega) (regAt_slotNonce s.build hn hn16 hw ho)
  · intro sl w _ _
    exact (slotNonceWord_toNat sl w).trans (le_word_append_zeros _ 32 _ _).symm
  · intro b n w
    rw [powerOn_slot]
    exact slotNonceWord_eq_zero (Nat.zero_le _)

end Sys2Proof.Machine
end

section
/-! PROOF. Buffer RAM through the MMIO window (20_memory.md): what an access to buffer bytes does, one equation per
outcome, and the settled statement. -/

namespace Sys2Proof.Machine

variable {s : State} {a : Access} {pos : Nat}

/-! ## An access to buffer bytes (20_memory.md R82, R86) -/

theorem accessBuffer_read {bytes : List Byte} (hd : a.data = none) (hr : s.buf.read pos a.width = some bytes) :
    accessBuffer a pos s = .next { s with answer := some (BitVec.ofNat 32 (le bytes)) } := by
  rw [accessBuffer, hd, hr]
  rfl

theorem accessBuffer_uninit (hd : a.data = none) (hr : s.buf.read pos a.width = none) :
    accessBuffer a pos s = .fault .uninitRead := by
  rw [accessBuffer, hd, hr]

theorem accessBuffer_write {v : Nat} (hd : a.data = some v) :
    accessBuffer a pos s = .next { s with buf := s.buf.write pos (leBytes v a.width), answer := none } := by
  rw [accessBuffer, hd]
  rfl

/-- What LEbytes stores fills the bytes the access covers. -/
theorem Memory.read_write_leBytes (m : Memory) (pos v n : Nat) :
    (m.write pos (leBytes v n)).read pos n = some (leBytes v n) := by
  simpa using m.read_write_same pos (leBytes v n)

/-- Settles O46: the access reaches buffer bytes (`hostAccess_buffer`), and the memory a write leaves is `Memory.write`
at the access's own offset. -/
theorem bufferAccessIsLittleEndian : Obligations.BufferAccessIsLittleEndian := by
  intro s a hb hlo hal hhi
  rw [hostAccess_buffer hb hlo hal hhi]
  refine ⟨fun bytes hd hr => accessBuffer_read hd hr, fun hd hr => accessBuffer_uninit hd hr, fun v hd => ?_⟩
  refine ⟨_, accessBuffer_write hd, Memory.read_write_leBytes _ _ _ _, fun x hx => ?_⟩
  exact Memory.get_write_outside _ (by simpa using hx)

end Sys2Proof.Machine
end

section
/-! PROOF. Command encoding (30_encoding.md): the rows of match and mask against the decoder, the completion step of a
word that decodes and of one that does not, the checks every command begins with, and the settled statements. -/

namespace Sys2Proof

/-! ## One row of the decoder (30_encoding.md R114, R115) -/

/-- The fields a row does not use. -/
def Fields.unused (f : Fields) : Mnemonic → List Nat
  | .parse => [f.slot, f.cipher, f.nmode, f.master, f.digest, f.rsv]
  | .nameOf | .specOf => [f.slot, f.nmode, f.master, f.digest, f.rsv]
  | .mkPbkdf2 | .mkLegacy => [f.slot, f.nmode, f.digest, f.rsv]
  | .mkClear => [f.slot, f.cipher, f.nmode, f.digest, f.rsv]
  | .subkey => [f.nmode, f.rsv]
  | .create => [f.master, f.digest, f.rsv]
  | .loadKey | .release | .encrypt | .decrypt | .expectedLen => [f.cipher, f.nmode, f.master, f.digest, f.rsv]

/-- The command that a row makes of the fields it uses. -/
def Fields.command (f : Fields) : Mnemonic → Instr
  | .parse => .parse
  | .nameOf => .nameOf f.cipher
  | .specOf => .specOf f.cipher
  | .mkPbkdf2 => .mkPbkdf2 f.master f.cipher
  | .mkLegacy => .mkLegacy f.master f.cipher
  | .mkClear => .mkClear f.master
  | .subkey => .subkey f.slot f.master f.cipher (digestOf f.digest)
  | .loadKey => .loadKey f.slot
  | .create => .create f.slot f.cipher (nonceModeOf f.nmode)
  | .release => .release f.slot
  | .encrypt => .encrypt f.slot
  | .decrypt => .decrypt f.slot
  | .expectedLen => .expectedLen f.slot

@[simp] theorem Fields.command_opcode (f : Fields) (k : Mnemonic) : (f.command k).opcode = opcodeOf k := by
  cases k <;> rfl

/-- OP selects the row: the row's unused fields are checked, and its command is what is left. -/
theorem Fields.decode_of_op {f : Fields} {k : Mnemonic} (h : f.op = opcodeOf k) :
    f.decode = ifUnusedZero (f.unused k) (f.command k) := by
  rw [Fields.decode, h, mnemonicOf_opcodeOf]
  cases k <;> rfl

/-- The commands of one opcode, in terms of the word's fields. -/
theorem decode_opcode_iff (w : Word) (k : Mnemonic) : (∃ i, decode w = .ok i ∧ i.opcode = opcodeOf k) ↔
    bitField w 0 8 = opcodeOf k ∧ ∀ x ∈ (Fields.ofWord w).unused k, x = 0 := by
  constructor
  · rintro ⟨i, hi, hop⟩
    have h := (op_of_decode hi).trans hop
    rw [decode, Fields.decode_of_op h, ifUnusedZero_eq_ok] at hi
    exact ⟨h, hi.2⟩
  · rintro ⟨hop, hz⟩
    refine ⟨(Fields.ofWord w).command k, ?_, Fields.command_opcode _ k⟩
    rw [decode, Fields.decode_of_op hop, ifUnusedZero_eq_ok]
    exact ⟨rfl, hz⟩

/-! ## Match and mask (30_encoding.md R115) -/

/-- The match of a mnemonic's row: OP, all other bits 0. -/
def matchOf (k : Mnemonic) : Word := BitVec.ofNat 32 (opcodeOf k)

theorem matchOf_toNat (k : Mnemonic) : (matchOf k).toNat = opcodeOf k := by cases k <;> rfl

/-- A masked word against a pattern, field by field of the three words. -/
theorem masked_eq_iff_fields (w m p : Word) :
    w &&& m = p ↔ (Fields.ofWord w).and (Fields.ofWord m) = Fields.ofWord p := by
  rw [← Fields.masked_eq_iff w (Fields.ofWord_fit m) (Fields.ofWord_fit p), Fields.toWord_ofWord,
    Fields.toWord_ofWord]

/-- The mask has ones on OP and on the unused fields, zeros on the used ones. -/
theorem Fields.and_maskOf_iff {f : Fields} (hf : f.Fit) (k : Mnemonic) :
    f.and (Fields.ofWord (maskOf k)) = ⟨opcodeOf k, 0, 0, 0, 0, 0, 0⟩ ↔
      f.op = opcodeOf k ∧ ∀ x ∈ f.unused k, x = 0 := by
  obtain ⟨hop, hslot, hcipher, hnmode, hmaster, hdigest, hrsv⟩ := hf
  replace hop : f.op &&& 255 = f.op := Nat.and_two_pow_sub_one_of_lt_two_pow (n := 8) hop
  replace hslot : f.slot &&& 15 = f.slot := Nat.and_two_pow_sub_one_of_lt_two_pow (n := 4) hslot
  replace hcipher : f.cipher &&& 7 = f.cipher := Nat.and_two_pow_sub_one_of_lt_two_pow (n := 3) hcipher
  replace hnmode : f.nmode &&& 1 = f.nmode := Nat.and_two_pow_sub_one_of_lt_two_pow (n := 1) hnmode
  replace hmaster : f.master &&& 15 = f.master := Nat.and_two_pow_sub_one_of_lt_two_pow (n := 4) hmaster
  replace hdigest : f.digest &&& 1 = f.digest := Nat.and_two_pow_sub_one_of_lt_two_pow (n := 1) hdigest
  replace hrsv : f.rsv &&& 2047 = f.rsv := Nat.and_two_pow_sub_one_of_lt_two_pow (n := 11) hrsv
  cases k <;>
    simp [Fields.and, Fields.ofWord, bitField, maskOf, Fields.unused, -Nat.and_one_is_mod, hop, hslot, hcipher,
      hnmode, hmaster, hdigest, hrsv]

theorem ofWord_matchOf (k : Mnemonic) : Fields.ofWord (matchOf k) = ⟨opcodeOf k, 0, 0, 0, 0, 0, 0⟩ := by
  cases k <;> rfl

/-- The legal words of an opcode. -/
theorem masked_eq_matchOf_iff_decode (w : Word) (k : Mnemonic) :
    w &&& maskOf k = matchOf k ↔ ∃ i, decode w = .ok i ∧ i.opcode = opcodeOf k := by
  rw [masked_eq_iff_fields, ofWord_matchOf, Fields.and_maskOf_iff (Fields.ofWord_fit w), decode_opcode_iff]
  rfl

/-- The low byte of a word is its OP field (30_encoding.md R111). -/
theorem and_opMask_toNat (w : Word) : (w &&& 0xFF#32).toNat = bitField w 0 8 :=
  Nat.and_two_pow_sub_one_eq_mod w.toNat 8

end Sys2Proof

namespace Sys2Proof.Machine

variable {s : State} {i : Instr}

/-- The table of R115 has one row for each mnemonic. -/
theorem mem_specRows {row : Word × Word} : row ∈ specRows ↔ ∃ k, row = (matchOf k, maskOf k) := by
  have hrows : specRows = allMnemonics.map fun k => (matchOf k, maskOf k) := rfl
  have hall (k : Mnemonic) : k ∈ allMnemonics := by cases k <;> decide
  simp [hrows, hall, eq_comm]

/-- R115 for a row of the table. -/
theorem masked_eq_iff_decode {row : Word × Word} (hrow : row ∈ specRows) (w : Word) :
    w &&& row.2 = row.1 ↔ ∃ i, decode w = .ok i ∧ i.opcode = row.1.toNat := by
  obtain ⟨k, rfl⟩ := mem_specRows.1 hrow
  rw [matchOf_toNat]
  exact masked_eq_matchOf_iff_decode w k

/-- A word that decodes matches its command's row. -/
theorem masked_eq_of_decode {w : Word} (h : decode w = .ok i) : ∃ row ∈ specRows, w &&& row.2 = row.1 :=
  ⟨(matchOf i.mnemonic, maskOf i.mnemonic), mem_specRows.2 ⟨_, rfl⟩,
    (masked_eq_matchOf_iff_decode w _).2 ⟨i, h, rfl⟩⟩

/-! ## The completion step (30_encoding.md R118, 60_exceptions.md R300 (b)) -/

theorem complete_of_decode (h : decode s.cmd = .ok i) : s.complete = exec i s := by
  rw [State.complete, h]

theorem State.unlessFatal_of_fatal (hf : s.status.fatal = true) (k : Result) :
    s.unlessFatal k = .next (raised s .fatal) := if_pos hf

theorem State.unlessFatal_of_not_fatal (hf : s.status.fatal = false) (k : Result) : s.unlessFatal k = k :=
  if_neg (by simp [hf])

theorem complete_of_decode_error {e : DecodeError} (h : decode s.cmd = .error e) :
    s.complete = s.unlessFatal (.next (raised s .illegal)) := by
  rw [State.complete, h]
  rfl

/-- A word that is no command raises E_ILLEGAL. -/
theorem complete_illegal (hf : s.status.fatal = false) (h : ∀ i, decode s.cmd ≠ .ok i) :
    s.complete = .next (raised s .illegal) := by
  cases hd : decode s.cmd with
  | ok i => exact absurd hd (h i)
  | error e => rw [complete_of_decode_error hd, State.unlessFatal_of_not_fatal hf]

/-- Settles O4: `masked_eq_iff_decode` is the first sentence; for the second, a word with the row's OP that decoded
would be a command of the row's opcode, so it would match the row. -/
theorem legalWordsMatchMask : Obligations.LegalWordsMatchMask := by
  refine ⟨fun w row hrow => masked_eq_iff_decode hrow w, fun s row hrow hf hop hne => ?_⟩
  refine complete_illegal hf fun i hi => ?_
  have hopcode : i.opcode = row.1.toNat := by rw [← op_of_decode hi, ← hop, and_opMask_toNat]
  exact hne ((masked_eq_iff_decode hrow s.cmd).2 ⟨i, hi, hopcode⟩)

/-- Settles O5: the rows are the commands (`masked_eq_iff_decode`, `masked_eq_of_decode`). -/
theorem everyWordHasOneOutcome : Obligations.EveryWordHasOneOutcome := by
  refine ⟨fun s row hrow hmatch => ?_, fun s hf hnone => complete_illegal hf fun i hi => ?_⟩
  · obtain ⟨i, hi, hopcode⟩ := (masked_eq_iff_decode hrow s.cmd).1 hmatch
    exact ⟨i, hi, hopcode, complete_of_decode hi⟩
  · obtain ⟨row, hrow, hmatch⟩ := masked_eq_of_decode hi
    exact hnone row hrow hmatch

/-- Settles O1: each word is decoded by evaluation; the last one is no command (`complete_illegal`). -/
theorem workedEncodingsDecode : Obligations.WorkedEncodingsDecode := by
  refine ⟨rfl, rfl, rfl, rfl, rfl, rfl, rfl, rfl, rfl, rfl, rfl, rfl, fun s hf hcmd => ?_⟩
  refine complete_illegal hf fun i => ?_
  have herror : decode 0x00200230#32 = .error .nonzeroUnusedField := rfl
  rw [hcmd, herror]
  simp

/-! ## The checks every command begins with (60_exceptions.md R305, steps 1 to 4) -/

/-- Steps 3 and 4 for the operands a command names: SLOT, then MK, then CIPHER. What comes after them is `done` for a
command without CIPHER and `body` for a command with it. -/
def State.checkOperands (s : State) (i : Instr) (done : Result) (body : Cipher → Result) : Result :=
  let cipherChecked := (cipherOf i).elim done fun code => s.withCipher code body
  let masterChecked := (masterOf i).elim cipherChecked fun m => s.withMk m cipherChecked
  (slotOf i).elim masterChecked fun n => s.withSlot n masterChecked

/-- Every command begins with the common checks. -/
theorem exec_eq_checkOperands (i : Instr) (s : State) :
    ∃ done body, exec i s = s.unlessFatal (s.checkOperands i done body) := by
  cases i with
  | parse | mkClear | loadKey | release | encrypt | decrypt | expectedLen => exact ⟨_, fun _ => s.done, rfl⟩
  | nameOf | specOf | mkPbkdf2 | mkLegacy | subkey | create => exact ⟨s.done, _, rfl⟩

theorem exec_fatal (hf : s.status.fatal = true) (i : Instr) : exec i s = .next (raised s .fatal) := by
  obtain ⟨done, body, he⟩ := exec_eq_checkOperands i s
  rw [he, State.unlessFatal_of_fatal hf]

theorem exec_not_fatal (hf : s.status.fatal = false) (i : Instr) :
    ∃ done body, exec i s = s.checkOperands i done body := by
  obtain ⟨done, body, he⟩ := exec_eq_checkOperands i s
  exact ⟨done, body, by rw [he, State.unlessFatal_of_not_fatal hf]⟩

theorem State.withSlot_ge {n : Nat} (h : s.build.numSlots ≤ n) (k : Result) :
    s.withSlot n k = .next (raised s .range) := if_neg (Nat.not_lt.2 h)

/-- The check of a SLOT that is in range, or that the command does not have, passes. -/
theorem elim_withSlot_lt {slot : Option Nat} (h : ∀ n, slot = some n → n < s.build.numSlots) (k : Result) :
    slot.elim k (fun n => s.withSlot n k) = k := by
  cases slot with
  | none => rfl
  | some n => exact if_pos (h n rfl)

theorem State.withMk_ge {m : Nat} (h : s.build.numMk ≤ m) (k : Result) :
    s.withMk m k = .next (raised s .range) := if_neg (Nat.not_lt.2 h)

/-- The check of an MK that is in range, or that the command does not have, passes. -/
theorem elim_withMk_lt {mk : Option Nat} (h : ∀ m, mk = some m → m < s.build.numMk) (k : Result) :
    mk.elim k (fun m => s.withMk m k) = k := by
  cases mk with
  | none => rfl
  | some m => exact if_pos (h m rfl)

theorem State.withCipher_ge {code : Nat} (h : 5 ≤ code) (body : Cipher → Result) :
    s.withCipher code body = .next (raised s .unknownCipher) := by
  rw [State.withCipher, cipherOfCode_eq_none.2 h]
  rfl

section
variable {done : Result} {body : Cipher → Result}

theorem checkOperands_slot_ge {n : Nat} (hn : slotOf i = some n) (h : s.build.numSlots ≤ n) :
    s.checkOperands i done body = .next (raised s .range) := by
  rw [State.checkOperands, hn]
  exact State.withSlot_ge h _

/-- An MK out of range raises E_RANGE whether or not SLOT is in range: both checks have the same outcome. -/
theorem checkOperands_master_ge {m : Nat} (hm : masterOf i = some m) (h : s.build.numMk ≤ m) :
    s.checkOperands i done body = .next (raised s .range) := by
  rw [State.checkOperands, hm, Option.elim_some, State.withMk_ge h]
  cases slotOf i with
  | none => rfl
  | some n => exact ite_self _

theorem checkOperands_cipher_ge {c : Nat} (hslot : ∀ n, slotOf i = some n → n < s.build.numSlots)
    (hmaster : ∀ m, masterOf i = some m → m < s.build.numMk) (hc : cipherOf i = some c) (h : 5 ≤ c) :
    s.checkOperands i done body = .next (raised s .unknownCipher) := by
  rw [State.checkOperands, hc, Option.elim_some, State.withCipher_ge h, elim_withMk_lt hmaster, elim_withSlot_lt hslot]

end

/-- Settles O6: the completion step of a decoded word is the checks of its command, taken in their order. -/
theorem decodingErrorPrecedence : Obligations.DecodingErrorPrecedence := by
  refine ⟨fun s hf => ?_, fun s e hf hd => ?_, fun s i n hf hd hn h => ?_, fun s i m hf hd hm h => ?_,
    fun s i c hf hd hslot hmaster hc h => ?_⟩
  · cases hd : decode s.cmd with
    | ok i => rw [complete_of_decode hd, exec_fatal hf]
    | error e => rw [complete_of_decode_error hd, State.unlessFatal_of_fatal hf]
  · rw [complete_of_decode_error hd, State.unlessFatal_of_not_fatal hf]
  all_goals
    obtain ⟨done, body, he⟩ := exec_not_fatal hf i
    rw [complete_of_decode hd, he]
  · exact checkOperands_slot_ge hn h
  · exact checkOperands_master_ge hm h
  · exact checkOperands_cipher_ge hslot hmaster hc h

end Sys2Proof.Machine
end

section
/-! PROOF. The registry commands (40_registry.md): the words of one opcode, the outcomes of the common checks, what
PARSE, NAME_OF and SPEC_OF do in each case, and the settled statements. -/

namespace Sys2Proof.Machine

variable {s : State}

/-! ## The words of one opcode (30_encoding.md R114, R115) -/

theorem eq_command_of_decode {w : Word} {i : Instr} {k : Mnemonic} (h : decode w = .ok i)
    (hop : i.opcode = opcodeOf k) : i = (Fields.ofWord w).command k := by
  rw [decode, Fields.decode_of_op ((op_of_decode h).trans hop), ifUnusedZero_eq_ok] at h
  exact h.1.symm

/-- Every row of the opcode map is an `Encoding`, with the command that its fields make. -/
theorem encoding_row (k : Mnemonic) : Encoding (matchOf k) (maskOf k) fun w => (Fields.ofWord w).command k := by
  intro w i
  rw [matchOf_toNat, masked_eq_matchOf_iff_decode]
  constructor
  · rintro ⟨hi, hop⟩
    exact ⟨⟨i, hi, hop⟩, eq_command_of_decode hi hop⟩
  · rintro ⟨⟨j, hj, hop⟩, rfl⟩
    obtain rfl := eq_command_of_decode hj hop
    exact ⟨hj, hop⟩

/-! ## The outcomes of the common checks (60_exceptions.md R305) -/

theorem State.withCipher_of_code {code : Nat} {c : Cipher} (h : cipherOfCode code = some c)
    (body : Cipher → Result) : s.withCipher code body = body c := by
  rw [State.withCipher, h]

theorem State.checkRange_of_lt {off len : Nat} (h : s.build.bufSize < off + len) (k : Result) :
    s.checkRange off len k = .next (raised s .range) := if_neg (Nat.not_le.2 h)

theorem State.checkRange_of_le {off len : Nat} (h : off + len ≤ s.build.bufSize) (k : Result) :
    s.checkRange off len k = k := if_pos h

/-- CIPHER is checked after SLOT and MK, before everything else a command does. -/
theorem exec_cipher_ge {i : Instr} {code : Nat} (hf : s.status.fatal = false)
    (hslot : ∀ n, slotOf i = some n → n < s.build.numSlots) (hmaster : ∀ m, masterOf i = some m → m < s.build.numMk)
    (hc : cipherOf i = some code) (h : 5 ≤ code) : exec i s = .next (raised s .unknownCipher) := by
  obtain ⟨done, body, he⟩ := exec_not_fatal hf i
  rw [he, checkOperands_cipher_ge hslot hmaster hc h]

/-! ## Canonical names (40_registry.md R150, R154) -/

theorem parseName_cipherName (c : Cipher) : parseName (cipherName c) = some c := by cases c <;> decide

theorem parseName_eq_none {nm : List Byte} : parseName nm = none ↔ ∀ c, nm ≠ cipherName c := by
  rw [parseName, List.find?_eq_none]
  simp [mem_allCiphers, eq_comm]

theorem length_cipherName_le (c : Cipher) : (cipherName c).length ≤ 23 := by cases c <;> decide

/-- The length of a name is what a 32-bit RESULT or SRC_LEN holds. -/
theorem toNat_length_cipherName (c : Cipher) :
    (BitVec.ofNat 32 (cipherName c).length).toNat = (cipherName c).length :=
  Nat.mod_eq_of_lt (Nat.lt_of_le_of_lt (length_cipherName_le c) (by decide))

/-! ## PARSE (40_registry.md R150) -/

theorem exec_parse_range (hf : s.status.fatal = false)
    (h : s.build.bufSize < s.srcOff.toNat + s.srcLen.toNat) : exec .parse s = .next (raised s .range) := by
  rw [exec, execParse, State.unlessFatal_of_not_fatal hf, State.checkSrc, State.checkRange_of_lt h]

section
variable (hf : s.status.fatal = false) (hr : s.srcOff.toNat + s.srcLen.toNat ≤ s.build.bufSize)
include hf hr

/-- PARSE past its range check: the name's code, if it is a name. -/
theorem exec_parse_inRange : exec .parse s = withInput s.src fun nm =>
    (parseName nm).elim (.next (raised s .unknownCipher)) fun c =>
      .next (completed { s with result := BitVec.ofNat 32 (cipherCode c) }) := by
  rw [exec, execParse, State.unlessFatal_of_not_fatal hf, State.checkSrc, State.checkRange_of_le hr]
  refine congrArg (withInput s.src) (funext fun nm => ?_)
  cases parseName nm <;> rfl

theorem exec_parse_name {c : Cipher} (h : s.src = some (cipherName c)) :
    exec .parse s = .next (completed { s with result := BitVec.ofNat 32 (cipherCode c) }) := by
  rw [exec_parse_inRange hf hr, h, withInput, parseName_cipherName, Option.elim_some]

theorem exec_parse_unknown {nm : List Byte} (h : s.src = some nm) (hnm : ∀ c, nm ≠ cipherName c) :
    exec .parse s = .next (raised s .unknownCipher) := by
  rw [exec_parse_inRange hf hr, h, withInput, parseName_eq_none.2 hnm, Option.elim_none]

theorem exec_parse_uninit (h : s.src = none) : exec .parse s = .fault .uninitInput := by
  rw [exec_parse_inRange hf hr, h, withInput]

end

/-- Settles O20: the row of PARSE, then one lemma per outcome. -/
theorem parseByExactName : Obligations.ParseByExactName :=
  ⟨encoding_row .parse, fun _ hf => ⟨exec_parse_range hf, fun _ hr => exec_parse_name hf hr,
    fun _ hr => exec_parse_unknown hf hr, exec_parse_uninit hf⟩⟩

/-! ## NAME_OF (40_registry.md R151) -/

section
variable {code : Nat} {c : Cipher} (hf : s.status.fatal = false) (hc : cipherOfCode code = some c)
include hf hc

theorem exec_nameOf_range (h : s.build.bufSize < s.dstOff.toNat + (cipherName c).length) :
    exec (.nameOf code) s = .next (raised s .range) := by
  rw [exec, execNameOf, State.unlessFatal_of_not_fatal hf, State.withCipher_of_code hc, State.checkDst,
    State.checkRange_of_lt h]

theorem exec_nameOf_written (h : s.dstOff.toNat + (cipherName c).length ≤ s.build.bufSize) :
    exec (.nameOf code) s = .next (completed
      { s with
        buf := s.buf.write s.dstOff.toNat (cipherName c)
        result := BitVec.ofNat 32 (cipherName c).length }) := by
  rw [exec, execNameOf, State.unlessFatal_of_not_fatal hf, State.withCipher_of_code hc, State.checkDst,
    State.checkRange_of_le h]
  rfl

end

/-- Settles O21: the row of NAME_OF, then one lemma per outcome. -/
theorem nameOfWritesName : Obligations.NameOfWritesName :=
  ⟨encoding_row .nameOf, fun _ _ hf =>
    ⟨exec_cipher_ge hf nofun nofun rfl, fun _ hc => exec_nameOf_range hf hc, fun _ hc => exec_nameOf_written hf hc⟩⟩

/-! ## SPEC_OF (40_registry.md R152) -/

theorem exec_specOf_packed (hf : s.status.fatal = false) {code : Nat} {c : Cipher} (hc : cipherOfCode code = some c) :
    exec (.specOf code) s = .next (completed { s with result := packedSpec c }) := by
  rw [exec, execSpecOf, State.unlessFatal_of_not_fatal hf, State.withCipher_of_code hc]
  rfl

/-- Each size has its own byte of the packed word. -/
theorem packedSpec_fields (c : Cipher) :
    (packedSpec c).extractLsb' 0 8 = BitVec.ofNat 8 (keySize c) ∧
    (packedSpec c).extractLsb' 8 8 = BitVec.ofNat 8 (saltSize c) ∧
    (packedSpec c).extractLsb' 16 8 = BitVec.ofNat 8 (nonceSize c) ∧
    (packedSpec c).extractLsb' 24 8 = BitVec.ofNat 8 (tagSize c) := by
  cases c <;> decide

/-- Settles O22: the word is the packed spec. -/
theorem specOfPacksSpec : Obligations.SpecOfPacksSpec :=
  ⟨encoding_row .specOf, fun _ _ hf => ⟨exec_cipher_ge hf nofun nofun rfl, fun c hc =>
    ⟨packedSpec c, exec_specOf_packed hf hc, packedSpec_fields c⟩⟩⟩

/-! ## PARSE after NAME_OF (40_registry.md R154) -/

/-- A name stands in the buffer where it was written, with its length as RESULT holds it. -/
theorem Memory.read_write_cipherName (m : Memory) (a : Nat) (c : Cipher) :
    (m.write a (cipherName c)).read a (BitVec.ofNat 32 (cipherName c).length).toNat = some (cipherName c) := by
  rw [toNat_length_cipherName, Memory.read_write_same]

/-- Settles O23: NAME_OF's RESULT is the name's length, so PARSE reads back exactly the bytes written
(`Memory.read_write_cipherName`), and they are the name of the code's cipher. -/
theorem parseInvertsNameOf : Obligations.ParseInvertsNameOf := by
  intro s c hf hdst
  have hsrc : s.dstOff.toNat + (BitVec.ofNat 32 (cipherName c).length).toNat ≤ s.build.bufSize := by
    rwa [toNat_length_cipherName]
  refine ⟨_, exec_nameOf_written hf (cipherOfCode_code c) hdst, exec_parse_name ?_ hsrc ?_⟩
  · exact hf
  · exact s.buf.read_write_cipherName s.dstOff.toNat c

end Sys2Proof.Machine
end

section
/-! PROOF. The key-derivation commands (41_key_derivation.md): the prefix property of LEGACY_MD5, what each command does
once its operands have passed the common checks, and the settled statements. -/

namespace Sys2Proof.Machine

variable {s : State}

/-! ## The outcomes of the common checks (60_exceptions.md R305, 20_memory.md R87) -/

theorem State.withSlot_lt {n : Nat} (h : n < s.build.numSlots) (k : Result) : s.withSlot n k = k := if_pos h

theorem State.withMk_lt {m : Nat} (h : m < s.build.numMk) (k : Result) : s.withMk m k = k := if_pos h

/-- A range check before what raises E_RANGE anyhow makes no difference. -/
theorem State.checkRange_raised_range (off len : Nat) :
    s.checkRange off len (.next (raised s .range)) = .next (raised s .range) := ite_self _

/-! ## LEGACY_MD5 (41_key_derivation.md R189, R191) -/

/-- Settles O26: both keys are prefixes of one string, and that string has 32 bytes (`length_legacyMd5`). -/
theorem legacyPrefixProperty : Obligations.LegacyPrefixProperty := by
  intro H P L L' hH hL hL'
  refine ⟨?_, length_legacyMd5 hH P (hL.trans hL')⟩
  rw [legacyMd5, legacyMd5, List.take_take, Nat.min_eq_left hL]

/-! ## MK_PBKDF2 and MK_LEGACY (41_key_derivation.md R182, R190) -/

section
variable {m code : Nat} {c : Cipher} (hf : s.status.fatal = false) (hm : m < s.build.numMk)
  (hc : cipherOfCode code = some c)
include hf hm hc

/-- MK_PBKDF2 past the common checks. -/
theorem exec_mkPbkdf2_checked : exec (.mkPbkdf2 m code) s =
    if (s.master m).valid then .next (raised s .mkState)
    else s.checkSrc <| s.checkAux <| withInput s.src fun password => withInput s.aux fun salt =>
      .next (completed (s.setMaster m (.derived .pbkdf2
        (pbkdf2 (hashSha256 s.prims) password salt 1000 (keySize c)) (keySize c)))) := by
  rw [exec, execMkPbkdf2, State.unlessFatal_of_not_fatal hf, State.withMk_lt hm, State.withCipher_of_code hc]
  rfl

/-- MK_LEGACY past the common checks; no cipher's key is oversize (R192). -/
theorem exec_mkLegacy_checked : exec (.mkLegacy m code) s =
    if (s.master m).valid then .next (raised s .mkState)
    else s.checkSrc <| withInput s.src fun password =>
      .next (completed (s.setMaster m (.derived .legacy
        (legacyMd5 (hashMd5 s.prims) password (keySize c)) (keySize c)))) := by
  rw [exec, execMkLegacy, State.unlessFatal_of_not_fatal hf, State.withMk_lt hm, State.withCipher_of_code hc]
  simp only [if_neg (Nat.not_lt.2 (keySize_le c))]
  rfl

end

/-- Settles O24: the row of MK_PBKDF2, then the checks in their order. An operand out of range and an input byte
without a value have one outcome whichever of password and salt it is. -/
theorem mkPbkdf2DerivesKey : Obligations.MkPbkdf2DerivesKey := by
  refine ⟨encoding_row .mkPbkdf2, fun s m code c hf hm hc => ?_⟩
  rw [exec_mkPbkdf2_checked hf hm hc]
  refine ⟨fun hv => if_pos hv, fun hv hrange => ?_, fun hv hsrc haux hnone => ?_,
    fun password salt hv hsrc haux hpassword hsalt => ?_⟩ <;> rw [hv, if_neg Bool.false_ne_true]
  · rcases hrange with hsrc | haux
    · exact State.checkRange_of_lt hsrc _
    · rw [State.checkAux, State.checkRange_of_lt haux]
      exact State.checkRange_raised_range _ _
  · rw [State.checkSrc, State.checkRange_of_le hsrc, State.checkAux, State.checkRange_of_le haux]
    rcases hnone with hpassword | hsalt
    · rw [State.src, hpassword, withInput]
    · rw [State.aux, hsalt]
      cases s.src <;> rfl
  · rw [State.checkSrc, State.checkRange_of_le hsrc, State.checkAux, State.checkRange_of_le haux, State.src, hpassword,
      State.aux, hsalt]
    rfl

/-- Settles O25: the row of MK_LEGACY, then the checks in their order. -/
theorem mkLegacyDerivesKey : Obligations.MkLegacyDerivesKey := by
  refine ⟨encoding_row .mkLegacy, fun s m code c hf hm hc => ?_⟩
  rw [exec_mkLegacy_checked hf hm hc]
  refine ⟨fun hv => if_pos hv, fun hv hrange => ?_, fun hv hsrc hnone => ?_,
    fun password hv hsrc hpassword => ?_⟩ <;> rw [hv, if_neg Bool.false_ne_true, State.checkSrc]
  · exact State.checkRange_of_lt hrange _
  · rw [State.checkRange_of_le hsrc, State.src, hnone, withInput]
  · rw [State.checkRange_of_le hsrc, State.src, hpassword]
    rfl

/-! ## MK_CLEAR (41_key_derivation.md R194) -/

/-- Settles O27: the row of MK_CLEAR; after the check of MK nothing can fail. -/
theorem mkClearZeroes : Obligations.MkClearZeroes := by
  refine ⟨encoding_row .mkClear, fun s m hf => ?_⟩
  rw [exec, execMkClear, State.unlessFatal_of_not_fatal hf]
  exact ⟨fun h => State.withMk_ge h _, fun h => State.withMk_lt h _⟩

/-! ## SUBKEY (41_key_derivation.md R200) -/

/-- The DIGEST field is bit 20 of the word (30_encoding.md R111). -/
theorem digestOf_bitField (w : Word) : digestOf (bitField w 20 1) = if w.getLsbD 20 then .sha1 else .sha256 := by
  rw [bitField_one]
  split <;> rfl

/-- SUBKEY past the common checks. -/
theorem exec_subkey_checked {n m code : Nat} {c : Cipher} (d : Digest) (hf : s.status.fatal = false)
    (hn : n < s.build.numSlots) (hm : m < s.build.numMk) (hc : cipherOfCode code = some c) :
    exec (.subkey n m code d) s =
      if (s.slot n).st ≠ .free then .next (raised s .slotState)
      else if ¬ (s.master m).valid then .next (raised s .mkState)
      else if s.srcLen.toNat ≠ saltSize c then .next (raised s .len)
      else s.checkSrc <|
        if (s.master m).len.toNat ≠ keySize c then .next (raised s .keyLen)
        else withInput s.src fun salt => .next (completed (s.setSlot n ((s.slot n).load
          (deriveSubkey s.prims d salt ((s.master m).key.toList.take (keySize c)) (keySize c)) (keySize c)))) := by
  rw [exec, execSubkey, State.unlessFatal_of_not_fatal hf, State.withSlot_lt hn, State.withMk_lt hm,
    State.withCipher_of_code hc]
  rfl

/-- Settles O29: the row of SUBKEY, then the checks in the rule's order, each case passing those before its own. -/
theorem subkeyDerivesSlotKey : Obligations.SubkeyDerivesSlotKey := by
  refine ⟨?_, fun s n m code c d hf hn hm hc => ?_⟩
  · simp only [← digestOf_bitField]
    exact encoding_row .subkey
  rw [exec_subkey_checked d hf hn hm hc]
  refine ⟨fun hst => if_pos hst, fun hst hv => ?_, fun hst hv hlen => ?_, fun hst hv hlen hrange => ?_,
    fun hst hv hlen hsrc hkey => ?_, fun hst hv hlen hsrc hkey hnone => ?_, fun salt hst hv hlen hsrc hkey hsalt => ?_⟩
    <;> rw [if_neg (not_not.2 hst)]
  · exact if_pos (by simp [hv])
  all_goals rw [if_neg (not_not.2 hv)]
  · exact if_pos hlen
  all_goals rw [if_neg (not_not.2 hlen), State.checkSrc]
  · exact State.checkRange_of_lt hrange _
  all_goals rw [State.checkRange_of_le hsrc]
  · exact if_pos hkey
  all_goals rw [if_neg (not_not.2 hkey), State.src]
  · rw [hnone, withInput]
  · rw [hsalt]
    cases d <;> rfl

/-! ## LOAD_KEY (41_key_derivation.md R210) -/

/-- LOAD_KEY past the common checks. -/
theorem exec_loadKey_checked {n : Nat} (hf : s.status.fatal = false) (hn : n < s.build.numSlots) :
    exec (.loadKey n) s =
      if (s.slot n).st ≠ .free then .next (raised s .slotState)
      else if s.srcLen.toNat > 32 then .next (raised s .len)
      else s.checkSrc <| withInput s.src fun key =>
        .next (completed (s.setSlot n ((s.slot n).load key key.length))) := by
  rw [exec, execLoadKey, State.unlessFatal_of_not_fatal hf, State.withSlot_lt hn]
  rfl

/-- Settles O31: the row of LOAD_KEY, then the checks in the rule's order. The key read has SRC_LEN bytes
(`length_src`). -/
theorem loadKeyLoadsBytes : Obligations.LoadKeyLoadsBytes := by
  refine ⟨encoding_row .loadKey, fun s n hf hn => ?_⟩
  rw [exec_loadKey_checked hf hn]
  refine ⟨fun hst => if_pos hst, fun hst hlen => ?_, fun hst hlen hrange => ?_, fun hst hlen hsrc hnone => ?_,
    fun key hst hlen hsrc hkey => ?_⟩ <;> rw [if_neg (not_not.2 hst)]
  · exact if_pos hlen
  all_goals rw [if_neg (Nat.not_lt.2 hlen), State.checkSrc]
  · exact State.checkRange_of_lt hrange _
  all_goals rw [State.checkRange_of_le hsrc]
  · rw [State.src, hnone, withInput]
  · rw [← length_src hkey, State.src, hkey]
    rfl

end Sys2Proof.Machine
end

section
/-! PROOF. The backend selector's commands (42_selector.md): what CREATE does once its operands have passed the common
checks, and the settled statements. -/

namespace Sys2Proof.Machine

variable {s : State}

/-! ## CREATE (42_selector.md R234) -/

/-- The NMODE field is bit 15 of the word (30_encoding.md R111). -/
theorem nonceModeOf_bitField (w : Word) :
    nonceModeOf (bitField w 15 1) = if w.getLsbD 15 then .zero else .sequential := by
  rw [bitField_one]
  split <;> rfl

/-- The backend table disagrees with the registry in the key length or in the nonce length. -/
theorem not_backendAgrees_iff {b : Build} {c : Cipher} :
    ¬ BackendAgrees b c ↔ backendKeyLen b c ≠ keySize c ∨ backendNonceLen b c ≠ nonceSize c := not_and_or

/-- CREATE past the common checks; the block being not FATAL, E_INVARIANT is what sets FATAL. -/
theorem exec_create_checked {n code : Nat} {c : Cipher} (mode : NonceMode) (hf : s.status.fatal = false)
    (hn : n < s.build.numSlots) (hc : cipherOfCode code = some c) :
    exec (.create n code mode) s =
      if (s.slot n).st ≠ .keyed then .next (raised s .slotState)
      else if ¬ BackendAgrees s.build c then .next { s with status := ⟨false, true, true, .invariant⟩ }
      else if (s.slot n).keyLen.toNat ≠ keySize c then .next (raised s .keyLen)
      else .next (completed (s.setSlot n ((s.slot n).created c mode))) := by
  rw [exec, execCreate, State.unlessFatal_of_not_fatal hf, State.withSlot_lt hn, State.withCipher_of_code hc]
  rfl

/-- Settles O32: the row of CREATE, then the checks in the rule's order, each case passing those before its own. -/
theorem createBindsSlot : Obligations.CreateBindsSlot := by
  refine ⟨?_, fun s n code c mode hf hn hc => ?_⟩
  · simp only [← nonceModeOf_bitField]
    exact encoding_row .create
  rw [exec_create_checked mode hf hn hc]
  refine ⟨fun hst => if_pos hst, fun hst hdrift => ?_, fun hst hkey hnonce hlen => ?_,
    fun hst hkey hnonce hlen => ?_⟩ <;> rw [if_neg (not_not.2 hst)]
  · exact if_pos (not_backendAgrees_iff.2 hdrift)
  all_goals rw [if_neg (not_not.2 ⟨hkey, hnonce⟩)]
  · exact if_pos hlen
  · exact if_neg (not_not.2 hlen)

/-! ## RELEASE (42_selector.md R240) -/

/-- Settles O33: the row of RELEASE; after the check of SLOT nothing can fail, whatever the slot's state. -/
theorem releaseZeroes : Obligations.ReleaseZeroes :=
  ⟨encoding_row .release, fun _ _ => ⟨fun hf => exec_fatal hf _,
    fun hf h => (State.unlessFatal_of_not_fatal hf _).trans (State.withSlot_ge h _),
    fun hf h => (State.unlessFatal_of_not_fatal hf _).trans (State.withSlot_lt h _)⟩⟩

end Sys2Proof.Machine
end

section
/-! PROOF. The crypter's commands (43_crypter.md): the nonce's advance, what ENCRYPT, DECRYPT and EXPECTED_LEN do once
SLOT has passed its check, what a FAILED slot accepts, and the settled statements. -/

namespace Sys2Proof.Machine

variable {s : State}

/-! ## NonceAdvance (43_crypter.md R266) -/

section
variable {sl : Slot}

theorem Slot.nonceAdvance_zero (hm : sl.nmode = .zero) : sl.nonceAdvance = sl := by
  rw [Slot.nonceAdvance, hm]

theorem Slot.nonceAdvance_last (hm : sl.nmode = .sequential) (hv : sl.nonceValue = 256 ^ sl.nlen.toNat - 1) :
    sl.nonceAdvance = { sl with st := .exhausted } := by
  rw [Slot.nonceAdvance, hm]
  exact if_pos hv

/-- A nonce register whose low NLEN bytes are the little-endian string of `v`, the bytes above as they are. -/
def Slot.nonceSet (sl : Slot) (v : Nat) : Vector Byte 24 :=
  fit 24 (leBytes v sl.nlen.toNat ++ sl.nonce.toList.drop sl.nlen.toNat)

theorem Slot.nonceAdvance_succ (hm : sl.nmode = .sequential) (hv : sl.nonceValue ≠ 256 ^ sl.nlen.toNat - 1) :
    sl.nonceAdvance = { sl with nonce := sl.nonceSet (sl.nonceValue + 1) } := by
  rw [Slot.nonceAdvance, hm]
  exact if_neg hv

section
variable (hl : sl.nlen.toNat ≤ 24)
include hl

/-- The new low bytes and the old high ones fill the register. -/
theorem Slot.length_nonceSet_parts (v : Nat) :
    (leBytes v sl.nlen.toNat ++ sl.nonce.toList.drop sl.nlen.toNat).length = 24 := by
  rw [List.length_append, length_leBytes, List.length_drop, Vector.length_toList]
  omega

theorem Slot.take_nonceSet (v : Nat) : (sl.nonceSet v).toList.take sl.nlen.toNat = leBytes v sl.nlen.toNat :=
  take_toList_fit (Slot.length_nonceSet_parts hl v) (length_leBytes _ _)

theorem Slot.drop_nonceSet (v : Nat) :
    (sl.nonceSet v).toList.drop sl.nlen.toNat = sl.nonce.toList.drop sl.nlen.toNat :=
  drop_toList_fit (Slot.length_nonceSet_parts hl v) (length_leBytes _ _)

end

theorem Slot.nonceValue_lt (sl : Slot) : sl.nonceValue < 256 ^ sl.nlen.toNat :=
  calc le sl.nonceBytes < 256 ^ sl.nonceBytes.length := le_lt _
    _ ≤ 256 ^ sl.nlen.toNat := Nat.pow_le_pow_right (by decide) (List.length_take_le _ _)

/-- Below the largest value the sum does not wrap. -/
theorem Slot.le_leBytes_nonceValue_succ (hv : sl.nonceValue ≠ 256 ^ sl.nlen.toNat - 1) :
    le (leBytes (sl.nonceValue + 1) sl.nlen.toNat) = sl.nonceValue + 1 := by
  have hlt := sl.nonceValue_lt
  rw [le_leBytes, Nat.mod_eq_of_lt (by omega)]

end

/-- Settles O39: one lemma per branch of the rule; the example is the third branch, its sum evaluated. -/
theorem nonceAdvanceAddsOne : Obligations.NonceAdvanceAddsOne := by
  refine fun sl hl => ⟨Slot.nonceAdvance_zero, Slot.nonceAdvance_last, fun hm hv => ?_, fun hm h12 hbytes => ?_⟩
  · rw [Slot.nonceAdvance_succ hm hv]
    refine ⟨rfl, Slot.take_nonceSet hl _, ?_, Slot.drop_nonceSet hl _⟩
    rw [Slot.take_nonceSet hl]
    exact Slot.le_leBytes_nonceValue_succ hv
  · have hlen : sl.nlen.toNat = 12 := by rw [h12]; rfl
    have hvalue : sl.nonceValue = 0xFFFFFFFF := by
      rw [Slot.nonceValue, Slot.nonceBytes, hlen, hbytes]
      decide
    rw [Slot.nonceAdvance_succ hm (by rw [hvalue, hlen]; decide), hvalue]
    have htake := Slot.take_nonceSet hl (0xFFFFFFFF + 1)
    rw [hlen] at htake
    exact htake

/-! ## The slot checks of ENCRYPT and DECRYPT (43_crypter.md R270, R275) -/

section
variable {sl : Slot} {d : Direction}

theorem State.checkCrypter_slotState (h : sl.st = .free ∨ sl.st = .keyed ∨ sl.st = .failed) (k : Result) :
    s.checkCrypter sl d k = .next (raised s .slotState) := by
  rcases h with h | h | h <;> rw [State.checkCrypter, h] <;> rfl

theorem State.checkCrypter_exhausted (h : sl.st = .exhausted) (k : Result) :
    s.checkCrypter sl d k = .next (raised s .nonceExhausted) := by
  rw [State.checkCrypter, h]
  rfl

theorem State.checkCrypter_direction (h : sl.st = .active) (hd : sl.dir = d) (k : Result) :
    s.checkCrypter sl d k = .next (raised s .direction) := by
  rw [State.checkCrypter, h]
  exact if_pos hd

theorem State.checkCrypter_active (h : sl.st = .active) (hd : sl.dir ≠ d) (k : Result) :
    s.checkCrypter sl d k = k := by
  rw [State.checkCrypter, h]
  exact if_neg hd

end

/-! ## The input's and the output's ranges (20_memory.md R87) -/

section
variable {len : Nat}

theorem State.checkSrc_checkDst_range
    (h : s.build.bufSize < s.srcOff.toNat + s.srcLen.toNat ∨ s.build.bufSize < s.dstOff.toNat + len) (k : Result) :
    s.checkSrc (s.checkDst len k) = .next (raised s .range) := by
  rcases h with hsrc | hdst
  · exact State.checkRange_of_lt hsrc _
  · rw [State.checkDst, State.checkRange_of_lt hdst]
    exact State.checkRange_raised_range _ _

theorem State.checkSrc_checkDst_inRange (hsrc : s.srcOff.toNat + s.srcLen.toNat ≤ s.build.bufSize)
    (hdst : s.dstOff.toNat + len ≤ s.build.bufSize) (k : Result) : s.checkSrc (s.checkDst len k) = k := by
  rw [State.checkSrc, State.checkRange_of_le hsrc, State.checkDst, State.checkRange_of_le hdst]

end

/-! ## ENCRYPT, DECRYPT and EXPECTED_LEN past the common checks -/

section
variable {n : Nat} (hf : s.status.fatal = false) (hn : n < s.build.numSlots)
include hf hn

/-- ENCRYPT past the common checks. -/
theorem exec_encrypt_checked : exec (.encrypt n) s =
    (s.checkCrypter (s.slot n) .dec <| s.checkSrc <| s.checkDst (s.srcLen.toNat + 16) <| withInput s.src fun p =>
      .next (completed (((s.writeDst ((s.slot n).sealed s.prims p)).setResultNat
        ((s.slot n).sealed s.prims p).length).setSlot n ((s.slot n).bound .enc).nonceAdvance))) := by
  rw [exec, execEncrypt, State.unlessFatal_of_not_fatal hf, State.withSlot_lt hn]
  simp only [tagSize_eq]
  rfl

/-- DECRYPT past the common checks. -/
theorem exec_decrypt_checked : exec (.decrypt n) s =
    (s.checkCrypter (s.slot n) .enc <|
      if s.srcLen.toNat < 16 then .next (raised (s.setSlot n (s.slot n).failed) .auth)
      else s.checkSrc <| s.checkDst (s.srcLen.toNat - 16) <| withInput s.src fun t =>
        ((s.slot n).opened s.prims t).elim
          (.next (raised ((s.killDst (s.srcLen.toNat - 16)).setSlot n (s.slot n).failed) .auth)) fun r =>
          .next (completed (((s.writeDst r).setResultNat r.length).setSlot n
            ((s.slot n).bound .dec).nonceAdvance))) := by
  rw [exec, execDecrypt, State.unlessFatal_of_not_fatal hf, State.withSlot_lt hn]
  simp only [State.authFail, tagSize_eq]
  refine congrArg (s.checkCrypter (s.slot n) .enc) (congrArg (ite _ _) (congrArg s.checkSrc
    (congrArg (s.checkDst _) (congrArg (withInput s.src) (funext fun t => ?_)))))
  cases (s.slot n).opened s.prims t <;> rfl

/-- EXPECTED_LEN past the common checks. -/
theorem exec_expectedLen_checked : exec (.expectedLen n) s =
    if (s.slot n).st = .free ∨ (s.slot n).st = .keyed then .next (raised s .slotState)
    else if 0xFFFFFFEF < s.srcLen.toNat then .next (raised s .len)
    else .next (completed (s.setResultNat (s.srcLen.toNat + 16))) := by
  rw [exec, execExpectedLen, State.unlessFatal_of_not_fatal hf, State.withSlot_lt hn]
  simp only [tagSize_eq]
  rfl

end

/-! ## ENCRYPT (43_crypter.md R270) -/

/-- Settles O35: the row of ENCRYPT, then the checks in the rule's order. The sealing has SRC_LEN + 16 bytes
(`length_sealed`, `length_src`). -/
theorem encryptSealsChunk : Obligations.EncryptSealsChunk := by
  refine ⟨encoding_row .encrypt, fun s n hf hn => ?_⟩
  rw [exec_encrypt_checked hf hn]
  refine ⟨fun hst => State.checkCrypter_slotState hst _, fun hst => State.checkCrypter_exhausted hst _,
    fun hst hd => State.checkCrypter_direction hst hd _, fun hst hd hrange => ?_, fun hst hd hsrc hdst hnone => ?_,
    fun p hst hd hsrc hdst hp => ?_⟩ <;> rw [State.checkCrypter_active hst hd]
  · exact State.checkSrc_checkDst_range hrange _
  all_goals rw [State.checkSrc_checkDst_inRange hsrc hdst, State.src]
  · rw [hnone, withInput]
  · have hlen : ((s.slot n).sealed s.prims p).length = s.srcLen.toNat + 16 := by rw [length_sealed, length_src hp]
    rw [hp, withInput, hlen]
    rfl

/-! ## DECRYPT (43_crypter.md R275) -/

/-- Settles O36: the row of DECRYPT, then the checks in the rule's order, AEAD_OPEN's answer last. The plaintext has
SRC_LEN - 16 bytes (`length_opened`, `length_src`). -/
theorem decryptOpensChunk : Obligations.DecryptOpensChunk := by
  refine ⟨encoding_row .decrypt, fun s n hf hn => ?_⟩
  rw [exec_decrypt_checked hf hn]
  refine ⟨fun hst => State.checkCrypter_slotState hst _, fun hst => State.checkCrypter_exhausted hst _,
    fun hst hd => State.checkCrypter_direction hst hd _, fun hst hd hshort => ?_, fun hst hd hlen hrange => ?_,
    fun hst hd hlen hsrc hdst hnone => ?_, fun t hst hd hlen hsrc hdst ht hopen => ?_,
    fun t r hst hd hlen hsrc hdst ht hopen => ?_⟩ <;> rw [State.checkCrypter_active hst hd]
  · exact if_pos hshort
  all_goals rw [if_neg (Nat.not_lt.2 hlen)]
  · exact State.checkSrc_checkDst_range hrange _
  all_goals rw [State.checkSrc_checkDst_inRange hsrc hdst, State.src]
  · rw [hnone, withInput]
  · have hfail : (s.slot n).opened s.prims t = none := congrArg (Option.map Vector.toList) hopen
    rw [ht, withInput, hfail]
    rfl
  · have hplain : (s.slot n).opened s.prims t = some r := hopen
    rw [ht, withInput, hplain, Option.elim_some, length_opened hplain, length_src ht]
    rfl

/-! ## EXPECTED_LEN (43_crypter.md R280) -/

/-- A slot in ACTIVE, FAILED or EXHAUSTED is neither FREE nor KEYED. -/
theorem not_free_or_keyed {st : SlotState} (h : st = .active ∨ st = .failed ∨ st = .exhausted) :
    ¬ (st = .free ∨ st = .keyed) := by
  rcases h with rfl | rfl | rfl <;> decide

/-- Settles O38: the row of EXPECTED_LEN, then the two checks; the sum of a length that passes fits 32 bits. -/
theorem expectedLenAddsTag : Obligations.ExpectedLenAddsTag := by
  refine ⟨encoding_row .expectedLen, fun s n hf hn => ?_⟩
  rw [exec_expectedLen_checked hf hn]
  refine ⟨fun hst => if_pos hst, fun hst hlong => ?_, fun hst hfits => ⟨?_, by bv_omega⟩⟩ <;>
    rw [if_neg (not_free_or_keyed hst)]
  · exact if_pos hlong
  · have hsum : BitVec.ofNat 32 (s.srcLen.toNat + 16) = s.srcLen + 16 := by bv_omega
    rw [if_neg (Nat.not_lt.2 hfits), State.setResultNat, hsum]
    rfl

/-! ## A slot after E_AUTH (43_crypter.md R276) -/

/-- Killing no byte changes nothing. -/
theorem State.killDst_zero (s : State) : s.killDst 0 = s := by
  have hkill : s.buf.kill s.dstOff.toNat 0 = s.buf := List.filter_eq_self.2 fun _ _ => decide_eq_true (by omega)
  rw [State.killDst, hkill]
  rfl

/-- A DECRYPT that ends with E_AUTH fails the slot and kills SRC_LEN - 16 bytes, which is none for an input shorter
than the tag. -/
theorem decrypt_auth_next {t : State} {n : Nat} (h : exec (.decrypt n) s = .next t) (he : t.status.errcode = .auth) :
    s.status.fatal = false ∧ n < s.build.numSlots ∧
      t = ((s.killDst (s.srcLen.toNat - 16)).setSlot n (s.slot n).failed).ended .auth := by
  obtain ⟨u, e, rfl, heffect⟩ := effect_of_next h
  obtain rfl : e = .auth := he
  cases heffect with
  | raised _ _ hcode => exact absurd rfl hcode.2.2.2.1
  | shortInput hf slot hi hs _ _ hl =>
    cases hi
    rw [Nat.sub_eq_zero_of_le hl.le, State.killDst_zero]
    exact ⟨hf, hs, rfl⟩
  | authFailed hf slot hi hs =>
    cases hi
    exact ⟨hf, hs, rfl⟩

section
variable {n : Nat} (hf : s.status.fatal = false) (hn : n < s.build.numSlots) (hst : (s.slot n).st = .failed)
include hf hn hst

theorem exec_encrypt_failed : exec (.encrypt n) s = .next (raised s .slotState) := by
  rw [exec_encrypt_checked hf hn, State.checkCrypter_slotState (.inr (.inr hst))]

theorem exec_decrypt_failed : exec (.decrypt n) s = .next (raised s .slotState) := by
  rw [exec_decrypt_checked hf hn, State.checkCrypter_slotState (.inr (.inr hst))]

theorem exec_loadKey_failed : exec (.loadKey n) s = .next (raised s .slotState) := by
  rw [exec_loadKey_checked hf hn, if_pos (by simp [hst])]

/-- CREATE's CIPHER is checked before the slot's state. -/
theorem exec_create_failed (code : Nat) (mode : NonceMode) :
    ∃ e, e ≠ .ok ∧ exec (.create n code mode) s = .next (raised s e) := by
  cases hc : cipherOfCode code with
  | none =>
    exact ⟨.unknownCipher, by decide,
      exec_cipher_ge hf (fun _ h => Option.some.inj h ▸ hn) nofun rfl (cipherOfCode_eq_none.1 hc)⟩
  | some c => exact ⟨.slotState, by decide, by rw [exec_create_checked mode hf hn hc, if_pos (by simp [hst])]⟩

/-- SUBKEY's MK and CIPHER are checked before the slot's state. -/
theorem exec_subkey_failed (m code : Nat) (d : Digest) :
    ∃ e, e ≠ .ok ∧ exec (.subkey n m code d) s = .next (raised s e) := by
  by_cases hm : m < s.build.numMk
  · cases hc : cipherOfCode code with
    | none =>
      exact ⟨.unknownCipher, by decide, exec_cipher_ge hf (fun _ h => Option.some.inj h ▸ hn)
        (fun _ h => Option.some.inj h ▸ hm) rfl (cipherOfCode_eq_none.1 hc)⟩
    | some c => exact ⟨.slotState, by decide, by rw [exec_subkey_checked d hf hn hm hc, if_pos (by simp [hst])]⟩
  · obtain ⟨done, body, hexec⟩ := exec_not_fatal hf (.subkey n m code d)
    exact ⟨.range, by decide, by rw [hexec, checkOperands_master_ge rfl (Nat.not_lt.1 hm)]⟩

/-- Every command on a FAILED slot but RELEASE and EXPECTED_LEN ends with an error and no other effect. -/
theorem exec_raises_of_failed {i : Instr} (hi : slotOf i = some n) (hrelease : i ≠ .release n)
    (hexpected : i ≠ .expectedLen n) : ∃ e, e ≠ .ok ∧ exec i s = .next (raised s e) := by
  cases i with
  | parse | nameOf | specOf | mkPbkdf2 | mkLegacy | mkClear => cases hi
  | subkey slot m code d =>
    cases hi
    exact exec_subkey_failed hf hn hst m code d
  | loadKey slot =>
    cases hi
    exact ⟨.slotState, by decide, exec_loadKey_failed hf hn hst⟩
  | create slot code mode =>
    cases hi
    exact exec_create_failed hf hn hst code mode
  | release slot =>
    cases hi
    exact absurd rfl hrelease
  | encrypt slot =>
    cases hi
    exact ⟨.slotState, by decide, exec_encrypt_failed hf hn hst⟩
  | decrypt slot =>
    cases hi
    exact ⟨.slotState, by decide, exec_decrypt_failed hf hn hst⟩
  | expectedLen slot =>
    cases hi
    exact absurd rfl hexpected

end

/-- Settles O37: the state after E_AUTH is known whole (`decrypt_auth_next`), and its slot is FAILED on a block that is
not FATAL; what the slot then accepts is said by the lemmas above, `releaseZeroes` and `expectedLenAddsTag`. -/
theorem authFailureKillsSlot : Obligations.AuthFailureKillsSlot := by
  intro s t n hn16 hexec hauth
  obtain ⟨hf, hn, ht⟩ := decrypt_auth_next hexec hauth
  have hslot : t.slot n = (s.slot n).failed := by simp [ht, State.setSlot_slot, hn16]
  have hst : (t.slot n).st = .failed := by rw [hslot]; rfl
  have hbuf : t.buf = s.buf.kill s.dstOff.toNat (s.srcLen.toNat - 16) := by rw [ht]; rfl
  have hf' : t.status.fatal = false := by rw [ht]; exact hf
  have hn' : n < t.build.numSlots := by rw [ht]; exact hn
  refine ⟨hst, by rw [hslot]; rfl, by rw [hslot]; rfl, by rw [ht]; rfl, fun a => by rw [hbuf, Memory.get_kill],
    exec_encrypt_failed hf' hn' hst, exec_decrypt_failed hf' hn' hst, fun i => exec_raises_of_failed hf' hn' hst,
    ⟨_, (releaseZeroes.2 t n).2.2 hf' hn', rfl⟩, fun hfits => ?_⟩
  obtain ⟨-, -, hok⟩ := expectedLenAddsTag.2 t n hf' hn'
  exact ⟨_, (hok (.inr (.inl hst)) hfits).1, rfl⟩

end Sys2Proof.Machine
end

section
/-! PROOF. Exceptions (60_exceptions.md): what the completion step leaves after an error, what each command and each
event does to FATAL, and the settled statements. -/

namespace Sys2Proof.Machine

variable {s t u : State} {i : Instr} {e : ErrCode}

/-! ## After an error (60_exceptions.md R306) -/

theorem State.ended_eq_raised (he : e ≠ .ok) (s : State) : s.ended e = raised s e := by
  simp [State.ended, Status.ended, raised, he]

/-- What survives a raise. Both forms of E_AUTH are one here: the killed region of an input shorter than the tag has no
byte (`State.killDst_zero`). -/
theorem Effect.cases_of_error (h : Effect i s u e) (he : e ≠ .ok) :
    (e ≠ .invariant ∧ e ≠ .auth ∧ u = s) ∨ (e = .invariant ∧ u = s.setFatal) ∨
    (e = .auth ∧ ∃ n, i = .decrypt n ∧ u = (s.killDst (s.srcLen.toNat - 16)).setSlot n (s.slot n).failed) := by
  cases h with
  | fatal => exact .inl ⟨by decide, by decide, rfl⟩
  | raised _ _ hcode =>
    obtain ⟨-, -, hinvariant, hauth, -⟩ := hcode
    exact .inl ⟨hinvariant, hauth, rfl⟩
  | drift => exact .inr (.inl ⟨rfl, rfl⟩)
  | shortInput _ n hi _ _ _ hl =>
    rw [Nat.sub_eq_zero_of_le hl.le, State.killDst_zero]
    exact .inr (.inr ⟨rfl, n, hi, rfl⟩)
  | authFailed _ n hi => exact .inr (.inr ⟨rfl, n, hi, rfl⟩)
  | computed | named | derived | cleared | loaded | created | released | encrypted | decrypted => exact absurd rfl he

/-- The whole next state of a completion step that ends with an error. -/
theorem complete_cases_of_error (h : s.complete = .next t) (he : t.status.errcode ≠ .ok) :
    (∃ e, e ≠ .invariant ∧ e ≠ .auth ∧ t = raised s e) ∨ t = raised s.setFatal .invariant ∨
    ∃ n, decode s.cmd = .ok (.decrypt n) ∧
      t = raised ((s.killDst (s.srcLen.toNat - 16)).setSlot n (s.slot n).failed) .auth := by
  rcases complete_cases s with hn | ⟨i, u, e, hi, hn, heffect⟩ | ⟨hn, -⟩ | ⟨hn, -⟩ <;> cases hn.symm.trans h
  · have hcode : e ≠ .ok := he
    rw [State.ended_eq_raised hcode]
    obtain ⟨hinvariant, hauth, rfl⟩ | ⟨rfl, rfl⟩ | ⟨rfl, n, rfl, rfl⟩ := heffect.cases_of_error hcode
    · exact .inl ⟨e, hinvariant, hauth, rfl⟩
    · exact .inr (.inl rfl)
    · exact .inr (.inr ⟨n, hi, rfl⟩)
  · exact .inl ⟨.illegal, by decide, by decide, rfl⟩
  · exact .inl ⟨.fatal, by decide, by decide, rfl⟩

/-- Settles O11: one case for each whole next state after an error (`complete_cases_of_error`). -/
theorem errorsArePrecise : Obligations.ErrorsArePrecise := by
  intro s t h he
  obtain ⟨e, hinvariant, hauth, rfl⟩ | rfl | ⟨n, hdecode, rfl⟩ := complete_cases_of_error h he
  · refine ⟨?_, fun _ => ⟨rfl, rfl⟩, fun hcode => absurd hcode hauth⟩
    simp [raised, hinvariant]
  · refine ⟨?_, fun _ => ⟨rfl, rfl⟩, fun hcode => by cases hcode⟩
    simp [raised, State.setFatal]
  · refine ⟨?_, fun hcode => absurd rfl hcode, fun _ => ⟨n, hdecode, rfl, ?_⟩⟩
    · simp [raised, State.setSlot, State.killDst, State.setBuf]
    · split_ifs with hshort
      · rw [Nat.sub_eq_zero_of_le hshort.le, State.killDst_zero]
        rfl
      · rfl

/-! ## FATAL (60_exceptions.md R303) -/

theorem Effect.fatal_eq (h : Effect i s u e) : u.status.fatal = (s.status.fatal || decide (e = .invariant)) := by
  cases h with
  | raised _ _ hcode =>
    obtain ⟨-, -, hinvariant, -⟩ := hcode
    simp [hinvariant]
  | drift => simp
  | _ => exact (Bool.or_false _).symm

theorem hostAccess_fatal {a : Access} (h : hostAccess a s = .next t) : t.status.fatal = s.status.fatal := by
  rcases hostAccess_cases a s with
    ⟨f, hn, -⟩ | ⟨-, v, hn⟩ | ⟨-, v, r, -, -, -, -, -, hn⟩ | ⟨-, v, -, -, -, -, hn⟩ <;> cases hn.symm.trans h
  · rfl
  · obtain ⟨-, -, -, -, -, hfatal, -⟩ := writeReg_keeps s (BitVec.ofNat 32 v) r
    exact hfatal
  · rfl

theorem blockTurn_fatal (hf : s.status.fatal = true) (h : s.blockTurn = .next t) : t.status.fatal = true := by
  unfold State.blockTurn at h
  split at h
  · cases (decodingErrorPrecedence.1 s hf).symm.trans h
    exact hf
  · cases h
    exact hf

/-- Settles O10: an E_INVARIANT is the effect that sets FATAL (`Effect.fatal_eq`); a FATAL block passes no command's
first check (`exec_fatal`), and no word's (`decodingErrorPrecedence`); then one case for each event. -/
theorem fatalIsSticky : Obligations.FatalIsSticky := by
  refine ⟨fun i s t h hcode => ?_, fun i s hf => exec_fatal hf i, decodingErrorPrecedence.1, fun s t e hf h => ?_⟩
  · obtain ⟨u, e, rfl, heffect⟩ := effect_of_next h
    obtain rfl : e = .invariant := hcode
    exact heffect.fatal_eq.trans (Bool.or_true _)
  · cases e with
    | host a => exact (hostAccess_fatal h).trans hf
    | turn => exact blockTurn_fatal hf h
    | reset =>
      cases h
      rfl

/-! ## After OK (60_exceptions.md R307) -/

/-- Settles O12: an effect that ends with OK leaves FATAL (`Effect.fatal_eq`); the end writes the rest of STATUS. -/
theorem successClearsError : Obligations.SuccessClearsError := by
  intro i s t h hcode
  obtain ⟨u, e, rfl, heffect⟩ := effect_of_next h
  obtain rfl : e = .ok := hcode
  have hfatal : u.status.fatal = s.status.fatal := heffect.fatal_eq.trans (Bool.or_false _)
  rw [← hfatal]
  rfl

end Sys2Proof.Machine
end

section
/-! PROOF. RESET (70_reset_and_hazards.md): what it leaves in the banks, and the settled statement. -/

namespace Sys2Proof.Machine

/-! ## What RESET restores (70_reset_and_hazards.md R340, R341) -/

section

variable (s : State)

theorem onEvent_reset : State.onEvent s .reset = .next s.applyReset := rfl

@[simp] theorem State.applyReset_master (m : Nat) : s.applyReset.master m = MasterKey.cleared :=
  powerOn_master s.build m

@[simp] theorem State.applyReset_slot (n : Nat) : s.applyReset.slot n = Slot.cleared :=
  powerOn_slot s.build n

end

/-- The power-on state is a fixed point: the mark, script and answer that RESET keeps are its own empty ones. -/
@[simp] theorem State.applyReset_powerOn (b : Build) : (State.powerOn b).applyReset = State.powerOn b := rfl

/-- Settles O55: RESET's next state is `State.applyReset` from every state, so a pending command is no special case;
its banks are those of power-on, and its other fields stand in its definition. -/
theorem resetRestoresEverything : Obligations.ResetRestoresEverything := by
  refine ⟨fun s => ⟨s.applyReset, onEvent_reset s, rfl, rfl, rfl, rfl, rfl, rfl, rfl, rfl,
    s.applyReset_master, s.applyReset_slot, Memory.get_nil, rfl, rfl⟩, fun b => ?_⟩
  rw [onEvent_reset, State.applyReset_powerOn]

end Sys2Proof.Machine
end

section
/-! PROOF. The decoder and the encoder are inverse to each other (30_encoding.md R110-R118): a row's command against the
fields it is made of, and the settled statements. -/

namespace Sys2Proof

variable {f : Fields} {k : Mnemonic} {i : Instr}

/-! ## The codes of NMODE and DIGEST (10_state.md R47, 30_encoding.md R111) -/

@[simp] theorem nonceModeOf_code (n : NonceMode) : nonceModeOf n.code = n := by cases n <;> rfl

@[simp] theorem digestOf_code (d : Digest) : digestOf d.code = d := by cases d <;> rfl

theorem code_nonceModeOf {n : Nat} (h : n < 2) : (nonceModeOf n).code = n := by
  rcases Nat.le_one_iff_eq_zero_or_eq_one.1 (Nat.le_of_lt_succ h) with rfl | rfl <;> rfl

theorem code_digestOf {n : Nat} (h : n < 2) : (digestOf n).code = n := by
  rcases Nat.le_one_iff_eq_zero_or_eq_one.1 (Nat.le_of_lt_succ h) with rfl | rfl <;> rfl

/-! ## From a command to its fields and back (30_encoding.md R114) -/

/-- The fields that a command's row does not use are 0. -/
theorem Instr.fields_unused (i : Instr) : ∀ x ∈ i.fields.unused i.mnemonic, x = 0 := by
  cases i <;> simp [Instr.fields, Instr.mnemonic, Fields.unused]

/-- The row's command made of a command's fields is the command. -/
theorem Instr.fields_command (i : Instr) : i.fields.command i.mnemonic = i := by
  cases i <;> simp [Instr.fields, Instr.mnemonic, Fields.command]

theorem Instr.decode_fields (i : Instr) : i.fields.decode = .ok i := by
  rw [Fields.decode_of_op i.fields_op, ifUnusedZero_eq_ok]
  exact ⟨i.fields_command, i.fields_unused⟩

/-! ## From fields to the row's command and back (30_encoding.md R111, R115) -/

/-- Fields whose unused ones are 0 are the fields of the command they make. -/
theorem Fields.command_fields (hf : f.Fit) (hop : f.op = opcodeOf k) (hz : ∀ x ∈ f.unused k, x = 0) :
    (f.command k).fields = f := by
  obtain ⟨op, slot, cipher, nmode, master, digest, rsv⟩ := f
  obtain ⟨-, -, -, hnmode, -, hdigest, -⟩ := hf
  cases k <;>
    simp_all [Fields.unused, Fields.command, Instr.fields, Instr.opcode, Instr.mnemonic, code_nonceModeOf,
      code_digestOf]

theorem Fields.command_wellFormed (hf : f.Fit) (k : Mnemonic) : (f.command k).WellFormed := by
  obtain ⟨-, hslot, hcipher, -, hmaster, -, -⟩ := hf
  cases k <;>
    simp [Fields.command, Instr.WellFormed, Instr.wellFormed, slotFits, mkFits, cipherFits, hslot, hcipher, hmaster]

/-- Settles O2: the fields of a well-formed command fit the word, so they come back out of it
(`Laws.EncodedFields.ofWord_encode`), and they decode to the command. -/
theorem decodeInvertsEncode : Obligations.DecodeInvertsEncode := by
  intro i hi
  rw [decode, Laws.EncodedFields.ofWord_encode hi]
  exact i.decode_fields

/-- Settles O3: a word that decodes is a row's command made of its fields, the unused ones 0, so no bit of it is lost
(`Fields.command_fields`, `Fields.toWord_ofWord`). -/
theorem encodeInvertsDecode : Obligations.EncodeInvertsDecode := by
  intro w i hi
  obtain ⟨hop, hz⟩ := (decode_opcode_iff w i.mnemonic).1 ⟨i, hi, rfl⟩
  rw [Machine.eq_command_of_decode hi rfl]
  refine ⟨Fields.command_wellFormed (Fields.ofWord_fit w) _, ?_⟩
  rw [encode, Fields.command_fields (Fields.ofWord_fit w) hop hz, Fields.toWord_ofWord]

end Sys2Proof
end

section
/-! PROOF. Frames: what each command may write besides STATUS (`footprint`), everything outside it left as it was, and
the settled statements about what a command leaves unchanged. -/

namespace Sys2Proof.Machine

variable {i : Instr} {s t u : State} {e : ErrCode} {n : Nat}

/-! ## A bank is its registers -/

theorem State.mks_eq_of_master (h : ∀ m, t.master m = s.master m) : t.mks = s.mks := by
  ext1 m hm
  simpa [State.master, hm] using h m

theorem State.slots_eq_of_slot (h : ∀ n, t.slot n = s.slot n) : t.slots = s.slots := by
  ext1 n hn
  simpa [State.slot, hn] using h n

/-! ## What a command may write -/

/-- What a command may write besides STATUS: a master-key register, a slot, RESULT, and so many bytes at DST_OFF. -/
structure Footprint where
  master : Option Nat := none
  slot : Option Nat := none
  result : Bool := false
  out : Nat := 0

/-- The footprint of a command in a state. -/
def footprint (s : State) : Instr → Footprint
  | .parse | .specOf _ | .expectedLen _ => { result := true }
  | .nameOf code => { result := true, out := (cipherOfCode code).elim 0 fun c => (cipherName c).length }
  | .mkPbkdf2 m _ | .mkLegacy m _ | .mkClear m => { master := some m }
  | .subkey n _ _ _ | .loadKey n | .create n _ _ | .release n => { slot := some n }
  | .encrypt n => { slot := some n, result := true, out := s.srcLen.toNat + 16 }
  | .decrypt n => { slot := some n, result := true, out := s.srcLen.toNat - 16 }

theorem Effect.master_eq (h : Effect i s u e) {m : Nat} (hm : (footprint s i).master ≠ some m) :
    u.master m = s.master m := by
  cases h with
  | derived _ k _ _ hi =>
    have hk : (footprint s i).master = some k := by rcases hi with rfl | rfl <;> rfl
    exact State.setMaster_master_ne s (fun hkm => hm (hk.trans (congrArg some hkm))) _
  | cleared _ k hi =>
    subst hi
    exact State.setMaster_master_ne s (fun hkm => hm (congrArg some hkm)) _
  | _ => rfl

theorem Effect.mks_eq (h : Effect i s u e) (hi : (footprint s i).master = none) : u.mks = s.mks :=
  State.mks_eq_of_master fun _ => h.master_eq (by simp [hi])

theorem Effect.slot_eq (h : Effect i s u e) (hn : (footprint s i).slot ≠ some n) : u.slot n = s.slot n := by
  cases h with
  | loaded _ k hi =>
    have hk : (footprint s i).slot = some k := by rcases hi with ⟨m, c, d, rfl⟩ | rfl <;> rfl
    exact State.setSlot_slot_ne _ (fun hkn => hn (hk.trans (congrArg some hkn))) _
  | created _ k _ _ _ hi | released _ k hi | shortInput _ k hi | authFailed _ k hi | encrypted _ k hi
  | decrypted _ k hi =>
    subst hi
    exact State.setSlot_slot_ne _ (fun hkn => hn (congrArg some hkn)) _
  | _ => rfl

theorem Effect.slots_eq (h : Effect i s u e) (hi : (footprint s i).slot = none) : u.slots = s.slots :=
  State.slots_eq_of_slot fun _ => h.slot_eq (by simp [hi])

theorem Effect.result_eq (h : Effect i s u e) (hi : (footprint s i).result = false) : u.result = s.result := by
  cases h with
  | computed _ hlookup => rcases hlookup with rfl | ⟨c, rfl⟩ | ⟨n, rfl⟩ <;> cases hi
  | named _ _ _ hname | encrypted _ _ hname | decrypted _ _ hname =>
    subst hname
    cases hi
  | _ => rfl

theorem Effect.get_buf (h : Effect i s u e) {a : Nat}
    (ha : a < s.dstOff.toNat ∨ s.dstOff.toNat + (footprint s i).out ≤ a) : Memory.get a u.buf = Memory.get a s.buf := by
  cases h with
  | named _ code c hi hc =>
    subst hi
    rw [footprint, hc] at ha
    exact Memory.get_write_outside _ ha
  | encrypted _ _ hi _ _ _ _ _ p hp =>
    subst hi
    exact Memory.get_write_outside _ (by rwa [length_sealed, length_src hp])
  | decrypted _ _ hi _ _ _ _ _ _ p r hp hr =>
    subst hi
    exact Memory.get_write_outside _ (by rwa [length_opened hr, length_src hp])
  | authFailed _ _ hi =>
    subst hi
    have hout : ¬ (s.dstOff.toNat ≤ a ∧ a < s.dstOff.toNat + (s.srcLen.toNat - 16)) :=
      fun hin => ha.elim (Nat.not_lt.2 hin.1) (Nat.not_le.2 hin.2)
    exact (Memory.get_kill _ _ _ _).trans (if_neg hout)
  | _ => rfl

/-- A command without an output leaves every buffer byte. -/
theorem Effect.get_buf_of_no_output (h : Effect i s u e) (hi : (footprint s i).out = 0) (a : Nat) :
    Memory.get a u.buf = Memory.get a s.buf :=
  h.get_buf (by rw [hi]; exact Nat.lt_or_ge _ _)

/-- Only CREATE reports E_INVARIANT, and only in a build whose table drifted (42_selector.md R232). -/
theorem Effect.not_agrees_of_invariant (h : Effect i s u .invariant) :
    ∃ n code c mode, i = .create n code mode ∧ ¬ BackendAgrees s.build c := by
  cases h with
  | raised _ _ hcode =>
    obtain ⟨-, -, hinvariant, -⟩ := hcode
    exact absurd rfl hinvariant
  | drift _ n code mode c hi _ _ _ hdrift => exact ⟨n, code, c, mode, hi, hdrift⟩

theorem Effect.fatal_eq_of_not_create (h : Effect i s u e) (hi : ∀ n code mode, i ≠ .create n code mode) :
    u.status.fatal = s.status.fatal := by
  have he : e ≠ .invariant := by
    rintro rfl
    obtain ⟨n, code, _, mode, hcreate, -⟩ := h.not_agrees_of_invariant
    exact hi n code mode hcreate
  simp [h.fatal_eq, he]

/-! ## The frame statements -/

/-- Settles O13: no effect touches these fields. -/
theorem noCommandWritesOperands : Obligations.NoCommandWritesOperands := by
  intro i s t h
  obtain ⟨u, e, rfl, heffect⟩ := effect_of_next h
  cases heffect <;> exact ⟨rfl, rfl, rfl, rfl, rfl, rfl, rfl, rfl, rfl, rfl⟩

/-- Settles O14: the lookups' footprint is RESULT, and NAME_OF's also the name at DST_OFF. -/
theorem lookupFrame : Obligations.LookupFrame := by
  refine ⟨fun i s t hi h => ?_, fun code s t h => ?_⟩ <;> obtain ⟨u, e, rfl, heffect⟩ := effect_of_next h
  · have hfoot : footprint s i = { result := true } := by rcases hi with rfl | ⟨c, rfl⟩ | ⟨n, rfl⟩ <;> rfl
    refine ⟨heffect.mks_eq (by rw [hfoot]), heffect.slots_eq (by rw [hfoot]), heffect.fatal_eq_of_not_create ?_,
      heffect.get_buf_of_no_output (by rw [hfoot])⟩
    rcases hi with rfl | ⟨c, rfl⟩ | ⟨n, rfl⟩ <;> exact nofun
  · refine ⟨heffect.mks_eq rfl, heffect.slots_eq rfl, heffect.fatal_eq_of_not_create nofun, fun hcode => ?_,
      fun c hc a ha => heffect.get_buf ?_⟩
    · exact heffect.get_buf_of_no_output (by rw [footprint, cipherOfCode_eq_none.2 hcode]; rfl)
    · rwa [footprint, hc]

/-- Settles O15: the footprint is the command's register. -/
theorem masterKeyFrame : Obligations.MasterKeyFrame := by
  intro i m s t hi h
  obtain ⟨u, e, rfl, heffect⟩ := effect_of_next h
  have hfoot : footprint s i = { master := some m } := by rcases hi with ⟨c, rfl⟩ | ⟨c, rfl⟩ | rfl <;> rfl
  refine ⟨fun k hk => heffect.master_eq ?_, heffect.slots_eq (by rw [hfoot]), heffect.result_eq (by rw [hfoot]),
    heffect.fatal_eq_of_not_create ?_, heffect.get_buf_of_no_output (by rw [hfoot])⟩
  · simpa [hfoot] using hk.symm
  · rcases hi with ⟨c, rfl⟩ | ⟨c, rfl⟩ | rfl <;> exact nofun

/-- Settles O16: the footprint is the command's slot. -/
theorem slotKeyFrame : Obligations.SlotKeyFrame := by
  intro i n s t hi h
  obtain ⟨u, e, rfl, heffect⟩ := effect_of_next h
  have hfoot : footprint s i = { slot := some n } := by
    rcases hi with ⟨m, c, d, rfl⟩ | rfl | ⟨c, mode, rfl⟩ | rfl <;> rfl
  refine ⟨heffect.mks_eq (by rw [hfoot]), fun k hk => heffect.slot_eq ?_, heffect.result_eq (by rw [hfoot]),
    heffect.get_buf_of_no_output (by rw [hfoot])⟩
  simpa [hfoot] using hk.symm

/-- Settles O28: a register that is valid is no register a derivation writes (`Effect.derived`). -/
theorem masterKeyIsWriteOnce : Obligations.MasterKeyIsWriteOnce := by
  refine ⟨fun i s t m h hvalid hclear => ?_, fun i s t h hpbkdf2 hlegacy hclear => ?_⟩ <;>
    obtain ⟨u, e, rfl, heffect⟩ := effect_of_next h
  · cases heffect with
    | derived _ k _ _ _ _ hv =>
      refine State.setMaster_master_ne s ?_ _
      rintro rfl
      simp [hv] at hvalid
    | cleared _ k hi =>
      refine State.setMaster_master_ne s ?_ _
      rintro rfl
      exact hclear hi
    | _ => rfl
  · cases i with
    | mkPbkdf2 m c => exact absurd rfl (hpbkdf2 m c)
    | mkLegacy m c => exact absurd rfl (hlegacy m c)
    | mkClear m => exact absurd rfl (hclear m)
    | _ => exact heffect.mks_eq rfl

/-! ## ENCRYPT and DECRYPT (43_crypter.md R266, R270, R275, R276) -/

/-- What stays bound in a slot from CREATE to RELEASE: key, key length, cipher, backend, nonce mode, nonce length. -/
abbrev Slot.SameBinding (a b : Slot) : Prop :=
  a.key = b.key ∧ a.keyLen = b.keyLen ∧ a.cipher = b.cipher ∧ a.backend = b.backend ∧ a.nmode = b.nmode ∧
    a.nlen = b.nlen

/-- NonceAdvance writes the slot's ST and NONCE only. -/
theorem Slot.nonceAdvance_eq (sl : Slot) : ∃ st nonce, sl.nonceAdvance = { sl with st := st, nonce := nonce } := by
  unfold Slot.nonceAdvance
  split
  · exact ⟨_, _, rfl⟩
  · split <;> exact ⟨_, _, rfl⟩

@[simp] theorem Slot.nonceAdvance_dir (sl : Slot) : sl.nonceAdvance.dir = sl.dir := by
  obtain ⟨st, nonce, h⟩ := sl.nonceAdvance_eq
  rw [h]

theorem Slot.nonceAdvance_sameBinding (sl : Slot) : sl.nonceAdvance.SameBinding sl := by
  obtain ⟨st, nonce, h⟩ := sl.nonceAdvance_eq
  rw [h]
  exact ⟨rfl, rfl, rfl, rfl, rfl, rfl⟩

theorem State.setSlot_sameBinding {sl : Slot} (h : sl.SameBinding (s.slot n)) :
    ((s.setSlot n sl).slot n).SameBinding (s.slot n) := by
  rw [State.setSlot_slot]
  split
  · exact h
  · exact ⟨rfl, rfl, rfl, rfl, rfl, rfl⟩

theorem Effect.slot_sameBinding (h : Effect i s u e) (hi : i = .encrypt n ∨ i = .decrypt n) :
    (u.slot n).SameBinding (s.slot n) := by
  cases h with
  | fatal | raised | drift | computed | named | derived | cleared => exact ⟨rfl, rfl, rfl, rfl, rfl, rfl⟩
  | loaded _ _ hload => rcases hi with rfl | rfl <;> simp at hload
  | created _ _ _ _ _ hother | released _ _ hother =>
    subst hother
    simp at hi
  | shortInput _ k hk | authFailed _ k hk =>
    subst hk
    obtain rfl : k = n := by simpa using hi
    exact State.setSlot_sameBinding (s := s) ⟨rfl, rfl, rfl, rfl, rfl, rfl⟩
  | encrypted _ k hk | decrypted _ k hk =>
    subst hk
    obtain rfl : k = n := by simpa using hi
    exact State.setSlot_sameBinding (s := s) (Slot.nonceAdvance_sameBinding _)

/-- Settles O17: the footprint is the slot, RESULT and the output region; inside the slot `Effect.slot_sameBinding`. -/
theorem crypterFrame : Obligations.CrypterFrame := by
  intro i n out s t hi h
  obtain ⟨u, e, rfl, heffect⟩ := effect_of_next h
  have hfoot : footprint s i = { slot := some n, result := true, out := out } := by
    rcases hi with ⟨rfl, rfl⟩ | ⟨rfl, rfl⟩ <;> rfl
  refine ⟨heffect.mks_eq (by rw [hfoot]), fun k hk => heffect.slot_eq ?_, heffect.fatal_eq_of_not_create ?_,
    heffect.slot_sameBinding (hi.imp And.left And.left), fun a ha => heffect.get_buf (by rwa [hfoot])⟩
  · simpa [hfoot] using hk.symm
  · rcases hi with ⟨rfl, -⟩ | ⟨rfl, -⟩ <;> exact nofun

/-! ## The direction of a slot (10_state.md R46, 43_crypter.md R265) -/

theorem Direction.eq_dec {d : Direction} (hnone : d ≠ .none) (henc : d ≠ .enc) : d = .dec := by
  cases d <;> simp_all

theorem Direction.eq_enc {d : Direction} (hnone : d ≠ .none) (hdec : d ≠ .dec) : d = .enc := by
  cases d <;> simp_all

/-- A slot that is written takes the direction of what is written. -/
theorem State.setSlot_slot_dir {k : Nat} {sl : Slot} (h : k = n → sl.dir = (s.slot n).dir) :
    ((s.setSlot k sl).slot n).dir = (s.slot n).dir := by
  rw [State.setSlot_slot]
  split
  · rename_i hk
    exact h hk.1
  · rfl

/-- Settles O41: SUBKEY, LOAD_KEY and CREATE need another ST; ENCRYPT and DECRYPT need a DIR that is not the other
one. -/
theorem directionIsFixed : Obligations.DirectionIsFixed := by
  intro i s t n h hrelease hst hdir
  obtain ⟨u, e, rfl, heffect⟩ := effect_of_next h
  cases heffect with
  | fatal | raised | drift | computed | named | derived | cleared => rfl
  | loaded _ k _ _ hk | created _ k _ _ _ _ _ _ hk =>
    refine State.setSlot_slot_dir (s := s) ?_
    rintro rfl
    simp [hk] at hst
  | released _ k hi =>
    refine State.setSlot_slot_dir (s := s) ?_
    rintro rfl
    exact absurd hi hrelease
  | shortInput _ k _ _ _ hd | authFailed _ k _ _ _ hd =>
    refine State.setSlot_slot_dir (s := s) ?_
    rintro rfl
    exact (Direction.eq_dec hdir hd).symm
  | encrypted _ k _ _ _ hd =>
    refine State.setSlot_slot_dir (s := s) ?_
    rintro rfl
    rw [Slot.nonceAdvance_dir]
    exact (Direction.eq_enc hdir hd).symm
  | decrypted _ k _ _ _ hd =>
    refine State.setSlot_slot_dir (s := s) ?_
    rintro rfl
    rw [Slot.nonceAdvance_dir]
    exact (Direction.eq_dec hdir hd).symm

/-! ## FATAL in a conforming build (42_selector.md R231, R232) -/

theorem Effect.ne_invariant (h : Effect i s u e) (hb : ConformingBuild s.build) : e ≠ .invariant := by
  rintro rfl
  obtain ⟨_, _, c, _, -, hdrift⟩ := h.not_agrees_of_invariant
  exact hdrift (hb c (mem_allCiphers c))

/-- Settles O34: without drift no effect sets FATAL (`Effect.fatal_eq`), and neither does any other event. -/
theorem conformingBuildNeverFatal : Obligations.ConformingBuildNeverFatal := by
  intro s t hb hf h
  obtain ⟨-, es, -, rfl | ⟨-, hc⟩ | ⟨a, -, ha⟩ | ⟨-, rfl⟩⟩ := step_cases h
  · exact hf
  · rcases complete_cases { s with script := es } with hn | ⟨i, u, e, -, hn, heffect⟩ | ⟨hn, -⟩ | ⟨hn, -⟩ <;>
      cases hn.symm.trans hc
    · have he : e ≠ .invariant := heffect.ne_invariant hb
      simpa [hf, he] using heffect.fatal_eq
    · exact hf
    · exact hf
  · exact (hostAccess_fatal ha).trans hf
  · rfl

end Sys2Proof.Machine
end

section
/-! PROOF. The invariant of the block's state (10_state.md R37, R40, R44-R50, 20_memory.md R86): each operation on a
master-key register, a slot, the buffer and STATUS keeps it, so every effect and every step does, and the settled
statements. -/

namespace Sys2Proof.Machine

variable {i : Instr} {s t u : State} {e : ErrCode} {sl : Slot}

/-! ## Zero bytes above a length -/

theorem zeroFrom_replicate (n k : Nat) : zeroFrom n (List.replicate k 0#8) := fun _ hb =>
  List.eq_of_mem_replicate (List.mem_of_mem_drop hb)

/-- A string that fits a register leaves zero bytes above it. -/
theorem zeroFrom_fit {n : Nat} {v : List Byte} (h : v.length ≤ n) : zeroFrom v.length (fit n v).toList := by
  rw [zeroFrom, drop_fit h]
  exact fun _ hb => List.eq_of_mem_replicate hb

/-! ## Master-key registers (10_state.md R40) -/

theorem MasterKey.cleared_inv : MasterKey.cleared.Inv :=
  ⟨fun _ => rfl, .inl rfl, zeroFrom_replicate 0 32⟩

theorem MasterKey.derived_inv (alg : KeyAlg) {key : List Byte} {c : Cipher} (hk : key.length = keySize c) :
    (MasterKey.derived alg key (keySize c)).Inv := by
  refine ⟨nofun, ?_, ?_⟩
  · rcases keySize_mem c with h | h | h <;> simp [MasterKey.derived, h]
  · have hlen : (BitVec.ofNat 6 (keySize c)).toNat = key.length := by
      have := keySize_le c
      rw [hk]
      exact Nat.mod_eq_of_lt (by omega)
    rw [MasterKey.derived, hlen]
    exact zeroFrom_fit (hk.trans_le (keySize_le c))

/-! ## Slots (10_state.md R44-R50) -/

theorem Slot.cleared_inv : Slot.cleared.Inv :=
  ⟨Nat.zero_le _, zeroFrom_replicate 0 32, rfl⟩

/-- The fields of a FREE slot are 0, so a key makes it KEYED with nothing bound. -/
theorem Slot.Inv.load (h : sl.Inv) (hst : sl.st = .free) {key : List Byte} (hk : key.length ≤ 32) :
    (sl.load key key.length).Inv := by
  obtain ⟨-, -, hfree⟩ := h
  rw [hst] at hfree
  obtain rfl : sl = Slot.cleared := hfree
  have hlen : (BitVec.ofNat 6 key.length).toNat = key.length := Nat.mod_eq_of_lt (by omega)
  refine ⟨hlen.trans_le hk, ?_, rfl, rfl, rfl, rfl, rfl, rfl⟩
  rw [Slot.load, hlen]
  exact zeroFrom_fit hk

theorem Slot.Inv.created (h : sl.Inv) {c : Cipher} (hk : sl.keyLen.toNat = keySize c) (n : NonceMode) :
    (sl.created c n).Inv := by
  obtain ⟨hlen, hkey, -⟩ := h
  refine ⟨hlen, hkey, rfl, hk, ?_, zeroFrom_replicate _ 24, fun _ => rfl⟩
  have := nonceSize_le c
  exact Nat.mod_eq_of_lt (by omega)

/-- An ACTIVE slot is bound. -/
theorem Slot.Inv.bound_of_active (h : sl.Inv) (hst : sl.st = .active) : sl.Bound := by
  obtain ⟨-, -, hactive⟩ := h
  rwa [hst] at hactive

theorem Slot.Inv.failed (h : sl.Inv) (hst : sl.st = .active) : sl.failed.Inv := by
  obtain ⟨hlen, hkey, -⟩ := id h
  exact ⟨hlen, hkey, h.bound_of_active hst, rfl⟩

/-- NonceAdvance keeps an ACTIVE slot with a direction in order: in Zero mode it does nothing; at the largest value the
slot is EXHAUSTED as R50 says; else only the low NLEN bytes of the nonce change (`Slot.drop_nonceSet`). -/
theorem Slot.Inv.nonceAdvance (h : sl.Inv) (hst : sl.st = .active) (hdir : sl.dir ≠ .none) : sl.nonceAdvance.Inv := by
  obtain ⟨hlen, hkey, -⟩ := id h
  obtain ⟨hbackend, hcipherKey, hnlen, hzero, hmode⟩ := h.bound_of_active hst
  cases hm : sl.nmode with
  | zero => rwa [Slot.nonceAdvance_zero hm]
  | sequential =>
    by_cases hv : sl.nonceValue = 256 ^ sl.nlen.toNat - 1
    · rw [Slot.nonceAdvance_last hm hv]
      exact ⟨hlen, hkey, ⟨hbackend, hcipherKey, hnlen, hzero, hmode⟩, hdir, hm, hv⟩
    · rw [Slot.nonceAdvance_succ hm hv]
      have hactive : { sl with nonce := sl.nonceSet (sl.nonceValue + 1) }.Bound := by
        refine ⟨hbackend, hcipherKey, hnlen, ?_, fun hz => ?_⟩
        · rw [zeroFrom, Slot.drop_nonceSet (hnlen.trans_le (nonceSize_le _))]
          exact hzero
        · cases hm.symm.trans hz
      refine ⟨hlen, hkey, ?_⟩
      simp only [hst]
      exact hactive

/-- Binding the direction of an ACTIVE slot keeps it in order. -/
theorem Slot.Inv.bound (h : sl.Inv) (hst : sl.st = .active) (d : Direction) : (sl.bound d).Inv := by
  obtain ⟨hlen, hkey, -⟩ := id h
  refine ⟨hlen, hkey, ?_⟩
  simp only [Slot.bound, hst]
  exact h.bound_of_active hst

/-! ## STATUS (10_state.md R37, 60_exceptions.md R303) -/

/-- A FATAL block ends every command with E_FATAL. -/
theorem Effect.eq_fatal (h : Effect i s u e) (hf : s.status.fatal = true) : e = .fatal := by
  cases h with
  | fatal => rfl
  | _ => simp_all

/-- E_KDF is never reported (41_key_derivation.md R184). -/
theorem Effect.ne_kdf (h : Effect i s u e) : e ≠ .kdf := by
  cases h with
  | raised _ _ he =>
    obtain ⟨-, -, -, -, hkdf⟩ := he
    exact hkdf
  | _ => decide

/-- The end of a command writes a STATUS that is in order, if its code explains FATAL and is no E_KDF. -/
theorem Status.ended_inv {st : Status} (hkdf : e ≠ .kdf) (hfatal : st.fatal = true → e = .invariant ∨ e = .fatal) :
    (st.ended e).Inv :=
  ⟨by simp, hfatal, hkdf⟩

theorem Effect.status_inv (h : Effect i s u e) : (u.status.ended e).Inv := by
  refine Status.ended_inv h.ne_kdf fun hu => ?_
  rw [h.fatal_eq, Bool.or_eq_true, decide_eq_true_eq] at hu
  exact hu.symm.imp_right h.eq_fatal

/-! ## The state -/

/-- The invariant of everything but STATUS. -/
structure State.StorageInv (s : State) : Prop where
  masters : ∀ m, (s.master m).Inv
  slots : ∀ i, (s.slot i).Inv
  bufWf : s.buf.wf = true
  bufBelow : s.buf.Below s.build.bufSize

theorem State.Inv.storage (h : s.Inv) : s.StorageInv := ⟨h.masters, h.slots, h.bufWf, h.bufBelow⟩

theorem State.StorageInv.inv (h : s.StorageInv) (hstatus : s.status.Inv) : s.Inv :=
  ⟨hstatus, h.masters, h.slots, h.bufWf, h.bufBelow⟩

section
variable (h : s.StorageInv)
include h

theorem State.StorageInv.setMaster {k : MasterKey} (hk : k.Inv) (m : Nat) : (s.setMaster m k).StorageInv := by
  refine ⟨fun j => ?_, h.slots, h.bufWf, h.bufBelow⟩
  rw [State.setMaster_master]
  split
  · exact hk
  · exact h.masters j

theorem State.StorageInv.setSlot (hsl : sl.Inv) (n : Nat) : (s.setSlot n sl).StorageInv := by
  refine ⟨h.masters, fun j => ?_, h.bufWf, h.bufBelow⟩
  rw [State.setSlot_slot]
  split
  · exact hsl
  · exact h.slots j

theorem State.StorageInv.writeDst {v : List Byte} (hv : s.InRange s.dstOff.toNat v.length) :
    (s.writeDst v).StorageInv :=
  ⟨h.masters, h.slots, Memory.wf_write _ _ h.bufWf, Memory.below_write h.bufBelow hv⟩

theorem State.StorageInv.killDst (n : Nat) : (s.killDst n).StorageInv :=
  ⟨h.masters, h.slots, Memory.wf_kill _ _ h.bufWf, Memory.below_kill _ _ h.bufBelow⟩

theorem State.StorageInv.setResultNat (n : Nat) : (s.setResultNat n).StorageInv :=
  ⟨h.masters, h.slots, h.bufWf, h.bufBelow⟩

/-- What ENCRYPT or DECRYPT leaves in an ACTIVE slot is in order. -/
theorem State.StorageInv.advanced_slot {n : Nat} {d : Direction} (hst : (s.slot n).st = .active) (hd : d ≠ .none) :
    ((s.slot n).bound d).nonceAdvance.Inv :=
  ((h.slots n).bound hst d).nonceAdvance hst hd

/-- Every effect keeps the invariant of everything but STATUS. -/
theorem State.StorageInv.effect (heffect : Effect i s u e) : u.StorageInv := by
  cases heffect with
  | fatal | raised => exact h
  | drift | computed => exact ⟨h.masters, h.slots, h.bufWf, h.bufBelow⟩
  | shortInput _ n _ _ hst => exact h.setSlot ((h.slots n).failed hst) n
  | authFailed _ n _ _ hst => exact (h.killDst _).setSlot ((h.slots n).failed hst) n
  | named _ _ _ _ _ hdst => exact (h.writeDst hdst).setResultNat _
  | derived _ m _ _ _ _ _ alg _ hk => exact h.setMaster (MasterKey.derived_inv alg hk) m
  | cleared _ m => exact h.setMaster MasterKey.cleared_inv m
  | loaded _ n _ _ hst _ hk => exact h.setSlot ((h.slots n).load hst hk) n
  | created _ n _ mode _ _ _ _ _ _ hk => exact h.setSlot ((h.slots n).created hk mode) n
  | released _ n => exact h.setSlot Slot.cleared_inv n
  | encrypted _ n _ _ hst _ _ hdst p hp =>
    have hout : s.InRange s.dstOff.toNat ((s.slot n).sealed s.prims p).length := by
      rwa [length_sealed, length_src hp]
    exact ((h.writeDst hout).setResultNat _).setSlot (h.advanced_slot hst (by decide)) n
  | decrypted _ n _ _ hst _ _ _ hdst t r ht hr =>
    have hout : s.InRange s.dstOff.toNat r.length := by rwa [length_opened hr, length_src ht]
    exact ((h.writeDst hout).setResultNat _).setSlot (h.advanced_slot hst (by decide)) n

theorem State.StorageInv.ended (e : ErrCode) : (s.ended e).StorageInv := ⟨h.masters, h.slots, h.bufWf, h.bufBelow⟩

end

theorem State.Inv.complete (h : s.Inv) (ht : s.complete = .next t) : t.Inv := by
  rcases complete_cases s with hn | ⟨i, u, e, -, hn, heffect⟩ | ⟨hn, hf⟩ | ⟨hn, -⟩ <;> cases hn.symm.trans ht
  · exact ((h.storage.effect heffect).ended e).inv heffect.status_inv
  · exact (h.storage.ended _).inv (Status.ended_inv (by decide) (by simp [hf]))
  · exact (h.storage.ended _).inv (Status.ended_inv (by decide) (by simp))

theorem State.Inv.hostAccess {a : Access} (h : s.Inv) (ht : hostAccess a s = .next t) : t.Inv := by
  rcases hostAccess_cases a s with
    ⟨f, hn, -⟩ | ⟨-, v, hn⟩ | ⟨-, v, r, -, -, -, -, -, hn⟩ | ⟨-, v, -, hlo, -, hhi, hn⟩ <;> cases hn.symm.trans ht
  · exact ⟨h.status, h.masters, h.slots, h.bufWf, h.bufBelow⟩
  · cases r <;> exact ⟨h.status, h.masters, h.slots, h.bufWf, h.bufBelow⟩
  · refine ⟨h.status, h.masters, h.slots, Memory.wf_write _ _ h.bufWf, Memory.below_write h.bufBelow ?_⟩
    rw [length_leBytes]
    show a.offset - 0x1000 + a.width ≤ s.build.bufSize
    omega

theorem powerOn_inv (b : Build) : (State.powerOn b).Inv where
  status := Status.ended_inv (st := Status.cleared) (e := .ok) (by decide) nofun
  masters m := by rw [powerOn_master]; exact MasterKey.cleared_inv
  slots n := by rw [powerOn_slot]; exact Slot.cleared_inv
  bufWf := rfl
  bufBelow := nofun

theorem State.applyReset_inv (s : State) : s.applyReset.Inv :=
  have h := powerOn_inv s.build
  ⟨h.status, h.masters, h.slots, h.bufWf, h.bufBelow⟩

/-- Settles O58: every field of the block is cleared. -/
theorem invariantAtPowerOn : Obligations.InvariantAtPowerOn := ⟨powerOn_inv, powerOn_inv _⟩

/-- Settles O59: one case for each thing a step can do; of them `State.StorageInv.effect` is the commands'. -/
theorem everyStepKeepsInvariant : Obligations.EveryStepKeepsInvariant := by
  intro s t h hstep
  obtain ⟨-, es, -, hidle | ⟨-, hc⟩ | ⟨a, -, ha⟩ | ⟨-, rfl⟩⟩ := step_cases hstep
  all_goals have hes : State.Inv { s with script := es } := ⟨h.status, h.masters, h.slots, h.bufWf, h.bufBelow⟩
  · rwa [hidle]
  · exact hes.complete hc
  · exact hes.hostAccess ha
  · exact State.applyReset_inv _

end Sys2Proof.Machine
end

section
/-! PROOF. The checks that commands share (60_exceptions.md R305), one elimination rule for each, and the settled
statements that walk through a command's checks: completion (60_exceptions.md R300), and SUBKEY as a function of its
inputs (41_key_derivation.md R201). -/

namespace Sys2Proof.Machine

variable {s t : State}

/-! ## One rule per check

`Q` holds of what a check gives if it holds of every `raise` and of what comes after the check. -/

section
variable {Q : Result → Prop} (hraise : ∀ e, e ≠ .ok → Q (s.raise e)) {k : Result}
include hraise

theorem unlessFatal_elim (hk : Q k) : Q (s.unlessFatal k) := by
  unfold State.unlessFatal
  split
  · exact hraise _ (by decide)
  · exact hk

theorem withSlot_elim {n : Nat} (hk : Q k) : Q (s.withSlot n k) := by
  unfold State.withSlot
  split
  · exact hk
  · exact hraise _ (by decide)

theorem withMk_elim {m : Nat} (hk : Q k) : Q (s.withMk m k) := by
  unfold State.withMk
  split
  · exact hk
  · exact hraise _ (by decide)

theorem withCipher_elim {code : Nat} {body : Cipher → Result}
    (hk : ∀ c, cipherOfCode code = some c → Q (body c)) : Q (s.withCipher code body) := by
  unfold State.withCipher
  split
  · exact hraise _ (by decide)
  · exact hk _ ‹_›

theorem checkRange_elim {off len : Nat} (hk : s.InRange off len → Q k) : Q (s.checkRange off len k) := by
  unfold State.checkRange
  split
  · exact hk ‹_›
  · exact hraise _ (by decide)

theorem checkCrypter_elim {sl : Slot} {d : Direction} (hk : Q k) : Q (s.checkCrypter sl d k) := by
  unfold State.checkCrypter
  split
  iterate 4 exact hraise _ (by decide)
  split
  · exact hraise _ (by decide)
  · exact hk

/-- A check of the command's own: one condition, one error. -/
theorem raise_or_elim {p : Prop} [Decidable p] {e : ErrCode} (he : e ≠ .ok) (hk : Q k) :
    Q (if p then s.raise e else k) := by
  split
  · exact hraise e he
  · exact hk

end

theorem withInput_elim {Q : Result → Prop} {input : Option (List Byte)} {body : List Byte → Result}
    (hnone : input = none → Q (.fault .uninitInput)) (hk : ∀ p, input = some p → Q (body p)) :
    Q (withInput input body) := by
  cases input with
  | none => exact hnone rfl
  | some p => exact hk p rfl

/-! ## Completion (60_exceptions.md R300 (b), 20_memory.md R88) -/

/-- Every buffer byte holds a value. -/
abbrev State.Filled (s : State) : Prop := ∀ a < s.build.bufSize, (Memory.get a s.buf).isSome = true

/-- An operand in range of a filled buffer is a byte string. -/
theorem State.Filled.read_ne_none (h : s.Filled) {off len : Nat} (hr : s.InRange off len) :
    s.buf.read off len ≠ none :=
  Option.isSome_iff_ne_none.1 (Memory.read_isSome fun i hi => h _ (by omega))

/-- The result is not the fault of an input byte that holds no value. -/
def NoInputFault (r : Result) : Prop := r ≠ .fault .uninitInput

theorem noInputFault_next (t : State) : NoInputFault (.next t) := nofun

section
variable (h : s.Filled)
include h

/-- An operand in range is read before anything else is done with it. -/
theorem State.Filled.withInput {off len : Nat} (hr : s.InRange off len) {body : List Byte → Result}
    (hk : ∀ p, NoInputFault (body p)) : NoInputFault (withInput (s.buf.read off len) body) :=
  withInput_elim (fun hnone => absurd hnone (h.read_ne_none hr)) fun p _ => hk p

/-- No command meets a byte without a value in a filled buffer: its inputs are in range before they are read. -/
theorem State.Filled.exec (i : Instr) : NoInputFault (exec i s) := by
  have hraise : ∀ e, e ≠ .ok → NoInputFault (s.raise e) := fun _ _ => noInputFault_next _
  cases i with
  | parse =>
    refine unlessFatal_elim hraise <| checkRange_elim hraise fun hsrc => h.withInput hsrc fun nm => ?_
    split <;> exact noInputFault_next _
  | nameOf code =>
    exact unlessFatal_elim hraise <| withCipher_elim hraise fun c _ => checkRange_elim hraise fun _ =>
      noInputFault_next _
  | specOf code => exact unlessFatal_elim hraise <| withCipher_elim hraise fun c _ => noInputFault_next _
  | mkPbkdf2 m code =>
    exact unlessFatal_elim hraise <| withMk_elim hraise <| withCipher_elim hraise fun c _ =>
      raise_or_elim hraise (by decide) <| checkRange_elim hraise fun hsrc => checkRange_elim hraise fun haux =>
        h.withInput hsrc fun _ => h.withInput haux fun _ => noInputFault_next _
  | mkLegacy m code =>
    refine unlessFatal_elim hraise <| withMk_elim hraise <| withCipher_elim hraise fun c _ =>
      raise_or_elim hraise (by decide) <| checkRange_elim hraise fun hsrc => h.withInput hsrc fun _ => ?_
    split <;> exact noInputFault_next _
  | mkClear m => exact unlessFatal_elim hraise <| withMk_elim hraise <| noInputFault_next _
  | subkey n m code d =>
    exact unlessFatal_elim hraise <| withSlot_elim hraise <| withMk_elim hraise <| withCipher_elim hraise fun c _ =>
      raise_or_elim hraise (by decide) <| raise_or_elim hraise (by decide) <| raise_or_elim hraise (by decide) <|
        checkRange_elim hraise fun hsrc => raise_or_elim hraise (by decide) <|
          h.withInput hsrc fun _ => noInputFault_next _
  | loadKey n =>
    exact unlessFatal_elim hraise <| withSlot_elim hraise <| raise_or_elim hraise (by decide) <|
      raise_or_elim hraise (by decide) <| checkRange_elim hraise fun hsrc =>
        h.withInput hsrc fun _ => noInputFault_next _
  | create n code mode =>
    refine unlessFatal_elim hraise <| withSlot_elim hraise <| withCipher_elim hraise fun c _ =>
      raise_or_elim hraise (by decide) ?_
    split
    · exact noInputFault_next _
    · exact raise_or_elim hraise (by decide) (noInputFault_next _)
  | release n => exact unlessFatal_elim hraise <| withSlot_elim hraise <| noInputFault_next _
  | encrypt n =>
    exact unlessFatal_elim hraise <| withSlot_elim hraise <| checkCrypter_elim hraise <|
      checkRange_elim hraise fun hsrc => checkRange_elim hraise fun _ => h.withInput hsrc fun _ => noInputFault_next _
  | decrypt n =>
    refine unlessFatal_elim hraise <| withSlot_elim hraise <| checkCrypter_elim hraise ?_
    split
    · exact noInputFault_next _
    refine checkRange_elim hraise fun hsrc => checkRange_elim hraise fun _ => h.withInput hsrc fun t => ?_
    split <;> exact noInputFault_next _
  | expectedLen n =>
    exact unlessFatal_elim hraise <| withSlot_elim hraise <| raise_or_elim hraise (by decide) <|
      raise_or_elim hraise (by decide) <| noInputFault_next _

theorem State.Filled.complete : NoInputFault s.complete := by
  cases hd : decode s.cmd with
  | ok i =>
    rw [complete_of_decode hd]
    exact h.exec i
  | error e =>
    rw [complete_of_decode_error hd]
    exact unlessFatal_elim (fun _ _ => noInputFault_next _) (noInputFault_next _)

end

/-- The completion step gives a next state with BUSY = 0, or the fault UNINIT_INPUT. -/
theorem complete_next_or_uninitInput (s : State) :
    (∃ t, s.complete = .next t ∧ t.status.busy = false) ∨ s.complete = .fault .uninitInput := by
  rcases complete_cases s with h | ⟨i, u, e, -, h, -⟩ | ⟨h, -⟩ | ⟨h, -⟩
  · exact .inr h
  all_goals exact .inl ⟨_, h, rfl⟩

/-- Settles O9: the end of every command clears BUSY; in a filled buffer the fault cannot be. -/
theorem everyCommandCompletes : Obligations.EveryCommandCompletes :=
  ⟨complete_next_or_uninitInput, fun s hfilled =>
    (complete_next_or_uninitInput s).resolve_right (State.Filled.complete hfilled)⟩

/-! ## SUBKEY as a function (41_key_derivation.md R200, R201) -/

/-- If the result is the next state `t`, then `P`. -/
def Gives (t : State) (P : Prop) (r : Result) : Prop := r = .next t → P

/-- What follows from OK needs no proof where an error is raised. -/
theorem gives_raise (hok : t.status.errcode = .ok) {P : Prop} (e : ErrCode) (he : e ≠ .ok) :
    Gives t P (s.raise e) := by
  rintro ⟨⟩
  exact absurd hok he

/-- A SUBKEY that ends with OK has passed all its checks and loaded the derived key. -/
theorem subkey_ok {n m code : Nat} {d : Digest} (hn : n < 16) (hok : t.status.errcode = .ok) :
    Gives t (∃ c salt, cipherOfCode code = some c ∧ s.src = some salt ∧ t.slot n = (s.slot n).load
      (deriveSubkey s.prims d salt ((s.master m).key.toList.take (keySize c)) (keySize c)) (keySize c))
      (exec (.subkey n m code d) s) := by
  refine unlessFatal_elim (gives_raise hok) <| withSlot_elim (gives_raise hok) <| withMk_elim (gives_raise hok) <|
    withCipher_elim (gives_raise hok) fun c hc => raise_or_elim (gives_raise hok) (by decide) <|
      raise_or_elim (gives_raise hok) (by decide) <| raise_or_elim (gives_raise hok) (by decide) <|
        checkRange_elim (gives_raise hok) fun _ => raise_or_elim (gives_raise hok) (by decide) <|
          withInput_elim (fun _ => nofun) fun salt hsalt => ?_
  rintro ⟨⟩
  exact ⟨c, salt, hc, hsalt, by simp [State.setSlot_slot, hn]⟩

/-- Settles O30: the key loaded is a function of the provider, DIGEST, the salt, the master key and the cipher. -/
theorem subkeyIsDeterministic : Obligations.SubkeyIsDeterministic := by
  intro s s' t t' n n' m m' code d hn hn' hprovider hkey hsrc h hok h' hok'
  obtain ⟨c, salt, hc, hsalt, hslot⟩ := subkey_ok hn hok h
  obtain ⟨c', salt', hc', hsalt', hslot'⟩ := subkey_ok hn' hok' h'
  obtain rfl : c = c' := Option.some.inj (hc.symm.trans hc')
  obtain rfl : salt = salt' := Option.some.inj (by rw [← hsalt, ← hsalt', hsrc])
  have hprims : s.prims = s'.prims := congrArg primitivesOf hprovider
  rw [hslot, hslot', hprims, hkey]
  exact ⟨rfl, rfl⟩

end Sys2Proof.Machine
end

section
/-! PROOF. Steps (60_exceptions.md R300, R308, 70_reset_and_hazards.md R366): what the next step is, by the fault mark
and the script, and the settled statements. -/

namespace Sys2Proof.Machine

variable {s : State} {e : Event} {es : List Event} {f : Fault} {i : Instr}

/-! ## The next step -/

theorem step_of_faultMark (h : s.faultMark = some f) : step s = .fault f := by
  rw [step, h]

theorem step_of_event (hm : s.faultMark = none) (hs : s.script = e :: es) :
    step s = State.onEvent { s with script := es } e := by
  rw [step, hm]
  simp only [State.nextEvent]
  rw [hs, ← hm]

theorem step_of_no_event (hm : s.faultMark = none) (hs : s.script = []) : step s = s.blockTurn := by
  rw [step, hm]
  simp only [State.nextEvent]
  rw [hs]

theorem blockTurn_of_idle (hb : s.status.busy = false) : s.blockTurn = .next s := if_neg (by simp [hb])

theorem blockTurn_of_busy (hb : s.status.busy = true) (hd : decode s.cmd = .ok i) : s.blockTurn = exec i s :=
  (if_pos hb).trans (complete_of_decode hd)

/-- Settles O7: the BLOCK's turn completes the pending word; the word that `withFetchWord` places is 32 bits. -/
theorem stepRunsDecodedCommand : Obligations.StepRunsDecodedCommand := by
  refine ⟨fun s es i hm hb hs hd => ?_, fun s i hm hb hs hd => ?_, fun s w i hm hw hd => ?_⟩
  · rw [step_of_event hm hs]
    exact blockTurn_of_busy hb hd
  · rw [step_of_no_event hm hs, blockTurn_of_busy hb hd]
  · have hw' : s.withFetchWord 32 w = s.placeCommand (BitVec.ofNat 32 w) := by
      rw [State.withFetchWord, Nat.mod_eq_of_lt hw]
    rw [hw', step_of_event (s := s.placeCommand _) hm rfl]
    exact blockTurn_of_busy rfl hd

/-- Settles O8: one equation per event; RESET rebuilds the state around the script and the answer it keeps. -/
theorem stepTakesNextEvent : Obligations.StepTakesNextEvent := by
  refine ⟨fun s e es => step_of_event, fun s hb => blockTurn_of_idle hb, fun s hm hb hs => ?_,
    fun s => ⟨s.applyReset, onEvent_reset s, rfl, rfl⟩⟩
  rw [step_of_no_event hm hs, blockTurn_of_idle hb]

/-! ## Model faults (60_exceptions.md R308, 00_scope.md R11) -/

theorem advance_of_fault (h : step s = .fault f) : s.advance = s.markFault f := by
  rw [State.advance, h]

/-- Recording the fault that is recorded changes nothing. -/
theorem advance_of_faultMark (h : s.faultMark = some f) : s.advance = s := by
  rw [advance_of_fault (step_of_faultMark h), State.markFault, ← h]

theorem advanceBy_of_faultMark (h : s.faultMark = some f) (k : Nat) : s.advanceBy k = s := by
  induction k with
  | zero => rfl
  | succ k ih => rw [State.advanceBy, advance_of_faultMark h, ih]

/-- Settles O57: by induction on the number of steps. -/
theorem modelFaultIsSticky : Obligations.ModelFaultIsSticky :=
  ⟨fun _ _ => advance_of_fault, fun _ _ k h => ⟨step_of_faultMark h, advanceBy_of_faultMark h k⟩⟩

end Sys2Proof.Machine
end

section
/-! PROOF. What a command does not read (43_crypter.md R283, 70_reset_and_hazards.md R367): a change of the banks alone
passes through every check, so a command's outcome depends on a bank only where its own effect does; and the settled
statements. -/

namespace Sys2Proof.Machine

/-! ## A change of the banks alone -/

/-- The state with its banks changed by `M` and `S`. -/
def State.mapBanks (M : Vector MasterKey 16 → Vector MasterKey 16) (S : Vector Slot 16 → Vector Slot 16)
    (s : State) : State :=
  { s with mks := M s.mks, slots := S s.slots }

section
variable (M : Vector MasterKey 16 → Vector MasterKey 16) (S : Vector Slot 16 → Vector Slot 16) (s : State)

@[simp] theorem State.mapBanks_build : (s.mapBanks M S).build = s.build := rfl
@[simp] theorem State.mapBanks_srcLen : (s.mapBanks M S).srcLen = s.srcLen := rfl
@[simp] theorem State.mapBanks_src : (s.mapBanks M S).src = s.src := rfl
@[simp] theorem State.mapBanks_aux : (s.mapBanks M S).aux = s.aux := rfl
@[simp] theorem State.mapBanks_prims : (s.mapBanks M S).prims = s.prims := rfl

@[simp] theorem State.setResultNat_mapBanks (n : Nat) :
    (s.setResultNat n).mapBanks M S = (s.mapBanks M S).setResultNat n := rfl
@[simp] theorem State.setResult_mapBanks (w : Word) :
    (s.setResult w).mapBanks M S = (s.mapBanks M S).setResult w := rfl
@[simp] theorem State.writeDst_mapBanks (v : List Byte) :
    (s.writeDst v).mapBanks M S = (s.mapBanks M S).writeDst v := rfl
@[simp] theorem State.killDst_mapBanks (n : Nat) : (s.killDst n).mapBanks M S = (s.mapBanks M S).killDst n := rfl

/-- A change of the banks after the end of a command is one before it. -/
@[simp] theorem mapNext_raise (e : ErrCode) : mapNext (State.mapBanks M S) (s.raise e) = (s.mapBanks M S).raise e := rfl
@[simp] theorem mapNext_done : mapNext (State.mapBanks M S) s.done = (s.mapBanks M S).done := rfl
@[simp] theorem mapNext_raiseInvariant :
    mapNext (State.mapBanks M S) s.raiseInvariant = (s.mapBanks M S).raiseInvariant := rfl

/-! A change of the banks after a check is one before it. -/

@[simp] theorem mapNext_ite (f : State → State) (p : Prop) [Decidable p] (k k' : Result) :
    mapNext f (if p then k else k') = if p then mapNext f k else mapNext f k' := apply_ite _ _ _ _

@[simp] theorem mapNext_withInput (f : State → State) (input : Option (List Byte)) (body : List Byte → Result) :
    mapNext f (withInput input body) = withInput input fun p => mapNext f (body p) := by
  cases input <;> rfl

@[simp] theorem mapNext_unlessFatal (k : Result) : mapNext (State.mapBanks M S) (s.unlessFatal k) =
    (s.mapBanks M S).unlessFatal (mapNext (State.mapBanks M S) k) := mapNext_ite _ _ _ _

@[simp] theorem mapNext_withSlot (n : Nat) (k : Result) : mapNext (State.mapBanks M S) (s.withSlot n k) =
    (s.mapBanks M S).withSlot n (mapNext (State.mapBanks M S) k) := mapNext_ite _ _ _ _

@[simp] theorem mapNext_withMk (m : Nat) (k : Result) : mapNext (State.mapBanks M S) (s.withMk m k) =
    (s.mapBanks M S).withMk m (mapNext (State.mapBanks M S) k) := mapNext_ite _ _ _ _

@[simp] theorem mapNext_withCipher (code : Nat) (body : Cipher → Result) :
    mapNext (State.mapBanks M S) (s.withCipher code body) =
      (s.mapBanks M S).withCipher code fun c => mapNext (State.mapBanks M S) (body c) := by
  unfold State.withCipher
  split <;> rfl

@[simp] theorem mapNext_checkSrc (k : Result) : mapNext (State.mapBanks M S) (s.checkSrc k) =
    (s.mapBanks M S).checkSrc (mapNext (State.mapBanks M S) k) := mapNext_ite _ _ _ _

@[simp] theorem mapNext_checkAux (k : Result) : mapNext (State.mapBanks M S) (s.checkAux k) =
    (s.mapBanks M S).checkAux (mapNext (State.mapBanks M S) k) := mapNext_ite _ _ _ _

@[simp] theorem mapNext_checkDst (len : Nat) (k : Result) : mapNext (State.mapBanks M S) (s.checkDst len k) =
    (s.mapBanks M S).checkDst len (mapNext (State.mapBanks M S) k) := mapNext_ite _ _ _ _

@[simp] theorem mapNext_checkCrypter (sl : Slot) (d : Direction) (k : Result) :
    mapNext (State.mapBanks M S) (s.checkCrypter sl d k) =
      (s.mapBanks M S).checkCrypter sl d (mapNext (State.mapBanks M S) k) := by
  unfold State.checkCrypter
  cases sl.st with
  | active => exact mapNext_ite _ _ _ _
  | _ => rfl

theorem mapNext_execParse :
    mapNext (State.mapBanks M S) (execParse s) = execParse (s.mapBanks M S) := by
  simp only [execParse, mapNext_unlessFatal, mapNext_checkSrc, mapNext_withInput, State.mapBanks_src]
  refine congrArg (State.unlessFatal _ <| State.checkSrc _ <| withInput s.src ·) (funext fun nm => ?_)
  cases parseName nm <;> rfl

theorem mapNext_execNameOf (code : Nat) :
    mapNext (State.mapBanks M S) (execNameOf code s) = execNameOf code (s.mapBanks M S) := by
  simp [execNameOf]

theorem mapNext_execSpecOf (code : Nat) :
    mapNext (State.mapBanks M S) (execSpecOf code s) = execSpecOf code (s.mapBanks M S) := by
  simp [execSpecOf]

end

/-! ## Another slot's contents (43_crypter.md R283) -/

section
variable {S : Vector Slot 16 → Vector Slot 16} {n : Nat} {s : State}

@[simp] theorem State.mapBanks_id_master (S : Vector Slot 16 → Vector Slot 16) (s : State) (m : Nat) :
    (s.mapBanks id S).master m = s.master m := rfl

@[simp] theorem State.setMaster_mapBanks_id (S : Vector Slot 16 → Vector Slot 16) (s : State) (m : Nat)
    (k : MasterKey) : (s.setMaster m k).mapBanks id S = (s.mapBanks id S).setMaster m k := rfl

/-- A change of slots that a command neither reads (`hread`) nor writes (`hwrite`) passes through it. -/
theorem mapNext_exec_slots (i : Instr) (hread : ∀ n, slotOf i = some n → (s.mapBanks id S).slot n = s.slot n)
    (hwrite : ∀ n, slotOf i = some n → ∀ t sl, (State.setSlot t n sl).mapBanks id S = (t.mapBanks id S).setSlot n sl) :
    mapNext (State.mapBanks id S) (exec i s) = exec i (s.mapBanks id S) := by
  cases i with
  | parse => exact mapNext_execParse id S s
  | nameOf code => exact mapNext_execNameOf id S s code
  | specOf code => exact mapNext_execSpecOf id S s code
  | mkPbkdf2 m code =>
    simp [exec, execMkPbkdf2]
    rfl
  | mkLegacy m code => simp [exec, execMkLegacy]
  | mkClear m => simp [exec, execMkClear]
  | subkey n m code d => simp [exec, execSubkey, hread n rfl, hwrite n rfl]
  | loadKey n => simp [exec, execLoadKey, hread n rfl, hwrite n rfl]
  | create n code mode => simp [exec, execCreate, hread n rfl, hwrite n rfl]
  | release n => simp [exec, execRelease, hwrite n rfl]
  | encrypt n => simp [exec, execEncrypt, hread n rfl, hwrite n rfl]
  | decrypt n =>
    simp only [exec, execDecrypt, State.authFail, mapNext_unlessFatal, mapNext_withSlot, mapNext_checkCrypter,
      mapNext_ite, mapNext_raise, mapNext_checkSrc, mapNext_checkDst, mapNext_withInput, hread n rfl, hwrite n rfl,
      State.mapBanks_srcLen, State.mapBanks_src, State.mapBanks_prims]
    refine congrArg (State.unlessFatal _ <| State.withSlot _ n <| State.checkCrypter _ _ _ <| ite _ _ <|
      State.checkSrc _ <| State.checkDst _ _ <| withInput s.src ·) (funext fun t => ?_)
    cases (s.slot n).opened s.prims t <;> simp [hwrite n rfl]
  | expectedLen n => simp [exec, execExpectedLen, hread n rfl]

end

theorem State.setSlot_comm (s : State) {n j : Nat} (h : n ≠ j) (x y : Slot) :
    (s.setSlot n x).setSlot j y = (s.setSlot j y).setSlot n x := by
  simp only [State.setSlot, ← Vector.toArray_inj, State.mk.injEq, true_and, and_true]
  exact Array.setIfInBounds_comm _ _ h

/-- Settles O18: the other slot is not read (`State.setSlot_slot_ne`) and not written (`State.setSlot_comm`), so its
contents pass through (`mapNext_exec_slots`). -/
theorem slotsAreIndependent : Obligations.SlotsAreIndependent := by
  intro i s j sl hj
  have hne : ∀ n, slotOf i = some n → n ≠ j := by
    rintro n hn rfl
    exact hj hn
  exact (mapNext_exec_slots (S := fun slots => slots.setIfInBounds j sl) i
    (fun n hn => State.setSlot_slot_ne s (hne n hn).symm sl) (fun n hn t x => t.setSlot_comm (hne n hn) x sl)).symm

end Sys2Proof.Machine
end

section
/-! PROOF. What is never observable (70_reset_and_hazards.md R367): with the keys and BACKEND blotted out before a step
or only after it, the outcome shows the same, unless the step completes an ENCRYPT or a DECRYPT; and the settled
statement. -/

namespace Sys2Proof.Machine

variable (s : State)

/-! ## Registers and slots without their keys -/

@[simp] theorem MasterKey.masked_masked (k : MasterKey) : k.masked.masked = k.masked := rfl
@[simp] theorem MasterKey.masked_cleared : MasterKey.cleared.masked = MasterKey.cleared := rfl
@[simp] theorem MasterKey.masked_valid (k : MasterKey) : k.masked.valid = k.valid := rfl
@[simp] theorem MasterKey.masked_len (k : MasterKey) : k.masked.len = k.len := rfl

@[simp] theorem Slot.masked_masked (sl : Slot) : sl.masked.masked = sl.masked := rfl
@[simp] theorem Slot.masked_cleared : Slot.cleared.masked = Slot.cleared := rfl
@[simp] theorem Slot.masked_st (sl : Slot) : sl.masked.st = sl.st := rfl
@[simp] theorem Slot.masked_keyLen (sl : Slot) : sl.masked.keyLen = sl.keyLen := rfl

/-- What a derived register shows does not depend on the key. -/
@[simp] theorem MasterKey.masked_derived (alg : KeyAlg) (key : List Byte) (len : Nat) :
    (MasterKey.derived alg key len).masked = { MasterKey.cleared with valid := true, alg, len := BitVec.ofNat 6 len } :=
  rfl

/-- What a loaded slot shows does not depend on the key. -/
@[simp] theorem Slot.masked_load (sl : Slot) (key : List Byte) (len : Nat) :
    (sl.load key len).masked = { sl.masked with st := .keyed, keyLen := BitVec.ofNat 6 len } := rfl

/-- What a created slot shows does not depend on the backend. -/
@[simp] theorem Slot.masked_created (sl : Slot) (c : Cipher) (n : NonceMode) :
    (sl.created c n).masked = { sl.masked.created c n with backend := .gcm } := rfl

/-! ## The banks without their keys -/

@[simp] theorem State.masked_master (m : Nat) : s.masked.master m = (s.master m).masked := by
  simp only [State.master, State.masked, Vector.getElem?_map]
  cases s.mks[m]? <;> rfl

@[simp] theorem State.masked_slot (n : Nat) : s.masked.slot n = (s.slot n).masked := by
  simp only [State.slot, State.masked, Vector.getElem?_map]
  cases s.slots[n]? <;> rfl

theorem State.masked_setMaster (m : Nat) (k : MasterKey) :
    (s.setMaster m k).masked = s.masked.setMaster m k.masked := by
  simp [State.masked, State.setMaster]

theorem State.masked_setSlot (n : Nat) (sl : Slot) : (s.setSlot n sl).masked = s.masked.setSlot n sl.masked := by
  simp [State.masked, State.setSlot]

theorem State.masked_masked : s.masked.masked = s.masked := by
  simp [State.masked, Function.comp_def]

theorem State.masked_eq_mapBanks :
    State.masked = State.mapBanks (Vector.map MasterKey.masked) (Vector.map Slot.masked) := rfl

/-! ## Commands -/

/-- A command without a transform shows the same whether the keys are blotted out before it or not. -/
theorem maskedResult_exec {i : Instr} (hi : usesTransform i = false) :
    maskedResult (exec i s.masked) = maskedResult (exec i s) := by
  have hmaster := State.masked_master
  have hslot := State.masked_slot
  have hsetMaster := State.masked_setMaster
  have hsetSlot := State.masked_setSlot
  have hmasked := State.masked_masked
  unfold maskedResult
  rw [State.masked_eq_mapBanks] at *
  generalize Vector.map MasterKey.masked = M, Vector.map Slot.masked = S at *
  cases i with
  | parse => simp only [exec, mapNext_execParse, hmasked]
  | nameOf code => simp only [exec, mapNext_execNameOf, hmasked]
  | specOf code => simp only [exec, mapNext_execSpecOf, hmasked]
  | mkPbkdf2 m code => simp [exec, execMkPbkdf2, hmaster, hsetMaster, hmasked]
  | mkLegacy m code => simp [exec, execMkLegacy, hmaster, hsetMaster, hmasked]
  | mkClear m => simp [exec, execMkClear, hsetMaster, hmasked]
  | subkey n m code d => simp [exec, execSubkey, hmaster, hslot, hsetSlot, hmasked]
  | loadKey n => simp [exec, execLoadKey, hslot, hsetSlot, hmasked]
  | create n code mode => simp [exec, execCreate, hslot, hsetSlot, hmasked]
  | release n => simp [exec, execRelease, hsetSlot, hmasked]
  | encrypt n => cases hi
  | decrypt n => cases hi
  | expectedLen n => simp [exec, execExpectedLen, hslot, hmasked]

/-- The completion step, likewise; a rejected word writes STATUS alone. -/
theorem maskedResult_complete (h : ∀ i, decode s.cmd = .ok i → usesTransform i = false) :
    maskedResult s.masked.complete = maskedResult s.complete := by
  have hcmd : s.masked.cmd = s.cmd := rfl
  unfold State.complete
  rw [hcmd]
  split
  · rename_i i hi
    exact maskedResult_exec s (h i hi)
  · simp only [maskedResult, State.masked_eq_mapBanks, State.rejectWord, mapNext_unlessFatal, mapNext_raise]
    simp only [← State.masked_eq_mapBanks, State.masked_masked]

/-! ## Host accesses (20_memory.md R84-R86) -/

/-- No register shows a key or BACKEND. -/
theorem readReg_masked (r : Reg) : readReg s.masked r = readReg s r := by
  cases r with
  | slotStatus n =>
    rw [readReg, readReg, State.masked_slot]
    rfl
  | mkStatus m =>
    rw [readReg, readReg, State.masked_master]
    rfl
  | slotNonce n w =>
    rw [readReg, readReg, State.masked_slot]
    rfl
  | _ => rfl

theorem accessReg_masked (a : Access) (r : Reg) :
    accessReg a r s.masked = mapNext State.masked (accessReg a r s) := by
  unfold accessReg
  cases a.data with
  | none =>
    simp only [readReg_masked]
    rfl
  | some v => cases r <;> rfl

theorem accessBuffer_masked (a : Access) (pos : Nat) :
    accessBuffer a pos s.masked = mapNext State.masked (accessBuffer a pos s) := by
  have hbuf : s.masked.buf = s.buf := rfl
  unfold accessBuffer
  rw [hbuf]
  cases a.data with
  | none => cases s.buf.read pos a.width <;> rfl
  | some v => rfl

/-- The bus looks at STATUS and the build to route an access, and then at a register or at the buffer. -/
theorem hostAccess_masked (a : Access) : hostAccess a s.masked = mapNext State.masked (hostAccess a s) := by
  have hbuild : s.masked.build = s.build := rfl
  have hstatus : s.masked.status = s.status := rfl
  simp only [hostAccess, hbuild, hstatus, mapNext_ite, ← accessBuffer_masked]
  cases regAt s.build a.offset with
  | none => rfl
  | some r => simp only [accessReg_masked]; rfl

/-! ## Steps -/

/-- The BLOCK's turn comes next, and what it completes is no ENCRYPT or DECRYPT. -/
abbrev State.NoTransformNext (s : State) : Prop :=
  s.status.busy = true → s.script = [] ∨ s.script.head? = some .turn →
    ∀ i, decode s.cmd = .ok i → usesTransform i = false

theorem maskedResult_blockTurn (h : s.status.busy = true → ∀ i, decode s.cmd = .ok i → usesTransform i = false) :
    maskedResult s.masked.blockTurn = maskedResult s.blockTurn := by
  have hstatus : s.masked.status = s.status := rfl
  unfold State.blockTurn
  rw [hstatus]
  split
  · exact maskedResult_complete s (h ‹_›)
  · exact congrArg Host.Outcome.next s.masked_masked

/-- Blotting the keys out before a host access and again after it is blotting them out after it. -/
theorem maskedResult_hostAccess (a : Access) :
    maskedResult (hostAccess a s.masked) = maskedResult (hostAccess a s) := by
  rw [hostAccess_masked]
  cases hostAccess a s with
  | next t => exact congrArg Host.Outcome.next t.masked_masked
  | fault | refused => rfl

theorem maskedResult_step (h : s.NoTransformNext) : maskedResult (step s.masked) = maskedResult (step s) := by
  have hmark : s.masked.faultMark = s.faultMark := rfl
  have hscript : s.masked.script = s.script := rfl
  cases hm : s.faultMark with
  | some f => rw [step_of_faultMark hm, step_of_faultMark (hmark.trans hm)]
  | none =>
    cases hs : s.script with
    | nil =>
      rw [step_of_no_event hm hs, step_of_no_event (hmark.trans hm) (hscript.trans hs)]
      exact maskedResult_blockTurn s fun hb => h hb (.inl hs)
    | cons e es =>
      rw [step_of_event hm hs, step_of_event (hmark.trans hm) (hscript.trans hs)]
      cases e with
      | host a => exact maskedResult_hostAccess { s with script := es } a
      | turn => exact maskedResult_blockTurn { s with script := es } fun hb => h hb (.inr (by rw [hs]; rfl))
      | reset => rfl

/-- Settles O60: both states give what their common masked state gives. -/
theorem keysAreNeverObservable : Obligations.KeysAreNeverObservable := by
  intro s s' hmasked h
  have hstatus : s.status = s'.status := (congrArg State.status hmasked :)
  have hscript : s.script = s'.script := (congrArg State.script hmasked :)
  have hcmd : s.cmd = s'.cmd := (congrArg State.cmd hmasked :)
  have h' : s'.NoTransformNext := by rwa [State.NoTransformNext, ← hstatus, ← hscript, ← hcmd]
  rw [← maskedResult_step s h, hmasked, maskedResult_step s' h']

end Sys2Proof.Machine
end

section
/-! PROOF. Registers through the MMIO window (10_state.md R34-R38, 20_memory.md R84, R85, R92,
70_reset_and_hazards.md R350): what a write to a register does, where no register is, what a busy block answers, and the
settled statements. -/

namespace Sys2Proof.Machine

open BitVec (extractLsb'_append_eq_of_le extractLsb'_append_eq_left extractLsb'_append_eq_right getLsbD_append)

variable {s t : State} {a : Access} {off v : Word} {r : Reg}

/-! ## Writing a register (20_memory.md R85) -/

theorem accessReg_write {n : Nat} (hd : a.data = some n) :
    accessReg a r s = .next { writeReg s (BitVec.ofNat 32 n) r with answer := none } := by
  rw [accessReg, hd]
  rfl

/-- A 32-bit write of a register that is there does what the register takes. -/
theorem hostAccess_write (hb : s.status.busy = false) (h4 : off.toNat % 4 = 0) (hlt : off.toNat < 0x1000)
    (hr : regAt s.build off.toNat = some r) :
    hostAccess (.w32 off v) s = .next { writeReg s v r with answer := none } := by
  have h := hostAccess_reg (a := .w32 off v) (.inl hb) rfl h4 hlt hr
  rw [h, accessReg_write rfl, BitVec.ofNat_toNat, BitVec.setWidth_eq]

/-- Settles O48: each operand register stands at its offset and takes the word as it is. -/
theorem operandRegistersReadBack : Obligations.OperandRegistersReadBack := by
  refine fun s v hb => ⟨?_, ?_, ?_, ?_, ?_, ?_, ?_, ?_, ?_, ?_⟩
  · exact hostAccess_write (r := .srcOff) hb rfl (by decide) rfl
  · exact hostAccess_write (r := .srcLen) hb rfl (by decide) rfl
  · exact hostAccess_write (r := .dstOff) hb rfl (by decide) rfl
  · exact hostAccess_write (r := .auxOff) hb rfl (by decide) rfl
  · exact hostAccess_write (r := .auxLen) hb rfl (by decide) rfl
  · exact hostAccess_read (r := .srcOff) (.inl hb) rfl (by decide) rfl
  · exact hostAccess_read (r := .srcLen) (.inl hb) rfl (by decide) rfl
  · exact hostAccess_read (r := .dstOff) (.inl hb) rfl (by decide) rfl
  · exact hostAccess_read (r := .auxOff) (.inl hb) rfl (by decide) rfl
  · exact hostAccess_read (r := .auxLen) (.inl hb) rfl (by decide) rfl

/-- Settles O49: `writeReg` leaves the state for each of these registers. -/
theorem readOnlyWritesIgnored : Obligations.ReadOnlyWritesIgnored := by
  intro s off v hb hoff
  obtain rfl | rfl | rfl | rfl | ⟨n, hn, hn16, ho⟩ | ⟨m, hm, hm16, ho⟩ | ⟨n, w, hn, hn16, hw, ho⟩ := hoff
  · exact hostAccess_write (r := .id) hb rfl (by decide) rfl
  · exact hostAccess_write (r := .status) hb rfl (by decide) rfl
  · exact hostAccess_write (r := .result) hb rfl (by decide) rfl
  · exact hostAccess_write (r := .bufsz) hb rfl (by decide) rfl
  · exact hostAccess_write hb (by omega) (by omega) (regAt_slotStatus s.build hn hn16 ho)
  · exact hostAccess_write hb (by omega) (by omega) (regAt_mkStatus s.build hm hm16 ho)
  · exact hostAccess_write hb (by omega) (by omega) (regAt_slotNonce s.build hn hn16 hw ho)

/-! ## A busy block (70_reset_and_hazards.md R350) -/

/-- The three accesses that a busy block answers. -/
theorem allowedWhileBusy_eq_false (hstatus : a ≠ .r32 0x008) (hid : a ≠ .r32 0x000) (hbufsz : a ≠ .r32 0x024) :
    a.allowedWhileBusy = false := by
  cases a with
  | r32 off =>
    have hne : ∀ x : Word, Access.r32 off ≠ .r32 x → off.toNat ≠ x.toNat :=
      fun x hx ho => hx (congrArg Access.r32 (BitVec.eq_of_toNat_eq ho))
    exact decide_eq_false (not_or.2 ⟨hne _ hstatus, not_or.2 ⟨hne _ hid, hne _ hbufsz⟩⟩)
  | _ => rfl

/-- Settles O44: the three registers are read as in an idle block; every other access is refused first. -/
theorem busyHazard : Obligations.BusyHazard := by
  refine fun s hb => ⟨?_, ?_, ?_, fun a hstatus hid hbufsz => ?_⟩
  · exact hostAccess_read (r := .status) (.inr rfl) rfl (by decide) rfl
  · exact hostAccess_read (r := .id) (.inr rfl) rfl (by decide) rfl
  · exact hostAccess_read (r := .bufsz) (.inr rfl) rfl (by decide) rfl
  · exact hostAccess_busy hb (allowedWhileBusy_eq_false hstatus hid hbufsz)

/-! ## STATUS (10_state.md R37) -/

theorem statusWord_fields (st : Status) :
    (statusWord st).getLsbD 0 = st.busy ∧ (statusWord st).getLsbD 1 = st.err ∧
    (statusWord st).getLsbD 2 = st.fatal ∧ (statusWord st).extractLsb' 3 5 = 0 ∧
    (statusWord st).extractLsb' 8 8 = errCodeValue st.errcode ∧ (statusWord st).extractLsb' 16 16 = 0 := by
  unfold statusWord
  refine ⟨?_, ?_, ?_, ?_, ?_, ?_⟩
  · rw [getLsbD_append, if_pos (by decide)]
    simp
  · rw [getLsbD_append, if_neg (by decide), getLsbD_append, if_pos (by decide)]
    simp
  · iterate 2 rw [getLsbD_append, if_neg (by decide)]
    rw [getLsbD_append, if_pos (by decide)]
    simp
  · iterate 3 rw [extractLsb'_append_eq_of_le (by decide)]
    rw [extractLsb'_append_eq_right]
    rfl
  · iterate 4 rw [extractLsb'_append_eq_of_le (by decide)]
    rw [extractLsb'_append_eq_right]
  · iterate 4 rw [extractLsb'_append_eq_of_le (by decide)]
    rw [extractLsb'_append_eq_left]
    rfl

/-- Settles O50: STATUS answers a busy block too; its fields stand where its concatenation puts them. -/
theorem statusLayout : Obligations.StatusLayout := by
  refine ⟨fun s => ?_, fun s hb => ?_, statusWord_fields, rfl⟩
  · exact hostAccess_read (r := .status) (.inr rfl) rfl (by decide) rfl
  · exact hostAccess_read (r := .result) (.inl hb) rfl (by decide) rfl

/-! ## Faults (20_memory.md R84, R85) -/

/-- The aligned offsets of the register region where no register is (20_memory.md R85). -/
abbrev RegisterHole (b : Build) (off : Nat) : Prop :=
  (0x028 ≤ off ∧ off < 0x040) ∨ (0x040 ≤ off ∧ off < 0x080 ∧ b.numSlots ≤ (off - 0x040) / 4) ∨
    (0x080 ≤ off ∧ off < 0x0C0 ∧ b.numMk ≤ (off - 0x080) / 4) ∨ (0x0C0 ≤ off ∧ off < 0x100) ∨
    (0x100 ≤ off ∧ off < 0x300 ∧ b.numSlots ≤ (off - 0x100) / 0x20) ∨ 0x300 ≤ off

theorem regAt_eq_none_iff (b : Build) {off : Nat} (h4 : off % 4 = 0) : regAt b off = none ↔ RegisterHole b off := by
  simp only [regAt, ite_eq_iff, reduceCtorEq, and_false, and_true, false_or]
  omega

section
variable (hb : s.status.busy = false)
include hb

/-- An access to the register region, the block being idle. -/
theorem hostAccess_registerRegion (hlt : a.offset < 0x1000) : hostAccess a s =
    if a.width ≠ 4 ∨ a.offset % 4 ≠ 0 then .fault .busWidth
    else (regAt s.build a.offset).elim (.fault .busUnmapped) fun r => accessReg a r s := by
  have hlt' : a.offset < bufferBase := hlt
  rw [hostAccess, if_neg (by simp [hb]), if_pos hlt']
  cases regAt s.build a.offset <;> rfl

/-- An access from 0x1000 on, the block being idle. -/
theorem hostAccess_bufferRegion (hge : 0x1000 ≤ a.offset) : hostAccess a s =
    if s.build.bufSize ≤ a.offset - 0x1000 then .fault .busUnmapped
    else if a.offset % a.width ≠ 0 then .fault .busAlign
    else if s.build.bufSize < a.offset - 0x1000 + a.width then .fault .busUnmapped
    else accessBuffer a (a.offset - 0x1000) s := by
  have hge' : ¬ a.offset < bufferBase := Nat.not_lt.2 hge
  rw [hostAccess, if_neg (by simp [hb]), if_neg hge']
  rfl

end

theorem accessReg_next (a : Access) (r : Reg) (s : State) : ∃ t, accessReg a r s = .next t := by
  unfold accessReg
  split <;> exact ⟨_, rfl⟩

/-- Settles O45: one region, then the other; the holes are where `regAt` has no register. -/
theorem accessFaults : Obligations.AccessFaults := by
  refine fun s a hb => ⟨fun hlt hwidth => ?_, fun hlt hw h4 => ?_, fun hge => ?_, fun hge hlt halign => ?_⟩
  · rw [hostAccess_registerRegion hb hlt, if_pos hwidth]
  · have hreg : ¬ (a.width ≠ 4 ∨ a.offset % 4 ≠ 0) := by simp [hw, h4]
    split
    · rename_i hhole
      rw [hostAccess_registerRegion hb hlt, if_neg hreg, (regAt_eq_none_iff s.build h4).2 hhole, Option.elim_none]
    · rename_i hhole
      obtain ⟨r, hr⟩ := Option.ne_none_iff_exists'.1 (mt (regAt_eq_none_iff s.build h4).1 hhole)
      rw [hostAccess_registerRegion hb hlt, if_neg hreg, hr]
      exact accessReg_next a r s
  · rw [hostAccess_bufferRegion hb (by omega), if_pos (by omega)]
  · rw [hostAccess_bufferRegion hb hge, if_neg (by omega), if_pos halign]

/-! ## Side effects (20_memory.md R92, 60_exceptions.md R300 (a)) -/

theorem hostAccess_of_read (hd : a.data = none) (h : hostAccess a s = .next t) :
    ∃ v, t = { s with answer := some v } := by
  rcases hostAccess_cases a s with
    ⟨f, hn, -⟩ | ⟨-, v, hn⟩ | ⟨-, v, r, hv, -, -, -, -, hn⟩ | ⟨-, v, hv, -, -, -, hn⟩
  · cases hn.symm.trans h
  · exact ⟨v, Host.Outcome.next.inj (h.symm.trans hn)⟩
  · cases hd.symm.trans hv
  · cases hd.symm.trans hv

/-- A register other than CMD: a write leaves STATUS and CMD, and the same write again changes nothing more. -/
theorem writeReg_not_cmd (hr : r ≠ .cmd) (s : State) (v : Word) :
    (writeReg s v r).status = s.status ∧ (writeReg s v r).cmd = s.cmd ∧
      { writeReg { writeReg s v r with answer := none } v r with answer := none } =
        { writeReg s v r with answer := none } := by
  cases r with
  | cmd => exact absurd rfl hr
  | _ => exact ⟨rfl, rfl, rfl⟩

/-- A write to anything but CMD leaves STATUS and CMD and can be made twice. -/
theorem hostAccess_of_write (hd : a.data ≠ none) (hoff : a.offset ≠ 0x004) (h : hostAccess a s = .next t) :
    t.status = s.status ∧ t.cmd = s.cmd ∧ hostAccess a t = .next t := by
  rcases hostAccess_cases a s with
    ⟨f, hn, -⟩ | ⟨hnone, -⟩ | ⟨hb, v, r, hv, hr, hw, h4, hlt, hn⟩ | ⟨hb, v, hv, hlo, hal, hhi, hn⟩
  · cases hn.symm.trans h
  · exact absurd hnone hd
  · have hcmd : r ≠ .cmd := by
      rintro rfl
      exact hoff (regAt_eq_cmd hr)
    obtain ⟨hstatus, hcmd, htwice⟩ := writeReg_not_cmd hcmd s (BitVec.ofNat 32 v)
    obtain ⟨hbuild, -⟩ := writeReg_keeps s (BitVec.ofNat 32 v) r
    cases hn.symm.trans h
    refine ⟨hstatus, hcmd, ?_⟩
    have hagain := hostAccess_reg (s := { writeReg s (BitVec.ofNat 32 v) r with answer := none })
      (.inl ((congrArg Status.busy hstatus).trans hb)) hw h4 hlt ((congrArg (regAt · a.offset) hbuild).trans hr)
    rw [hagain, accessReg_write hv, htwice]
  · cases hn.symm.trans h
    refine ⟨rfl, rfl, ?_⟩
    have hagain := hostAccess_buffer
      (s := { s with buf := s.buf.write (a.offset - 0x1000) (leBytes v a.width), answer := none }) hb hlo hal hhi
    rw [hagain, accessBuffer_write hv, Memory.write_write]

/-- Settles O47: `hostAccess_cases` leaves a read no write, and a write to anything but CMD no STATUS. -/
theorem onlyCmdWritesIssue : Obligations.OnlyCmdWritesIssue := by
  refine ⟨fun s t a => hostAccess_of_read, fun s t a => hostAccess_of_write, fun s w hb => ⟨?_, ?_⟩⟩
  · exact hostAccess_write (r := .cmd) hb rfl (by decide) rfl
  · exact hostAccess_read (r := .cmd) (.inl hb) rfl (by decide) rfl

/-! ## After reset (70_reset_and_hazards.md R340) -/

theorem conformingBuild_specExample : ConformingBuild Build.specExample := by decide

/-- Settles O56: by evaluation; RESET leaves the power-on state (`State.applyReset_powerOn`). -/
theorem resetStateIsExampleBuild : Obligations.ResetStateIsExampleBuild :=
  ⟨rfl, rfl, rfl, by decide, conformingBuild_specExample, rfl, rfl, rfl, rfl,
    congrArg Host.Outcome.next (State.applyReset_powerOn _)⟩

end Sys2Proof.Machine
end

section
/-! PROOF. The nonce sequence and the passing of chunks from a sender to a receiver (43_crypter.md R265, R266, R281,
R282), and the settled statements. -/

namespace Sys2Proof.Machine

variable {sl sl' : Slot} {s t : State} {n : Nat}

/-! ## The nonce after k advances (43_crypter.md R281) -/

theorem Slot.created_nlen (sl : Slot) (c : Cipher) (mode : NonceMode) :
    (sl.created c mode).nlen.toNat = nonceSize c := by
  have := nonceSize_le c
  exact Nat.mod_eq_of_lt (by omega)

/-- The nonce of a slot just created is all zero. -/
theorem Slot.created_nonceBytes (sl : Slot) (c : Cipher) (mode : NonceMode) :
    (sl.created c mode).nonceBytes = List.replicate (nonceSize c) 0#8 := by
  rw [Slot.nonceBytes, Slot.created_nlen]
  show (List.replicate 24 0#8).take (nonceSize c) = _
  rw [List.take_replicate, Nat.min_eq_left (nonceSize_le c)]

/-- A slot of the sequence that starts at `sl`: the nonce counts `k`, all that the next advance looks at is as it
was. -/
structure Slot.CountsTo (sl : Slot) (k : Nat) (x : Slot) : Prop where
  nmode : x.nmode = .sequential
  nlen : x.nlen = sl.nlen
  nonceBytes : x.nonceBytes = leBytes k sl.nlen.toNat
  st : x.st = sl.st

/-- One more advance, the largest value not yet being reached. -/
theorem Slot.CountsTo.succ {k : Nat} {x : Slot} (h : sl.CountsTo k x) (hl : sl.nlen.toNat ≤ 24)
    (hk : k + 1 < 256 ^ sl.nlen.toNat) : sl.CountsTo (k + 1) x.nonceAdvance := by
  have hvalue : x.nonceValue = k := by
    rw [Slot.nonceValue, h.nonceBytes, le_leBytes, Nat.mod_eq_of_lt (by omega)]
  have hnext := Slot.nonceAdvance_succ h.nmode (by rw [hvalue, h.nlen]; omega)
  rw [hvalue] at hnext
  rw [hnext]
  refine ⟨h.nmode, h.nlen, ?_, h.st⟩
  rw [← h.nlen]
  exact Slot.take_nonceSet (by rwa [h.nlen]) (k + 1)

theorem Slot.countsTo_iterate (h : sl.CountsTo 0 sl) (hl : sl.nlen.toNat ≤ 24) {k : Nat}
    (hk : k < 256 ^ sl.nlen.toNat) : sl.CountsTo k (Slot.nonceAdvance^[k] sl) := by
  induction k with
  | zero => exact h
  | succ k ih =>
    rw [Function.iterate_succ_apply']
    exact (ih (by omega)).succ hl hk

/-- Settles O40: by induction on k in Sequential mode (`Slot.countsTo_iterate`); in Zero mode an advance is nothing. -/
theorem nonceSequence : Obligations.NonceSequence := by
  refine ⟨fun sl c k hk => ?_, fun sl c k => ?_⟩
  · have hnlen := sl.created_nlen c .sequential
    have hzero : (sl.created c .sequential).CountsTo 0 (sl.created c .sequential) :=
      ⟨rfl, rfl, by rw [Slot.created_nonceBytes, leBytes_zero, hnlen], rfl⟩
    have hcount := Slot.countsTo_iterate hzero (hnlen.trans_le (nonceSize_le c)) (k := k) (by rwa [hnlen])
    rw [← hnlen]
    exact ⟨hcount.nonceBytes, hcount.st⟩
  · rw [Function.iterate_fixed (Slot.nonceAdvance_zero rfl)]
    exact ⟨sl.created_nonceBytes c .zero, rfl⟩

/-! ## Two slots with the same crypter (43_crypter.md R282) -/

theorem SameCrypter.keyBytes (h : SameCrypter sl sl') : sl.keyBytes = sl'.keyBytes := by
  obtain ⟨-, hlen, hkey, -⟩ := h
  rw [Slot.keyBytes, hlen, hkey]
  rfl

theorem SameCrypter.nonceBytes (h : SameCrypter sl sl') : sl.nonceBytes = sl'.nonceBytes := by
  obtain ⟨-, -, -, -, hnonce, hnlen⟩ := h
  rw [Slot.nonceBytes, hnonce, hnlen]
  rfl

/-- What one slot seals, the other opens, under T3 for the crypter they hold. -/
theorem SameCrypter.opened_sealed (h : SameCrypter sl sl') {P : Primitives}
    (hT3 : RoundTrips P sl.cipher sl.keyBytes sl.nonceBytes) (p : List Byte) :
    sl'.opened P (sl.sealed P p) = some p := by
  obtain ⟨hcipher, -⟩ := id h
  rw [Slot.opened, ← h.keyBytes, ← h.nonceBytes, ← hcipher]
  exact hT3 p

/-- Two slots with the same crypter and state have both again after an advance. -/
theorem SameCrypter.nonceAdvance (h : SameCrypter sl sl') (hst : sl.st = sl'.st) :
    SameCrypter sl.nonceAdvance sl'.nonceAdvance ∧ sl.nonceAdvance.st = sl'.nonceAdvance.st := by
  have hvalue : sl.nonceValue = sl'.nonceValue := congrArg le h.nonceBytes
  obtain ⟨hcipher, hlen, hkey, hmode, hnonce, hnlen⟩ := id h
  cases hm : sl.nmode with
  | zero =>
    rw [Slot.nonceAdvance_zero hm, Slot.nonceAdvance_zero (hmode.symm.trans hm)]
    exact ⟨h, hst⟩
  | sequential =>
    have hm' := hmode.symm.trans hm
    by_cases hv : sl.nonceValue = 256 ^ sl.nlen.toNat - 1
    · rw [Slot.nonceAdvance_last hm hv, Slot.nonceAdvance_last hm' (by rw [← hvalue, ← hnlen, hv])]
      exact ⟨⟨hcipher, hlen, hkey, hmode, hnonce, hnlen⟩, rfl⟩
    · rw [Slot.nonceAdvance_succ hm hv, Slot.nonceAdvance_succ hm' (by rwa [← hvalue, ← hnlen])]
      refine ⟨⟨hcipher, hlen, hkey, hmode, ?_, hnlen⟩, hst⟩
      rw [Slot.nonceSet, hvalue, hnonce, hnlen]
      rfl

/-! ## One chunk (43_crypter.md R270, R275, R282) -/

/-- Only a slot of the bank can be ACTIVE. -/
theorem State.lt_of_active (h : (s.slot n).st = .active) : n < 16 := by
  by_contra hn
  rw [State.slot, Vector.getElem?_eq_none (Nat.not_lt.1 hn)] at h
  cases h

/-- An ENCRYPT that ends with OK found an ACTIVE slot and an input in place; the whole next state. -/
theorem encrypt_ok (h : exec (.encrypt n) s = .next t) (hok : t.status.errcode = .ok) :
    (s.slot n).st = .active ∧ (s.slot n).dir ≠ .dec ∧ ∃ p, s.src = some p ∧
      t = (((s.writeDst ((s.slot n).sealed s.prims p)).setResultNat (s.srcLen.toNat + 16)).setSlot n
        ((s.slot n).bound .enc).nonceAdvance).ended .ok := by
  obtain ⟨u, e, rfl, heffect⟩ := effect_of_next h
  obtain rfl : e = .ok := hok
  cases heffect with
  | raised _ _ hcode =>
    obtain ⟨hne, -⟩ := hcode
    exact absurd rfl hne
  | computed _ hi => simp at hi
  | derived _ _ _ _ hi => simp at hi
  | loaded _ _ hi => simp at hi
  | encrypted _ k hi _ hst hd _ _ p hp =>
    cases hi
    exact ⟨hst, hd, p, hp, rfl⟩
  | named _ _ _ hi | cleared _ _ hi | created _ _ _ _ _ hi | released _ _ hi | decrypted _ _ hi => cases hi

/-- A delivered chunk is opened: the receiver's slot being ACTIVE, not bound to the other direction, and holding the
sender's crypter, with T3 for it. Both slots then are what NonceAdvance makes of them. -/
theorem Exchange.Delivers.opens {provider : Provider} {a b : Nat} {x : Exchange} (h : x.Delivers provider a b)
    (hst : (x.receiver.slot b).st = .active) (hdir : (x.receiver.slot b).dir ≠ .enc)
    (hsame : SameCrypter (x.sender.slot a) (x.receiver.slot b))
    (hT3 : RoundTrips (primitivesOf provider) (x.sender.slot a).cipher (x.sender.slot a).keyBytes
      (x.sender.slot a).nonceBytes) :
    ∃ p u, x.sender.src = some p ∧ exec (.decrypt b) x.receiver = .next u ∧ u.status.errcode = .ok ∧
      u.result = BitVec.ofNat 32 p.length ∧ u.buf.read x.receiver.dstOff.toNat p.length = some p ∧
      x.sent.slot a = ((x.sender.slot a).bound .enc).nonceAdvance ∧
      u.slot b = ((x.receiver.slot b).bound .dec).nonceAdvance := by
  obtain ⟨s, t, r⟩ := x
  obtain ⟨hsender, hreceiver, hencrypt, hok, ⟨hfatal, hb⟩, hlen, hsource, hroom, hread⟩ := h
  simp only at *
  obtain ⟨hactive, -, p, hp, rfl⟩ := encrypt_ok hencrypt hok
  have hs : s.prims = primitivesOf provider := congrArg primitivesOf hsender
  have hr : r.prims = primitivesOf provider := congrArg primitivesOf hreceiver
  have hplen : s.srcLen.toNat = p.length := (length_src hp).symm
  have hin : r.buf.read r.srcOff.toNat r.srcLen.toNat = some ((s.slot a).sealed (primitivesOf provider) p) := by
    have hout := Memory.read_write_same s.buf s.dstOff.toNat ((s.slot a).sealed s.prims p)
    rw [length_sealed, ← hplen] at hout
    rw [hread, ← hs]
    exact hout
  have hopen : (r.slot b).opened r.prims ((s.slot a).sealed (primitivesOf provider) p) = some p := by
    rw [hr]
    exact hsame.opened_sealed hT3 p
  have hminus : r.srcLen.toNat - 16 = p.length := by omega
  obtain ⟨-, -, -, -, -, -, -, hdecrypt⟩ := decryptOpensChunk.2 r b hfatal hb
  refine ⟨p, _, hp, hdecrypt _ p hst hdir (by omega) hsource (by omega) hin hopen, rfl, ?_, ?_, ?_, ?_⟩
  · exact congrArg (BitVec.ofNat 32) hminus
  · exact Memory.read_write_same _ _ _
  · simp [State.setSlot_slot, State.lt_of_active hactive]
  · exact (State.setSlot_slot r b b _).trans (if_pos ⟨rfl, State.lt_of_active hst⟩)

/-- Settles O42: the exchange of one chunk (`Exchange.Delivers.opens`), then the two advances
(`SameCrypter.nonceAdvance`). -/
theorem roundTripOneChunk : Obligations.RoundTripOneChunk := by
  intro s r a b p _ _ hsf hrf hprovider ha hb hsst hrst hsdir hrdir hsame hT3 hsrc hdst hp
  obtain ⟨-, -, -, -, -, hencrypt⟩ := encryptSealsChunk.2 s a hsf ha
  obtain ⟨t, hsent, hsentOk⟩ : ∃ t, exec (.encrypt a) s = .next t ∧ t.status.errcode = .ok :=
    ⟨_, hencrypt p hsst hsdir hsrc hdst hp, rfl⟩
  refine ⟨t, hsent, hsentOk, fun hlen hsource hroom hread => ?_⟩
  have hplen : s.srcLen.toNat = p.length := (length_src hp).symm
  rw [← hplen] at hlen hroom hread
  have hdelivers : Exchange.Delivers s.build.provider a b ⟨s, t, r⟩ :=
    ⟨rfl, hprovider.symm, hsent, hsentOk, ⟨hrf, hb⟩, hlen, hsource, hroom, hread⟩
  obtain ⟨q, u, hq, hdecrypt, hok, hresult, hplain, hslot, hslot'⟩ := hdelivers.opens hrst hrdir hsame hT3
  obtain rfl : p = q := Option.some.inj (hp.symm.trans hq)
  obtain ⟨hsame', hst'⟩ := SameCrypter.nonceAdvance (sl := (s.slot a).bound .enc) (sl' := (r.slot b).bound .dec)
    hsame (hsst.trans hrst.symm)
  exact ⟨u, hdecrypt, hok, hresult, hplain, by rw [hslot, hslot']; exact ⟨hsame', hst'⟩⟩

/-! ## Many chunks (43_crypter.md R282) -/

/-- What the sending slot and the receiving slot keep from chunk to chunk. -/
structure InStep (P : Primitives) (sl sl' : Slot) : Prop where
  same : SameCrypter sl sl'
  st : sl.st = sl'.st
  receives : sl'.dir ≠ .enc
  nlen : sl.nlen.toNat ≤ 24
  roundTrips : ∀ nonce, nonce.length = sl.nlen.toNat → RoundTrips P sl.cipher sl.keyBytes nonce

theorem InStep.roundTrips_nonce {P : Primitives} (h : InStep P sl sl') :
    RoundTrips P sl.cipher sl.keyBytes sl.nonceBytes := by
  refine h.roundTrips _ ?_
  rw [Slot.nonceBytes, List.length_take, Vector.length_toList, Nat.min_eq_left h.nlen]

theorem InStep.advance {P : Primitives} (h : InStep P sl sl') :
    InStep P (sl.bound .enc).nonceAdvance (sl'.bound .dec).nonceAdvance := by
  obtain ⟨hsame, hst⟩ := SameCrypter.nonceAdvance (sl := sl.bound .enc) (sl' := sl'.bound .dec) h.same h.st
  obtain ⟨hkey, hlen, hcipher, -, -, hnlen⟩ := (sl.bound .enc).nonceAdvance_sameBinding
  refine ⟨hsame, hst, ?_, by rw [hnlen]; exact h.nlen, ?_⟩
  · rw [Slot.nonceAdvance_dir]
    exact nofun
  · rw [hcipher, hnlen, Slot.keyBytes, hkey, hlen]
    exact h.roundTrips

/-- At every chunk of a connection that starts in step, the slots are in step, and the chunk is opened. -/
theorem connection_opens {provider : Provider} {a b : Nat} {xs : List Exchange}
    (h : InStep (primitivesOf provider) sl sl') (hc : Connection provider a b sl sl' xs) :
    ∀ x ∈ xs, (x.sender.slot a).st = .active ∧ (x.receiver.slot b).st = .active ∧
      SameCrypter (x.sender.slot a) (x.receiver.slot b) ∧
      ∃ p u, x.sender.src = some p ∧ exec (.decrypt b) x.receiver = .next u ∧ u.status.errcode = .ok ∧
        u.result = BitVec.ofNat 32 p.length ∧ u.buf.read x.receiver.dstOff.toNat p.length = some p ∧
        SameCrypter (x.sent.slot a) (u.slot b) ∧ (x.sent.slot a).st = (u.slot b).st := by
  induction xs generalizing sl sl' with
  | nil => exact fun x hx => absurd hx List.not_mem_nil
  | cons x xs ih =>
    obtain ⟨rfl, rfl, hdelivers, hrest⟩ := hc
    obtain ⟨hactive, -⟩ := encrypt_ok hdelivers.encrypted hdelivers.ok
    have hactive' := h.st.symm.trans hactive
    obtain ⟨p, u, hp, hdecrypt, hok, hresult, hplain, hslot, hslot'⟩ :=
      hdelivers.opens hactive' h.receives h.same h.roundTrips_nonce
    have hnext : InStep (primitivesOf provider) (x.sent.slot a) (u.slot b) := by
      rw [hslot, hslot']
      exact h.advance
    intro y hy
    rcases List.mem_cons.1 hy with rfl | hy
    · exact ⟨hactive, hactive', h.same, p, u, hp, hdecrypt, hok, hresult, hplain, hnext.same, hnext.st⟩
    · exact ih hnext (hrest u hdecrypt) y hy

/-- Settles O43: two ACTIVE slots that hold one crypter are in step; then by induction on the chunks
(`connection_opens`). -/
theorem roundTripManyChunks : Obligations.RoundTripManyChunks := by
  intro provider a b sl sl' xs hsame hbound hst hst' _ hdir' hT3 hc
  obtain ⟨-, -, hnlen, -⟩ := hbound
  have hstep : InStep (primitivesOf provider) sl sl' :=
    ⟨hsame, hst.trans hst'.symm, hdir', hnlen.trans_le (nonceSize_le _), hT3⟩
  exact connection_opens hstep hc

end Sys2Proof.Machine
end
